-- ==== Sys2Proof/Word.lean ====
section
/-! DEFINITION. The word types of the core (spec 00_scope.md R7 to R9) and the banks of 2^k like things
(registers, cache lines, scratchpad bytes) that the state is made of. -/

namespace Sys2Proof

/-- A 32-bit register, address or instruction word (R7, R9). -/
abbrev Word := BitVec 32

/-- One byte. -/
abbrev Byte := BitVec 8

/-- The number of a general register or of a COP0 register: a 5-bit field (R30, R40, R171). -/
abbrev RegNum := BitVec 5

/-- The number of a GTE register: 0..31 data, 32..63 control (R51). -/
abbrev GteReg := BitVec 6

/-- The width of a data access: 1, 2 or 4 bytes (R11, R111). -/
inductive Width where
  | byte
  | half
  | word
  deriving DecidableEq, Repr

/-- The number of bytes an access of the width moves (R111). -/
def Width.bytes : Width → Nat
  | .byte => 1
  | .half => 2
  | .word => 4

/-- A bank of `2^k` like things, each named by a `k`-bit number. -/
abbrev Bank (α : Type) (k : Nat) := Vector α (2 ^ k)

/-- Entry `i` of a bank. -/
def Bank.read {α : Type} {k : Nat} (b : Bank α k) (i : BitVec k) : α := b[i.toNat]'i.isLt

/-- The bank with entry `i` replaced by `x`. -/
def Bank.write {α : Type} {k : Nat} (b : Bank α k) (i : BitVec k) (x : α) : Bank α k := b.set i.toNat x i.isLt

end Sys2Proof
end

