-- ==== Sys2Proof/Syntax.lean ====
section
/-! DEFINITION. The instructions: one constructor per row of spec/opcode_table.json, in the table's order. Operands stand
in the order of the assembler syntax (30_encoding.md R191), the destination first; fields the decoder ignores
(R183) are not part of an instruction. In the COP2 transfers the coprocessor operand is the GTE register number of
R176: 0..31 for a data register, 32..63 for a control register (`rd + 32`). -/

namespace Sys2Proof

/-- An instruction of the core (30_encoding.md R177 to R182). -/
inductive Instr where
  -- SPECIAL, R178
  | sll (rd rt : RegNum) (shamt : BitVec 5)
  | srl (rd rt : RegNum) (shamt : BitVec 5)
  | sra (rd rt : RegNum) (shamt : BitVec 5)
  | sllv (rd rt rs : RegNum)
  | srlv (rd rt rs : RegNum)
  | srav (rd rt rs : RegNum)
  | jr (rs : RegNum)
  | jalr (rd rs : RegNum)
  | syscall (code : BitVec 20)
  | breakTrap (code : BitVec 20)
  | mfhi (rd : RegNum)
  | mthi (rs : RegNum)
  | mflo (rd : RegNum)
  | mtlo (rs : RegNum)
  | mult (rs rt : RegNum)
  | multu (rs rt : RegNum)
  | div (rs rt : RegNum)
  | divu (rs rt : RegNum)
  | add (rd rs rt : RegNum)
  | addu (rd rs rt : RegNum)
  | sub (rd rs rt : RegNum)
  | subu (rd rs rt : RegNum)
  | and (rd rs rt : RegNum)
  | or (rd rs rt : RegNum)
  | xor (rd rs rt : RegNum)
  | nor (rd rs rt : RegNum)
  | slt (rd rs rt : RegNum)
  | sltu (rd rs rt : RegNum)
  -- REGIMM, R179
  | bltz (rs : RegNum) (imm : BitVec 16)
  | bgez (rs : RegNum) (imm : BitVec 16)
  | bltzal (rs : RegNum) (imm : BitVec 16)
  | bgezal (rs : RegNum) (imm : BitVec 16)
  -- primary opcodes, R177
  | j (target : BitVec 26)
  | jal (target : BitVec 26)
  | beq (rs rt : RegNum) (imm : BitVec 16)
  | bne (rs rt : RegNum) (imm : BitVec 16)
  | blez (rs : RegNum) (imm : BitVec 16)
  | bgtz (rs : RegNum) (imm : BitVec 16)
  | addi (rt rs : RegNum) (imm : BitVec 16)
  | addiu (rt rs : RegNum) (imm : BitVec 16)
  | slti (rt rs : RegNum) (imm : BitVec 16)
  | sltiu (rt rs : RegNum) (imm : BitVec 16)
  | andi (rt rs : RegNum) (imm : BitVec 16)
  | ori (rt rs : RegNum) (imm : BitVec 16)
  | xori (rt rs : RegNum) (imm : BitVec 16)
  | lui (rt : RegNum) (imm : BitVec 16)
  -- COP0, R180
  | mfc0 (rt rd : RegNum)
  | mtc0 (rt rd : RegNum)
  | rfe
  -- COP2, R181
  | mfc2 (rt : RegNum) (gr : GteReg)
  | cfc2 (rt : RegNum) (gr : GteReg)
  | mtc2 (rt : RegNum) (gr : GteReg)
  | ctc2 (rt : RegNum) (gr : GteReg)
  | cop2 (cofun : BitVec 25)
  -- loads and stores, R177
  | lb (rt base : RegNum) (offset : BitVec 16)
  | lh (rt base : RegNum) (offset : BitVec 16)
  | lwl (rt base : RegNum) (offset : BitVec 16)
  | lw (rt base : RegNum) (offset : BitVec 16)
  | lbu (rt base : RegNum) (offset : BitVec 16)
  | lhu (rt base : RegNum) (offset : BitVec 16)
  | lwr (rt base : RegNum) (offset : BitVec 16)
  | sb (rt base : RegNum) (offset : BitVec 16)
  | sh (rt base : RegNum) (offset : BitVec 16)
  | swl (rt base : RegNum) (offset : BitVec 16)
  | sw (rt base : RegNum) (offset : BitVec 16)
  | swr (rt base : RegNum) (offset : BitVec 16)
  | lwc2 (gr : GteReg) (base : RegNum) (offset : BitVec 16)
  | swc2 (gr : GteReg) (base : RegNum) (offset : BitVec 16)
  deriving DecidableEq, Repr

end Sys2Proof
end

