-- ==== Sys2Proof/WellFormed.lean ====
section
/-! DEFINITION. Which instructions are well formed. The widths of the operand fields are in their types, so the one check
left is the range of a GTE register number: MFC2, MTC2, LWC2 and SWC2 name a data register (0..31), CFC2 and CTC2 a
control register (32..63) (30_encoding.md R176, 10_state.md R51). -/

namespace Sys2Proof

/-- A GTE data register, 0..31 (R51). -/
def GteReg.isData (g : GteReg) : Bool := g.toNat < 32

/-- A GTE control register, 32..63 (R51). -/
def GteReg.isControl (g : GteReg) : Bool := 32 ≤ g.toNat

/-- The check of an instruction's operands. -/
def Instr.wellFormed : Instr → Bool
  | .sll _ _ _ | .srl _ _ _ | .sra _ _ _ | .sllv _ _ _ | .srlv _ _ _ | .srav _ _ _ => true
  | .jr _ | .jalr _ _ | .syscall _ | .breakTrap _ => true
  | .mfhi _ | .mthi _ | .mflo _ | .mtlo _ | .mult _ _ | .multu _ _ | .div _ _ | .divu _ _ => true
  | .add _ _ _ | .addu _ _ _ | .sub _ _ _ | .subu _ _ _ => true
  | .and _ _ _ | .or _ _ _ | .xor _ _ _ | .nor _ _ _ | .slt _ _ _ | .sltu _ _ _ => true
  | .bltz _ _ | .bgez _ _ | .bltzal _ _ | .bgezal _ _ => true
  | .j _ | .jal _ | .beq _ _ _ | .bne _ _ _ | .blez _ _ | .bgtz _ _ => true
  | .addi _ _ _ | .addiu _ _ _ | .slti _ _ _ | .sltiu _ _ _ => true
  | .andi _ _ _ | .ori _ _ _ | .xori _ _ _ | .lui _ _ => true
  | .mfc0 _ _ | .mtc0 _ _ | .rfe => true
  | .mfc2 _ g => g.isData
  | .cfc2 _ g => g.isControl
  | .mtc2 _ g => g.isData
  | .ctc2 _ g => g.isControl
  | .cop2 _ => true
  | .lb _ _ _ | .lh _ _ _ | .lwl _ _ _ | .lw _ _ _ | .lbu _ _ _ | .lhu _ _ _ | .lwr _ _ _ => true
  | .sb _ _ _ | .sh _ _ _ | .swl _ _ _ | .sw _ _ _ | .swr _ _ _ => true
  | .lwc2 g _ _ => g.isData
  | .swc2 g _ _ => g.isData

end Sys2Proof
end

