-- ==== Sys2Proof/Decode.lean ====
section
/-! DEFINITION. The decoder, total on any bytes and rejecting by name, and after it the encoder, both written from
30_encoding.md (R170 to R187). -/

namespace Sys2Proof

/-- Why a word is no instruction of the table. What the core does with such a word is
`Sys2Proof.Machine.executeUnassigned` (R184 to R187, R190). -/
inductive Reject where
  /-- Fewer than four bytes were given (R170: every instruction is one 32-bit word). -/
  | shortInput
  /-- A reserved primary opcode (R184). -/
  | reservedPrimary
  /-- A SPECIAL word with an unassigned `funct` (R185). -/
  | unassignedSpecial
  /-- An unassigned COP0 word (R186). -/
  | unassignedCop0
  /-- An unassigned COP2 word (R187). -/
  | unassignedCop2
  /-- COP1, COP3, LWC0, LWC1, LWC3, SWC0, SWC1 or SWC3 of coprocessor `z` (R182). -/
  | absentCoprocessor (z : BitVec 2)
  deriving DecidableEq, Repr

/-! ### Fields of a word (R171 to R174) -/

/-- Primary opcode, bits 31:26. -/
def fieldOp (w : Word) : BitVec 6 := w.extractLsb' 26 6
/-- `rs`, bits 25:21. -/
def fieldRs (w : Word) : BitVec 5 := w.extractLsb' 21 5
/-- `rt`, bits 20:16. -/
def fieldRt (w : Word) : BitVec 5 := w.extractLsb' 16 5
/-- `rd`, bits 15:11. -/
def fieldRd (w : Word) : BitVec 5 := w.extractLsb' 11 5
/-- `shamt`, bits 10:6. -/
def fieldShamt (w : Word) : BitVec 5 := w.extractLsb' 6 5
/-- `funct`, bits 5:0. -/
def fieldFunct (w : Word) : BitVec 6 := w.extractLsb' 0 6
/-- `imm`, bits 15:0. -/
def fieldImm (w : Word) : BitVec 16 := w.extractLsb' 0 16
/-- `target`, bits 25:0. -/
def fieldTarget (w : Word) : BitVec 26 := w.extractLsb' 0 26
/-- `code` of SYSCALL and BREAK, bits 25:6. -/
def fieldCode (w : Word) : BitVec 20 := w.extractLsb' 6 20
/-- The CO bit, bit 25. -/
def fieldCo (w : Word) : BitVec 1 := w.extractLsb' 25 1
/-- `cofun`, bits 24:0. -/
def fieldCofun (w : Word) : BitVec 25 := w.extractLsb' 0 25
/-- Coprocessor number `cop_n`, bits 27:26 (R174, 60_exceptions.md R421). -/
def fieldCopNumber (w : Word) : BitVec 2 := w.extractLsb' 26 2

/-- GTE data register `n` (R176). -/
def gteData (n : BitVec 5) : GteReg := 0#1 ++ n
/-- GTE control register `n`, register `n + 32` (R176). -/
def gteControl (n : BitVec 5) : GteReg := 1#1 ++ n

/-! ### The decoder -/

/-- SPECIAL, by `funct` (R178, R185). -/
def decodeSpecial (w : Word) : Except Reject Instr :=
  match fieldFunct w with
  | 0x00#6 => .ok (.sll (fieldRd w) (fieldRt w) (fieldShamt w))
  | 0x02#6 => .ok (.srl (fieldRd w) (fieldRt w) (fieldShamt w))
  | 0x03#6 => .ok (.sra (fieldRd w) (fieldRt w) (fieldShamt w))
  | 0x04#6 => .ok (.sllv (fieldRd w) (fieldRt w) (fieldRs w))
  | 0x06#6 => .ok (.srlv (fieldRd w) (fieldRt w) (fieldRs w))
  | 0x07#6 => .ok (.srav (fieldRd w) (fieldRt w) (fieldRs w))
  | 0x08#6 => .ok (.jr (fieldRs w))
  | 0x09#6 => .ok (.jalr (fieldRd w) (fieldRs w))
  | 0x0C#6 => .ok (.syscall (fieldCode w))
  | 0x0D#6 => .ok (.breakTrap (fieldCode w))
  | 0x10#6 => .ok (.mfhi (fieldRd w))
  | 0x11#6 => .ok (.mthi (fieldRs w))
  | 0x12#6 => .ok (.mflo (fieldRd w))
  | 0x13#6 => .ok (.mtlo (fieldRs w))
  | 0x18#6 => .ok (.mult (fieldRs w) (fieldRt w))
  | 0x19#6 => .ok (.multu (fieldRs w) (fieldRt w))
  | 0x1A#6 => .ok (.div (fieldRs w) (fieldRt w))
  | 0x1B#6 => .ok (.divu (fieldRs w) (fieldRt w))
  | 0x20#6 => .ok (.add (fieldRd w) (fieldRs w) (fieldRt w))
  | 0x21#6 => .ok (.addu (fieldRd w) (fieldRs w) (fieldRt w))
  | 0x22#6 => .ok (.sub (fieldRd w) (fieldRs w) (fieldRt w))
  | 0x23#6 => .ok (.subu (fieldRd w) (fieldRs w) (fieldRt w))
  | 0x24#6 => .ok (.and (fieldRd w) (fieldRs w) (fieldRt w))
  | 0x25#6 => .ok (.or (fieldRd w) (fieldRs w) (fieldRt w))
  | 0x26#6 => .ok (.xor (fieldRd w) (fieldRs w) (fieldRt w))
  | 0x27#6 => .ok (.nor (fieldRd w) (fieldRs w) (fieldRt w))
  | 0x2A#6 => .ok (.slt (fieldRd w) (fieldRs w) (fieldRt w))
  | 0x2B#6 => .ok (.sltu (fieldRd w) (fieldRs w) (fieldRt w))
  | _ => .error .unassignedSpecial

/-- REGIMM: `rt[0]` selects the condition, `rt` 0x10 and 0x11 link, every other value is a plain branch (R179,
42_branch.md R286). -/
def decodeRegimm (w : Word) : Instr :=
  match fieldRt w with
  | 0x10#5 => .bltzal (fieldRs w) (fieldImm w)
  | 0x11#5 => .bgezal (fieldRs w) (fieldImm w)
  | rt => if rt.getLsbD 0 then .bgez (fieldRs w) (fieldImm w) else .bltz (fieldRs w) (fieldImm w)

/-- COP0, after the usability check (R180, R186). -/
def decodeCop0 (w : Word) : Except Reject Instr :=
  if fieldCo w = 1#1 then
    (if fieldFunct w = 0x10#6 then .ok .rfe else .error .unassignedCop0)
  else
    match fieldRs w with
    | 0x00#5 => .ok (.mfc0 (fieldRt w) (fieldRd w))
    | 0x04#5 => .ok (.mtc0 (fieldRt w) (fieldRd w))
    | _ => .error .unassignedCop0

/-- COP2, after the usability check (R181, R187). -/
def decodeCop2 (w : Word) : Except Reject Instr :=
  if fieldCo w = 1#1 then .ok (.cop2 (fieldCofun w))
  else
    match fieldRs w with
    | 0x00#5 => .ok (.mfc2 (fieldRt w) (gteData (fieldRd w)))
    | 0x02#5 => .ok (.cfc2 (fieldRt w) (gteControl (fieldRd w)))
    | 0x04#5 => .ok (.mtc2 (fieldRt w) (gteData (fieldRd w)))
    | 0x06#5 => .ok (.ctc2 (fieldRt w) (gteControl (fieldRd w)))
    | _ => .error .unassignedCop2

/-- The decoder of a word (R177, R190). -/
def decodeWord (w : Word) : Except Reject Instr :=
  match fieldOp w with
  | 0x00#6 => decodeSpecial w
  | 0x01#6 => .ok (decodeRegimm w)
  | 0x02#6 => .ok (.j (fieldTarget w))
  | 0x03#6 => .ok (.jal (fieldTarget w))
  | 0x04#6 => .ok (.beq (fieldRs w) (fieldRt w) (fieldImm w))
  | 0x05#6 => .ok (.bne (fieldRs w) (fieldRt w) (fieldImm w))
  | 0x06#6 => .ok (.blez (fieldRs w) (fieldImm w))
  | 0x07#6 => .ok (.bgtz (fieldRs w) (fieldImm w))
  | 0x08#6 => .ok (.addi (fieldRt w) (fieldRs w) (fieldImm w))
  | 0x09#6 => .ok (.addiu (fieldRt w) (fieldRs w) (fieldImm w))
  | 0x0A#6 => .ok (.slti (fieldRt w) (fieldRs w) (fieldImm w))
  | 0x0B#6 => .ok (.sltiu (fieldRt w) (fieldRs w) (fieldImm w))
  | 0x0C#6 => .ok (.andi (fieldRt w) (fieldRs w) (fieldImm w))
  | 0x0D#6 => .ok (.ori (fieldRt w) (fieldRs w) (fieldImm w))
  | 0x0E#6 => .ok (.xori (fieldRt w) (fieldRs w) (fieldImm w))
  | 0x0F#6 => .ok (.lui (fieldRt w) (fieldImm w))
  | 0x10#6 => decodeCop0 w
  | 0x12#6 => decodeCop2 w
  | 0x11#6 | 0x13#6 | 0x30#6 | 0x31#6 | 0x33#6 | 0x38#6 | 0x39#6 | 0x3B#6 => .error (.absentCoprocessor (fieldCopNumber w))
  | 0x20#6 => .ok (.lb (fieldRt w) (fieldRs w) (fieldImm w))
  | 0x21#6 => .ok (.lh (fieldRt w) (fieldRs w) (fieldImm w))
  | 0x22#6 => .ok (.lwl (fieldRt w) (fieldRs w) (fieldImm w))
  | 0x23#6 => .ok (.lw (fieldRt w) (fieldRs w) (fieldImm w))
  | 0x24#6 => .ok (.lbu (fieldRt w) (fieldRs w) (fieldImm w))
  | 0x25#6 => .ok (.lhu (fieldRt w) (fieldRs w) (fieldImm w))
  | 0x26#6 => .ok (.lwr (fieldRt w) (fieldRs w) (fieldImm w))
  | 0x28#6 => .ok (.sb (fieldRt w) (fieldRs w) (fieldImm w))
  | 0x29#6 => .ok (.sh (fieldRt w) (fieldRs w) (fieldImm w))
  | 0x2A#6 => .ok (.swl (fieldRt w) (fieldRs w) (fieldImm w))
  | 0x2B#6 => .ok (.sw (fieldRt w) (fieldRs w) (fieldImm w))
  | 0x2E#6 => .ok (.swr (fieldRt w) (fieldRs w) (fieldImm w))
  | 0x32#6 => .ok (.lwc2 (gteData (fieldRt w)) (fieldRs w) (fieldImm w))
  | 0x3A#6 => .ok (.swc2 (gteData (fieldRt w)) (fieldRs w) (fieldImm w))
  | _ => .error .reservedPrimary

/-- A word from its four bytes, the lowest address first (R170, 20_memory.md R110: little-endian). -/
def wordOfBytes (b0 b1 b2 b3 : Byte) : Word := b3 ++ b2 ++ b1 ++ b0

/-- The decoder on bytes: the instruction and the bytes after it. -/
def decode : List Byte → Except Reject (Instr × List Byte)
  | b0 :: b1 :: b2 :: b3 :: rest =>
    match decodeWord (wordOfBytes b0 b1 b2 b3) with
    | .ok i => .ok (i, rest)
    | .error r => .error r
  | _ => .error .shortInput

/-! ### The encoder -/

/-- R-type word (R171). -/
def rType (rs rt rd shamt : BitVec 5) (funct : BitVec 6) : Word := 0x00#6 ++ rs ++ rt ++ rd ++ shamt ++ funct
/-- I-type word (R172). -/
def iType (op : BitVec 6) (rs rt : BitVec 5) (imm : BitVec 16) : Word := op ++ rs ++ rt ++ imm
/-- J-type word (R173). -/
def jType (op : BitVec 6) (target : BitVec 26) : Word := op ++ target
/-- SYSCALL and BREAK, with their 20-bit `code` (R171). -/
def trapType (code : BitVec 20) (funct : BitVec 6) : Word := 0x00#6 ++ code ++ funct
/-- A coprocessor move, CO = 0 (R174). -/
def copMove (op : BitVec 6) (sub rt rd : BitVec 5) : Word := op ++ sub ++ rt ++ rd ++ 0#11
/-- A coprocessor operation, CO = 1 (R174). -/
def copOperation (op : BitVec 6) (cofun : BitVec 25) : Word := op ++ 1#1 ++ cofun
/-- The 5-bit field that names a GTE register (R176). -/
def gteField (g : GteReg) : BitVec 5 := g.extractLsb' 0 5

/-- The word of an instruction; the fields the decoder ignores are written 0 (R183). -/
def encode : Instr → Word
  | .sll rd rt shamt => rType 0 rt rd shamt 0x00
  | .srl rd rt shamt => rType 0 rt rd shamt 0x02
  | .sra rd rt shamt => rType 0 rt rd shamt 0x03
  | .sllv rd rt rs => rType rs rt rd 0 0x04
  | .srlv rd rt rs => rType rs rt rd 0 0x06
  | .srav rd rt rs => rType rs rt rd 0 0x07
  | .jr rs => rType rs 0 0 0 0x08
  | .jalr rd rs => rType rs 0 rd 0 0x09
  | .syscall code => trapType code 0x0C
  | .breakTrap code => trapType code 0x0D
  | .mfhi rd => rType 0 0 rd 0 0x10
  | .mthi rs => rType rs 0 0 0 0x11
  | .mflo rd => rType 0 0 rd 0 0x12
  | .mtlo rs => rType rs 0 0 0 0x13
  | .mult rs rt => rType rs rt 0 0 0x18
  | .multu rs rt => rType rs rt 0 0 0x19
  | .div rs rt => rType rs rt 0 0 0x1A
  | .divu rs rt => rType rs rt 0 0 0x1B
  | .add rd rs rt => rType rs rt rd 0 0x20
  | .addu rd rs rt => rType rs rt rd 0 0x21
  | .sub rd rs rt => rType rs rt rd 0 0x22
  | .subu rd rs rt => rType rs rt rd 0 0x23
  | .and rd rs rt => rType rs rt rd 0 0x24
  | .or rd rs rt => rType rs rt rd 0 0x25
  | .xor rd rs rt => rType rs rt rd 0 0x26
  | .nor rd rs rt => rType rs rt rd 0 0x27
  | .slt rd rs rt => rType rs rt rd 0 0x2A
  | .sltu rd rs rt => rType rs rt rd 0 0x2B
  | .bltz rs imm => iType 0x01 rs 0x00 imm
  | .bgez rs imm => iType 0x01 rs 0x01 imm
  | .bltzal rs imm => iType 0x01 rs 0x10 imm
  | .bgezal rs imm => iType 0x01 rs 0x11 imm
  | .j target => jType 0x02 target
  | .jal target => jType 0x03 target
  | .beq rs rt imm => iType 0x04 rs rt imm
  | .bne rs rt imm => iType 0x05 rs rt imm
  | .blez rs imm => iType 0x06 rs 0 imm
  | .bgtz rs imm => iType 0x07 rs 0 imm
  | .addi rt rs imm => iType 0x08 rs rt imm
  | .addiu rt rs imm => iType 0x09 rs rt imm
  | .slti rt rs imm => iType 0x0A rs rt imm
  | .sltiu rt rs imm => iType 0x0B rs rt imm
  | .andi rt rs imm => iType 0x0C rs rt imm
  | .ori rt rs imm => iType 0x0D rs rt imm
  | .xori rt rs imm => iType 0x0E rs rt imm
  | .lui rt imm => iType 0x0F 0 rt imm
  | .mfc0 rt rd => copMove 0x10 0x00 rt rd
  | .mtc0 rt rd => copMove 0x10 0x04 rt rd
  | .rfe => copOperation 0x10 0x10
  | .mfc2 rt g => copMove 0x12 0x00 rt (gteField g)
  | .cfc2 rt g => copMove 0x12 0x02 rt (gteField g)
  | .mtc2 rt g => copMove 0x12 0x04 rt (gteField g)
  | .ctc2 rt g => copMove 0x12 0x06 rt (gteField g)
  | .cop2 cofun => copOperation 0x12 cofun
  | .lb rt base off => iType 0x20 base rt off
  | .lh rt base off => iType 0x21 base rt off
  | .lwl rt base off => iType 0x22 base rt off
  | .lw rt base off => iType 0x23 base rt off
  | .lbu rt base off => iType 0x24 base rt off
  | .lhu rt base off => iType 0x25 base rt off
  | .lwr rt base off => iType 0x26 base rt off
  | .sb rt base off => iType 0x28 base rt off
  | .sh rt base off => iType 0x29 base rt off
  | .swl rt base off => iType 0x2A base rt off
  | .sw rt base off => iType 0x2B base rt off
  | .swr rt base off => iType 0x2E base rt off
  | .lwc2 g base off => iType 0x32 base (gteField g) off
  | .swc2 g base off => iType 0x3A base (gteField g) off

/-- The four bytes of a word in memory order (20_memory.md R110). -/
def bytesOfWord (w : Word) : List Byte :=
  [w.extractLsb' 0 8, w.extractLsb' 8 8, w.extractLsb' 16 8, w.extractLsb' 24 8]

/-- The instruction's bytes as memory holds them. -/
def encodeBytes (i : Instr) : List Byte := bytesOfWord (encode i)

/-- The host's question: what the decoder reads from the table word `w` of `nbits` bits, laid out in memory order. Every
instruction of this hardware has 32 bits; bits of `w` at and above `nbits` count as 0. -/
def decodeTableWord (nbits w : Nat) : Option Instr :=
  match decode (bytesOfWord (BitVec.ofNat 32 (w % 2 ^ nbits))) with
  | .ok (i, _) => some i
  | .error _ => none

end Sys2Proof
end

