-- ==== Sys2Proof/Config.lean ====
section
/-! DEFINITION. What the implementation fixes (00_scope.md R7) and the open parameters of the spec: the costs of
70_reset_and_hazards.md R545, the GTE of 44_system.md R350 and the draws of 00_scope.md R15. An open parameter is an opaque
constant: no proof can see a value of it, so a claim holds for every value. -/

namespace Sys2Proof

/-- The kind of a data access, for its cost (R545). -/
inductive AccessKind where
  | read
  | write
  | maskedWrite
  deriving DecidableEq, Repr

/-- The operation of the multiply/divide unit, for its cost (R545). -/
inductive MulDivOp where
  | mult
  | multu
  | div
  | divu
  deriving DecidableEq, Repr

/-- Which next instructions defer an interrupt: the parameter INT_DEFER_COP2 (60_exceptions.md R416). -/
inductive IntDefer where
  | gteCommand
  | none
  deriving DecidableEq, Repr

namespace Config

/-! ### Fixed values -/

/-- The reset vector (70_reset_and_hazards.md R530). -/
def resetVector : Word := 0xBFC00000#32
/-- The exception vector with BEV = 0 (60_exceptions.md R422). -/
def ramVector : Word := 0x80000080#32
/-- The exception vector with BEV = 1 (R422). -/
def romVector : Word := 0xBFC00180#32
/-- PRID (10_state.md R44). -/
def prid : Word := 0x00000002#32
/-- SR after reset: BEV = 1 (10_state.md R41). -/
def srReset : Word := 0x00400000#32
/-- The bits of SR that exist (R41). -/
def srMask : Word := 0xF27FFF3F#32
/-- The bits of CAUSE that MTC0 writes (10_state.md R43). -/
def causeMask : Word := 0x00000300#32
/-- The bits of CAUSE that exception entry writes (R43). -/
def causeEntryMask : Word := 0xF000007C#32
/-- The bits of DCIC that exist (10_state.md R45). -/
def dcicMask : Word := 0xFF80F03F#32
/-- The address of the cache-control register (20_memory.md R140). -/
def cacheControlAddress : Word := 0xFFFE0130#32
/-- The physical address mask: 29 bits (20_memory.md R100, R101). -/
def physicalMask : Word := 0x1FFFFFFF#32
/-- The base of the scratchpad (20_memory.md R120). -/
def scratchpadBase : Word := 0x1F800000#32
/-- A tag with every word invalid (10_state.md R47). -/
def invalidTag : Word := 0x0000000F#32
/-- INT_DEFER_COP2 (60_exceptions.md R416). -/
def intDeferCop2 : IntDefer := .gteCommand
/-- What a byte of bus memory that nothing has written reads as.
DESIGN CHOICE, unsafe (log entry 6): the spec leaves the contents to the bus oracle. -/
def unlistedByte : Byte := 0#8

/-! ### Costs (70_reset_and_hazards.md R545) -/

/-- Per step. -/
def tBase : Nat := 1
/-- Per exception entry and at reset. -/
def tFlush : Nat := 1
/-- A scratchpad access. -/
def tScratchpad : Nat := 0
/-- A cached fetch that hits: OPEN. -/
opaque tIcacheHit : Nat
/-- By how much a fill costs more than one tick over a hit: OPEN. -/
opaque tIcacheFillExtra : Nat → Word → Nat
/-- A fill of `n` words at physical `p`: OPEN, above the cost of a hit (20_memory.md R155; log entry 9). -/
def tIcacheFill (n : Nat) (p : Word) : Nat := tIcacheHit + 1 + tIcacheFillExtra n p
/-- An uncached fetch of one word: OPEN. -/
opaque tFetchUncached : Word → Nat
/-- A bus load or store of `n` bytes: OPEN. -/
opaque tData : AccessKind → Word → Nat → Nat
/-- A data access in true-cache mode (20_memory.md R126): OPEN. -/
opaque tDcache : AccessKind → Word → Nat → Nat
/-- An access to the cache-control register: OPEN. -/
opaque tCacheCtl : Nat
/-- An isolated access: OPEN. -/
opaque tIsolated : Nat
/-- A multiply or divide: OPEN. -/
opaque tMulDiv : MulDivOp → Word → Word → Nat
/-- The ticks from a GTE command's issue to its completion: OPEN. -/
opaque gteLatency : BitVec 25 → Nat

/-! ### The GTE (44_system.md R350; log entry 4) -/

/-- `gte_read(g, n)`: OPEN. -/
opaque gteRead : Bank Word 6 → GteReg → Word
/-- `gte_write(g, n, v)`: OPEN. -/
opaque gteWrite : Bank Word 6 → GteReg → Word → Bank Word 6
/-- `gte_execute(g, cmd)`: OPEN. -/
opaque gteExecute : Bank Word 6 → BitVec 25 → Bank Word 6

/-! ### Draws (00_scope.md R15; log entry 8) -/

/-- The value of draw number `k`: a free value. -/
opaque freeWord : Nat → Word

end Config
end Sys2Proof
end

