-- ==== Sys2Proof/Machine/State.lean ====
section
/-! DEFINITION. The state of the core (10_state.md R30 to R52), what the bus oracle needs to be plain data (20_memory.md
R104), why a step may stop, and the state after reset (70_reset_and_hazards.md R530). -/

namespace Sys2Proof.Machine

/-- Why a step has no next state though the spec gives the instruction one. -/
inductive Fault where
  /-- Raised by every bus call whose answer in `Bus.answers` is `silent`: "A bus access the oracle does not answer has no
  step (stuck)" (00_scope.md R14). Safe: the model stops where the hardware waits. -/
  | busSilent
  deriving DecidableEq, Repr

/-- Why a step is refused (00_scope.md R14). Every one is safe: the model stops where the spec gives no meaning. -/
inductive Refusal where
  /-- An instruction without a meaning in this model (none is left; the host's interface asks for the name). -/
  | notModelled (mnemonic : String)
  /-- Raised by a step that begins with any of DCIC[31:23] set (60_exceptions.md R447). -/
  | hardwareBreakpointsArmed
  /-- Raised by a data access to segment 0, 4 or 5 with SR.Isc = SR.Swc = 1 (20_memory.md R162). -/
  | swappedIsolation
  /-- Raised by a byte, halfword or partly masked access to the cache-control register (20_memory.md R140). -/
  | subwordCacheControl
  /-- Raised by an unassigned COP2 word when COP2 is usable (30_encoding.md R187). -/
  | unassignedCop2
  /-- Raised by a word of an absent coprocessor, or LWC0 or SWC0, when the coprocessor is usable (44_system.md R368). -/
  | absentCoprocessor (z : BitVec 2)
  deriving DecidableEq, Repr

/-- The code of a fetch-fault marker (10_state.md R36). -/
inductive FetchFaultCode where
  | ibe
  | adel
  deriving DecidableEq, Repr

/-- What an instruction slot holds: a word, or the marker of a fetch that failed (10_state.md R36, R37). -/
inductive Slot where
  | word (w : Word)
  | fetchFault (code : FetchFaultCode) (vaddr : Word)
  deriving DecidableEq, Repr

/-- The program counters and the two instruction slots (10_state.md R35 to R37). -/
structure Pipeline where
  pc : Word
  npc : Word
  currentInstruction : Slot
  currentInstructionPc : Word
  currentInBranchDelaySlot : Bool
  currentBranchWasTaken : Bool
  nextInstruction : Slot
  nextInstructionIsBranchDelaySlot : Bool
  branchWasTaken : Bool
  deriving DecidableEq, Repr

/-- The load-delay registers: the pending load (`reg`, `value`) and the staged load (`nextReg`, `nextValue`)
(10_state.md R38). -/
structure LoadDelay where
  reg : Option RegNum
  value : Word
  nextReg : Option RegNum
  nextValue : Word
  deriving DecidableEq, Repr

/-- The COP0 registers that hold state (10_state.md R40); PRID is the constant `Config.prid`. -/
structure Cop0 where
  bpc : Word
  bda : Word
  tar : Word
  dcic : Word
  badVaddr : Word
  bdam : Word
  bpcm : Word
  sr : Word
  cause : Word
  epc : Word
  deriving DecidableEq, Repr

/-- The instruction cache (10_state.md R47). -/
structure ICache where
  tags : Bank Word 8
  data : Bank Word 10
  deriving DecidableEq, Repr

/-- The timing counters (10_state.md R49). -/
structure Timing where
  pendingTicks : Nat
  downcount : Int
  gteCompletionTick : Nat
  deriving DecidableEq, Repr

/-- The transient per-step flags (10_state.md R50). -/
structure StepFlags where
  exceptionRaised : Bool
  busError : Bool
  deriving DecidableEq, Repr

/-- Bus memory: physical addresses and bytes, in the canonical form of `Memory.wf` (Machine/Storage.lean). -/
abbrev Memory := List Host.Cell

/-- How the oracle answers one bus call (20_memory.md R104; log entries 5, 7 and 26). -/
inductive BusAnswer where
  /-- As RAM: a read gives the bytes last written, a write stores; no error. -/
  | ram
  /-- As a device: a read gives `v`, a write is accepted and changes no bus memory. -/
  | device (v : Word)
  /-- `BusError`. -/
  | error
  /-- No answer: the machine is stuck (00_scope.md R14). -/
  | silent
  deriving DecidableEq, Repr

/-- Why the bus is read (R104). -/
inductive ReadKind where
  | fetch
  | data
  deriving DecidableEq, Repr

/-- One bus call, as R104 records it; an answer `none` is `BusError`. -/
inductive BusEvent where
  | read (kind : ReadKind) (paddr : Word) (n : Width) (answer : Option Word)
  | write (paddr : Word) (n : Width) (v : Word) (ok : Bool)
  | writeMasked (paddr : Word) (mask4 : BitVec 4) (v : Word) (ok : Bool)
  deriving DecidableEq, Repr

/-- The bus oracle as plain data: the memory behind it, the answers to come (one a call; past the end every call is
answered as RAM), and the calls made, newest first (20_memory.md R104). -/
structure Bus where
  mem : Memory
  answers : List BusAnswer
  log : List BusEvent
  deriving DecidableEq, Repr

/-- The machine (10_state.md R30 to R52). -/
@[ext]
structure State where
  regs : Bank Word 5
  hi : Word
  lo : Word
  pipe : Pipeline
  delay : LoadDelay
  cop0 : Cop0
  cacheControl : Word
  icache : ICache
  scratchpad : Bank Byte 10
  timing : Timing
  flags : StepFlags
  gte : Bank Word 6
  refused : Option Refusal
  bus : Bus
  draws : Nat
  deriving DecidableEq, Repr

/-- The machine right after reset (70_reset_and_hazards.md R530, R531), with nothing in bus memory and every call so far,
the reset prefetch, answered as RAM. Where the spec gives a draw the value is 0 (log entries 1 to 4, 12). -/
def State.reset : State where
  regs := Vector.replicate (2 ^ 5) 0#32
  hi := 0#32
  lo := 0#32
  pipe :=
    { pc := Config.resetVector
      npc := Config.resetVector + 4#32
      currentInstruction := .word 0#32
      currentInstructionPc := Config.resetVector
      currentInBranchDelaySlot := false
      currentBranchWasTaken := false
      nextInstruction := .word 0#32
      nextInstructionIsBranchDelaySlot := false
      branchWasTaken := false }
  delay := { reg := none, value := 0#32, nextReg := none, nextValue := 0#32 }
  cop0 :=
    { bpc := 0#32, bda := 0#32, tar := 0#32, dcic := 0#32, badVaddr := 0#32, bdam := 0#32, bpcm := 0#32
      sr := Config.srReset, cause := 0#32, epc := 0#32 }
  cacheControl := 0#32
  icache := { tags := Vector.replicate (2 ^ 8) Config.invalidTag, data := Vector.replicate (2 ^ 10) 0#32 }
  scratchpad := Vector.replicate (2 ^ 10) 0#8
  timing := { pendingTicks := Config.tFetchUncached 0x1FC00000#32 + Config.tFlush, downcount := 0, gteCompletionTick := 0 }
  flags := { exceptionRaised := false, busError := false }
  gte := Vector.replicate (2 ^ 6) 0#32
  refused := none
  bus := { mem := [], answers := [], log := [.read .fetch 0x1FC00000#32 .word (some 0#32)] }
  draws := 0

end Sys2Proof.Machine
end

