-- ==== Sys2Proof/Machine/Storage.lean ====
section
/-! DEFINITION. Bytes: little-endian values (20_memory.md R110), bus memory as a list of cells in one canonical form, and
the scratchpad's bytes. -/

namespace Sys2Proof.Machine

/-! ### Byte order (R110) -/

/-- Byte `i` of a word: bits `[8i+7 : 8i]`. -/
def byteOf (v : Word) (i : Nat) : Byte := v.extractLsb' (8 * i) 8

/-- The little-endian value of the `n` bytes `get a`, `get (a+1)`, ..., the lowest address in the low byte. -/
def littleEndian (get : Nat → Byte) (a : Nat) : Nat → Word
  | 0 => 0#32
  | n + 1 => (get a).setWidth 32 ||| (littleEndian get (a + 1) n <<< 8)

/-- The low `8n` bits of a value: `trunc_{8n}` (R131). -/
def truncTo (n : Width) (v : Word) : Word :=
  match n with
  | .byte => (v.setWidth 8).setWidth 32
  | .half => (v.setWidth 16).setWidth 32
  | .word => v

/-- The byte enables of a whole access of width `n`. -/
def fullMask (n : Width) : BitVec 4 :=
  match n with
  | .byte => 0b0001#4
  | .half => 0b0011#4
  | .word => 0b1111#4

/-! ### Bus memory -/

/-- One byte of memory; an address that is not listed reads `Config.unlistedByte`. -/
def readByte : Memory → Nat → Byte
  | [], _ => Config.unlistedByte
  | (k, b) :: rest, a => if k = a then b else readByte rest a

/-- Writes one byte and keeps the canonical form: rising addresses, no entry equal to `Config.unlistedByte`. -/
def writeByte : Memory → Nat → Byte → Memory
  | [], a, b => if b = Config.unlistedByte then [] else [(a, b)]
  | (k, c) :: rest, a, b =>
    if a < k then (if b = Config.unlistedByte then (k, c) :: rest else (a, b) :: (k, c) :: rest)
    else if a = k then (if b = Config.unlistedByte then rest else (a, b) :: rest)
    else (k, c) :: writeByte rest a b

/-- The canonical form from address `lo` on: addresses rise strictly, stay in the 29-bit physical space (20_memory.md
R100), and no entry equals what an unlisted address reads as. -/
def Memory.wfFrom : Nat → Memory → Bool
  | _, [] => true
  | lo, (k, b) :: rest => decide (lo ≤ k) && decide (k < 2 ^ 29) && decide (b ≠ Config.unlistedByte) && Memory.wfFrom (k + 1) rest

/-- The canonical form of bus memory. -/
def Memory.wf (m : Memory) : Bool := Memory.wfFrom 0 m

/-- The value of the `n` bytes at `p`. -/
def readBytes (m : Memory) (p : Nat) (n : Width) : Word := littleEndian (readByte m) p n.bytes

/-- Writes byte `i` of `v` at `p + i` if bit `i` of the mask is set. -/
def writeByteIf (mask4 : BitVec 4) (v : Word) (p : Nat) (i : Nat) (m : Memory) : Memory :=
  if mask4.getLsbD i then writeByte m (p + i) (byteOf v i) else m

/-- Writes the enabled bytes of the word `v` at `p` (20_memory.md R104, R132). -/
def writeMaskedBytes (m : Memory) (p : Nat) (mask4 : BitVec 4) (v : Word) : Memory :=
  writeByteIf mask4 v p 3 (writeByteIf mask4 v p 2 (writeByteIf mask4 v p 1 (writeByteIf mask4 v p 0 m)))

/-! ### The scratchpad (20_memory.md R121, R122) -/

/-- The value of the `n` scratchpad bytes from offset `off`. -/
def readScratch (sp : Bank Byte 10) (off : BitVec 10) (n : Width) : Word :=
  littleEndian (fun a => sp.read (BitVec.ofNat 10 a)) off.toNat n.bytes

/-- Writes byte `i` of `v` at `off + i` if bit `i` of the mask is set. -/
def writeScratchIf (mask4 : BitVec 4) (v : Word) (off : BitVec 10) (i : Nat) (sp : Bank Byte 10) : Bank Byte 10 :=
  if mask4.getLsbD i then sp.write (off + BitVec.ofNat 10 i) (byteOf v i) else sp

/-- Writes the enabled bytes of `v` from offset `off`. -/
def writeScratch (sp : Bank Byte 10) (off : BitVec 10) (mask4 : BitVec 4) (v : Word) : Bank Byte 10 :=
  writeScratchIf mask4 v off 3 (writeScratchIf mask4 v off 2 (writeScratchIf mask4 v off 1 (writeScratchIf mask4 v off 0 sp)))

end Sys2Proof.Machine
end

