-- ==== Sys2Proof/Machine/Bus.lean ====
section
/-! DEFINITION. Sequencing of effects, the fields of SR and of the cache-control register, ticks and draws, and the bus
calls of 20_memory.md R104 and R105. -/

namespace Sys2Proof.Machine

/-! ### Outcomes and their sequencing (00_scope.md R14) -/

/-- The outcome of a whole instruction or step. -/
abbrev Res := Host.Outcome State Fault Refusal

/-- The outcome of a part of a step that yields a value. -/
abbrev Eff (α : Type) := Host.Outcome (α × State) Fault Refusal

/-- Goes on with `f` after a next state; a fault or a refusal ends the step. -/
def andThen {α β : Type} (m : Host.Outcome α Fault Refusal) (f : α → Host.Outcome β Fault Refusal) :
    Host.Outcome β Fault Refusal :=
  match m with
  | .next a => f a
  | .fault r => .fault r
  | .refused r => .refused r

/-! ### Fields of SR (10_state.md R41) -/

/-- SR.IEc, bit 0. -/
def interruptsEnabled (s : State) : Bool := s.cop0.sr.getLsbD 0
/-- SR.KUc, bit 1: user mode. -/
def userMode (s : State) : Bool := s.cop0.sr.getLsbD 1
/-- SR.Isc, bit 16: isolated cache. -/
def isolated (s : State) : Bool := s.cop0.sr.getLsbD 16
/-- SR.Swc, bit 17: swapped caches. -/
def swapped (s : State) : Bool := s.cop0.sr.getLsbD 17
/-- SR.BEV, bit 22: boot exception vectors. -/
def bootVectors (s : State) : Bool := s.cop0.sr.getLsbD 22
/-- SR.CU[z], bit 28 + z. -/
def copEnabled (z : BitVec 2) (s : State) : Bool := s.cop0.sr.getLsbD (28 + z.toNat)

/-! ### Fields of the cache-control register (10_state.md R46) -/

/-- `scratchpad_enable`, bit 3. -/
def scratchpadEnable (c : Word) : Bool := c.getLsbD 3
/-- `dcache_enable`, bit 7. -/
def dcacheEnable (c : Word) : Bool := c.getLsbD 7
/-- `icache_enable`, bit 11. -/
def icacheEnable (c : Word) : Bool := c.getLsbD 11
/-- The scratchpad is active (20_memory.md R120). -/
def scratchpadActive (s : State) : Bool := scratchpadEnable s.cacheControl && dcacheEnable s.cacheControl
/-- The data cache is used as a true cache (20_memory.md R126). -/
def trueCacheMode (s : State) : Bool := dcacheEnable s.cacheControl && !scratchpadEnable s.cacheControl

/-! ### Ticks and draws -/

/-- Adds `n` to `pending_ticks` (70_reset_and_hazards.md R540). -/
def charge (n : Nat) (s : State) : State :=
  { s with timing := { s.timing with pendingTicks := s.timing.pendingTicks + n } }

/-- The next draw (00_scope.md R15). -/
def drawn (s : State) : Word := Config.freeWord s.draws

/-- One draw is used up. -/
def countDraw (s : State) : State := { s with draws := s.draws + 1 }

/-! ### The bus (R104, R105) -/

/-- How the oracle answers the next call; past the end of the answers, as RAM (log entry 5). -/
def nextAnswer (s : State) : BusAnswer := s.bus.answers.headD .ram

/-- The state after the call: its answer is used up, the memory is `mem`, the event is recorded. -/
def recordCall (mem : Memory) (e : BusEvent) (s : State) : State :=
  { s with bus := { mem := mem, answers := s.bus.answers.tail, log := e :: s.bus.log } }

/-- Sets `bus_error` (60_exceptions.md R402). -/
def setBusError (s : State) : State := { s with flags := { s.flags with busError := true } }

/-- `BusRead(p, n, kind)`: the value, or `none` for `BusError`. -/
def busRead (kind : ReadKind) (p : Word) (n : Width) (s : State) : Eff (Option Word) :=
  match nextAnswer s with
  | .ram =>
    let v := readBytes s.bus.mem p.toNat n
    .next (some v, recordCall s.bus.mem (.read kind p n (some v)) s)
  | .device v => .next (some (truncTo n v), recordCall s.bus.mem (.read kind p n (some (truncTo n v))) s)
  | .error => .next (none, setBusError (recordCall s.bus.mem (.read kind p n none) s))
  | .silent => .fault .busSilent

/-- `BusWrite(p, n, v)`: whether it went well. -/
def busWrite (p : Word) (n : Width) (v : Word) (s : State) : Eff Bool :=
  match nextAnswer s with
  | .ram => .next (true, recordCall (writeMaskedBytes s.bus.mem p.toNat (fullMask n) v) (.write p n v true) s)
  | .device _ => .next (true, recordCall s.bus.mem (.write p n v true) s)
  | .error => .next (false, setBusError (recordCall s.bus.mem (.write p n v false) s))
  | .silent => .fault .busSilent

/-- `BusWriteMasked(p, mask4, v)`: whether it went well. -/
def busWriteMasked (p : Word) (mask4 : BitVec 4) (v : Word) (s : State) : Eff Bool :=
  match nextAnswer s with
  | .ram => .next (true, recordCall (writeMaskedBytes s.bus.mem p.toNat mask4 v) (.writeMasked p mask4 v true) s)
  | .device _ => .next (true, recordCall s.bus.mem (.writeMasked p mask4 v true) s)
  | .error => .next (false, setBusError (recordCall s.bus.mem (.writeMasked p mask4 v false) s))
  | .silent => .fault .busSilent

end Sys2Proof.Machine
end

