-- ==== Sys2Proof/Machine/Fetch.lean ====
section
/-! DEFINITION. The segment map (20_memory.md R101), instruction fetch and the instruction cache (R150 to R155). -/

namespace Sys2Proof.Machine

/-- The segments of the virtual address space (R101). -/
inductive Segment where
  | kusegLow
  | kusegHigh
  | kseg0
  | kseg1
  | kseg2
  deriving DecidableEq, Repr

/-- The segment of an address, by bits 31:29 (R101). -/
def segmentOf (vaddr : Word) : Segment :=
  match vaddr.extractLsb' 29 3 with
  | 0#3 => .kusegLow
  | 4#3 => .kseg0
  | 5#3 => .kseg1
  | 6#3 => .kseg2
  | 7#3 => .kseg2
  | _ => .kusegHigh

/-- `paddr(vaddr) = vaddr & 0x1FFFFFFF` (R101). -/
def physical (vaddr : Word) : Word := vaddr &&& Config.physicalMask

/-- The user-mode check fails (R103). -/
def modeForbids (vaddr : Word) (s : State) : Bool := userMode s && vaddr.getLsbD 31

/-! ### The instruction cache -/

/-- The line of an address: `vaddr[11:4]` (R153). -/
def cacheLine (vaddr : Word) : BitVec 8 := vaddr.extractLsb' 4 8
/-- The word of an address in its line: `vaddr[3:2]` (R153). -/
def cacheWord (vaddr : Word) : BitVec 2 := vaddr.extractLsb' 2 2
/-- The tag address `p & 0xFFFFFFF0` (R153). -/
def tagAddress (p : Word) : Word := p &&& 0xFFFFFFF0#32
/-- The index `4l + w` of word `w` of line `l` (10_state.md R47). -/
def cacheIndex (l : BitVec 8) (w : BitVec 2) : BitVec 10 := l ++ w

/-- The line's tag matches and the word's invalid bit is 0 (R154). -/
def cacheHit (vaddr p : Word) (s : State) : Bool :=
  let tag := s.icache.tags.read (cacheLine vaddr)
  tagAddress tag == tagAddress p && !tag.getLsbD (cacheWord vaddr).toNat

/-- Sets one tag. -/
def setTag (l : BitVec 8) (tag : Word) (s : State) : State :=
  { s with icache := { s.icache with tags := s.icache.tags.write l tag } }

/-- Sets one data word of the cache. -/
def setCacheWord (l : BitVec 8) (w : BitVec 2) (v : Word) (s : State) : State :=
  { s with icache := { s.icache with data := s.icache.data.write (cacheIndex l w) v } }

/-- Every tag becomes 0x0000000F: `ClearICache()` (R142). -/
def clearICache (s : State) : State :=
  { s with icache := { s.icache with tags := Vector.replicate (2 ^ 8) Config.invalidTag } }

/-- The words a fill from word `w` reads: `w..3` (R155). -/
def fillWords (w : BitVec 2) : List (BitVec 2) :=
  match w with
  | 0#2 => [0#2, 1#2, 2#2, 3#2]
  | 1#2 => [1#2, 2#2, 3#2]
  | 2#2 => [2#2, 3#2]
  | _ => [3#2]

/-- `INVALID_BELOW(w)` (R155). -/
def invalidBelow (w : BitVec 2) : Word :=
  match w with
  | 0#2 => 0b0000#32
  | 1#2 => 0b0001#32
  | 2#2 => 0b0011#32
  | _ => 0b0111#32

/-- The bus reads of a fill, one for each listed word, in order (R155). -/
def fillReads (ta : Word) : List (BitVec 2) → State → Eff (List (BitVec 2 × Option Word))
  | [], s => .next ([], s)
  | k :: ks, s =>
    andThen (busRead .fetch (ta + 4#32 * k.setWidth 32) .word s) fun (r, s1) =>
      andThen (fillReads ta ks s1) fun (rs, s2) => .next ((k, r) :: rs, s2)

/-- Stores the words a fill has read. -/
def storeFill (l : BitVec 8) : List (BitVec 2 × Option Word) → State → State
  | [], s => s
  | (k, some v) :: rs, s => storeFill l rs (setCacheWord l k v s)
  | (_, none) :: rs, s => storeFill l rs s

/-- A fill (R155): on a bus error the whole line is invalid and the fetch faults. -/
def fillLine (vaddr p : Word) (s : State) : Eff Slot :=
  let l := cacheLine vaddr
  let w := cacheWord vaddr
  let ta := tagAddress p
  andThen (fillReads ta (fillWords w) s) fun (rs, s1) =>
    let s2 := charge (Config.tIcacheFill (fillWords w).length p) s1
    if rs.any (fun r => r.2.isNone) then .next (.fetchFault .ibe vaddr, setTag l (ta ||| Config.invalidTag) s2)
    else
      let s3 := setTag l (ta ||| invalidBelow w) (storeFill l rs s2)
      .next (.word (s3.icache.data.read (cacheIndex l w)), s3)

/-- `CachedFetch` (R153 to R155). -/
def cachedFetch (vaddr p : Word) (s : State) : Eff Slot :=
  if cacheHit vaddr p s then
    .next (.word (s.icache.data.read (cacheIndex (cacheLine vaddr) (cacheWord vaddr))), charge Config.tIcacheHit s)
  else fillLine vaddr p s

/-- An uncached fetch (R150). -/
def uncachedFetch (vaddr p : Word) (s : State) : Eff Slot :=
  andThen (busRead .fetch p .word s) fun (r, s1) =>
    let s2 := charge (Config.tFetchUncached p) s1
    match r with
    | some v => .next (.word v, s2)
    | none => .next (.fetchFault .ibe vaddr, s2)

/-- `Fetch(vaddr)` (R150): a word or a marker; never an exception. -/
def fetch (vaddr : Word) (s : State) : Eff Slot :=
  if vaddr.extractLsb' 0 2 ≠ 0#2 then .next (.fetchFault .adel vaddr, s)
  else if modeForbids vaddr s then .next (.fetchFault .adel vaddr, s)
  else
    match segmentOf vaddr with
    | .kusegHigh => .next (.fetchFault .ibe vaddr, s)
    | .kseg2 => .next (.fetchFault .ibe vaddr, s)
    | .kseg1 => uncachedFetch vaddr (physical vaddr) s
    | .kusegLow =>
      if icacheEnable s.cacheControl then cachedFetch vaddr (physical vaddr) s else uncachedFetch vaddr (physical vaddr) s
    | .kseg0 =>
      if icacheEnable s.cacheControl then cachedFetch vaddr (physical vaddr) s else uncachedFetch vaddr (physical vaddr) s

/-- The classification of a fetch (R151). -/
inductive FetchClass where
  | hit
  | miss
  deriving DecidableEq, Repr

/-- A cached fetch that hits is a hit; a fill and every uncached fetch are misses; an address that makes no fetch has no
class (R151). -/
def fetchClass (vaddr : Word) (s : State) : Option FetchClass :=
  if vaddr.extractLsb' 0 2 ≠ 0#2 then none
  else if modeForbids vaddr s then none
  else
    match segmentOf vaddr with
    | .kusegHigh => none
    | .kseg2 => none
    | .kseg1 => some .miss
    | .kusegLow => if icacheEnable s.cacheControl && cacheHit vaddr (physical vaddr) s then some .hit else some .miss
    | .kseg0 => if icacheEnable s.cacheControl && cacheHit vaddr (physical vaddr) s then some .hit else some .miss

end Sys2Proof.Machine
end

