-- ==== Sys2Proof/Machine/Ops.lean ====
section
/-! DEFINITION. The named operations of the core: registers and the load delay (70_reset_and_hazards.md R506 to R510),
branches (R520), exception entry and return (60_exceptions.md R420, 44_system.md R335), coprocessor usability (R330), data
accesses (20_memory.md R130 to R132), COP0 registers (44_system.md R336, R337) and the GTE interlock (R544). -/

namespace Sys2Proof.Machine

/-! ### General registers and the load delay -/

/-- `ReadReg(i)` (R506): never a pending or staged load. -/
def readReg (i : RegNum) (s : State) : Word := if i = 0#5 then 0#32 else s.regs.read i

/-- The register file with register `i` set; r0 discards writes (10_state.md R31). -/
def setReg (i : RegNum) (v : Word) (s : State) : State :=
  if i = 0#5 then s else { s with regs := s.regs.write i v }

/-- A pending load to `i` is discarded. -/
def cancelPending (i : RegNum) (s : State) : State :=
  if s.delay.reg = some i then { s with delay := { s.delay with reg := none } } else s

/-- `WriteReg(i, v)` (R507). -/
def writeReg (i : RegNum) (v : Word) (s : State) : State := cancelPending i (setReg i v s)

/-- `WriteRegDelayed(i, v)` (R508). -/
def writeRegDelayed (i : RegNum) (v : Word) (s : State) : State :=
  if i = 0#5 then s
  else
    let s1 := cancelPending i s
    { s1 with delay := { s1.delay with nextReg := some i, nextValue := v } }

/-- `ReadRegPending(i)` (R510). -/
def readRegPending (i : RegNum) (s : State) : Word :=
  if i ≠ 0#5 ∧ s.delay.reg = some i then s.delay.value else readReg i s

/-- The pending load reaches the register file. -/
def commitPending (s : State) : State :=
  match s.delay.reg with
  | some r => setReg r s.delay.value s
  | none => s

/-- `UpdateLoadDelay()` (R509). -/
def updateLoadDelay (s : State) : State :=
  let s1 := commitPending s
  { s1 with delay := { reg := s1.delay.nextReg, value := s1.delay.nextValue, nextReg := none, nextValue := s1.delay.nextValue } }

/-! ### HI and LO (10_state.md R33) -/

/-- Writes HI. -/
def setHi (v : Word) (s : State) : State := { s with hi := v }
/-- Writes LO. -/
def setLo (v : Word) (s : State) : State := { s with lo := v }

/-! ### Branches (R520, R521) -/

/-- `next_instruction_is_branch_delay_slot <- 1` (R521). -/
def markDelaySlot (s : State) : State :=
  { s with pipe := { s.pipe with nextInstructionIsBranchDelaySlot := true } }

/-- `Branch(target)` (R520). -/
def branchTo (target : Word) (s : State) : State :=
  { s with pipe := { s.pipe with npc := target, branchWasTaken := true } }

/-- The end of every branch and jump: mark the delay slot and, if the condition holds, branch (42_branch.md R270). -/
def branchIf (cond : Bool) (target : Word) (s : State) : State :=
  if cond then branchTo target (markDelaySlot s) else markDelaySlot s

/-! ### Exceptions (60_exceptions.md R401, R420 to R423) -/

/-- The exception codes that are raised (R401); the TLB codes never are. -/
inductive ExcCode where
  | int
  | adel
  | ades
  | ibe
  | dbe
  | sys
  | bp
  | ri
  | cpu
  | ov
  deriving DecidableEq, Repr

/-- CAUSE.ExcCode of an exception (R401). -/
def excCodeBits (c : ExcCode) : BitVec 5 :=
  match c with
  | .int => 0#5
  | .adel => 4#5
  | .ades => 5#5
  | .ibe => 6#5
  | .dbe => 7#5
  | .sys => 8#5
  | .bp => 9#5
  | .ri => 10#5
  | .cpu => 11#5
  | .ov => 12#5

/-- The bits exception entry writes into CAUSE: BD, BT, CE and ExcCode (R420, 10_state.md R43). -/
def causeEntryBits (code : ExcCode) (bd bt : Bool) (ce : BitVec 2) : Word :=
  BitVec.ofBool bd ++ BitVec.ofBool bt ++ ce ++ 0#21 ++ excCodeBits code ++ 0#2

/-- Pushes the mode stack of SR: kernel mode, interrupts off (R420). -/
def pushModeStack (sr : Word) : Word := (sr &&& ~~~0x3F#32) ||| (((sr &&& 0x3F#32) <<< 2) &&& 0x3F#32)

/-- Pops the mode stack of SR; KUo and IEo keep their value (44_system.md R335). -/
def popModeStack (sr : Word) : Word :=
  (sr &&& ~~~0x3F#32) ||| (sr &&& 0b110000#32) ||| (((sr &&& 0x3F#32) >>> 2) &&& 0b001111#32)

/-- The exception vector, by SR.BEV (R422). -/
def exceptionVector (s : State) : Word := if bootVectors s then Config.romVector else Config.ramVector

/-- What exception entry records: EPC, CAUSE, TAR, SR and `exception_raised` (R420, R423). -/
def recordException (code : ExcCode) (at_ : Word) (bd bt : Bool) (ce : BitVec 2) (dest : Word) (s : State) : State :=
  { s with
    cop0 :=
      { s.cop0 with
        epc := if bd then at_ - 4#32 else at_
        cause := (s.cop0.cause &&& ~~~Config.causeEntryMask) ||| causeEntryBits code bd bt ce
        tar := if bd then dest else s.cop0.tar
        sr := pushModeStack s.cop0.sr }
    flags := { s.flags with exceptionRaised := true } }

/-- The load pipeline and the branch flags are flushed (R420; 70_reset_and_hazards.md R514). -/
def flushHazards (s : State) : State :=
  let s1 := commitPending s
  { s1 with
    delay := { s1.delay with reg := none, nextReg := none }
    pipe := { s1.pipe with nextInstructionIsBranchDelaySlot := false, branchWasTaken := false } }

/-- The pipeline is refilled from `v`: the fetch, the program counters and `T_FLUSH` (R420; 70_reset_and_hazards.md R530). -/
def refill (v : Word) (s : State) : Res :=
  andThen (fetch v s) fun (slot, s1) =>
    .next (charge Config.tFlush
      { s1 with pipe := { s1.pipe with nextInstruction := slot, pc := v, npc := v + 4#32, currentInstructionPc := v } })

/-- `EnterException(code, at, bd, bt, ce, dest)` (R420): the one way into a handler. -/
def enterException (code : ExcCode) (at_ : Word) (bd bt : Bool) (ce : BitVec 2) (dest : Word) (s : State) : Res :=
  let s1 := recordException code at_ bd bt ce dest s
  refill (exceptionVector s1) (flushHazards s1)

/-- CAUSE.CE of a slot: bits 27:26 of its word, 0 for a fetch fault (R421). -/
def slotCopNumber (x : Slot) : BitVec 2 :=
  match x with
  | .word w => fieldCopNumber w
  | .fetchFault _ _ => 0#2

/-- An exception of the current instruction with the given CE (R420). -/
def raiseWithCe (code : ExcCode) (ce : BitVec 2) (s : State) : Res :=
  enterException code s.pipe.currentInstructionPc s.pipe.currentInBranchDelaySlot s.pipe.currentBranchWasTaken ce s.pipe.pc s

/-- `raise code` by the current instruction (00_scope.md R12, R420, R421). -/
def raiseException (code : ExcCode) (s : State) : Res := raiseWithCe code (slotCopNumber s.pipe.currentInstruction) s

/-- BadVaddr receives the faulting address (10_state.md R44). -/
def setBadVaddr (a : Word) (s : State) : State := { s with cop0 := { s.cop0 with badVaddr := a } }

/-- The return from an exception: RFE pops the mode stack (44_system.md R335). -/
def restoreFromException (s : State) : State := { s with cop0 := { s.cop0 with sr := popModeStack s.cop0.sr } }

/-! ### Coprocessor usability (44_system.md R330, 30_encoding.md R190) -/

/-- Coprocessor `z` is usable: COP0 in kernel mode or with CU0, another with its CU bit. -/
def copUsable (z : BitVec 2) (s : State) : Bool :=
  if z = 0#2 then !userMode s || copEnabled 0#2 s else copEnabled z s

/-- Goes on if coprocessor `z` is usable, else raises CpU with CE = `z` (R330). -/
def withCop (z : BitVec 2) (s : State) (k : State → Res) : Res :=
  if copUsable z s then k s else raiseWithCe .cpu z s

/-! ### Data accesses (20_memory.md R130 to R132, R160, R161) -/

/-- Where a data access goes, or why it goes nowhere. -/
inductive DataTarget where
  /-- Misaligned, or forbidden by the mode: AdEL or AdES (R112, R103). -/
  | addressError
  /-- Segment 1-3, or KSEG2 but for the cache-control register: DBE (R102). -/
  | unmapped
  /-- The cache-control register (R140). -/
  | cacheControl
  /-- Part of the cache-control register: refused (R140). -/
  | cacheControlPart
  /-- Isc = Swc = 1: refused (R162). -/
  | swappedIsolation
  /-- Isc = 1: the instruction cache (R160, R161). -/
  | isolatedCache
  /-- The scratchpad at this offset (R121, R122). -/
  | scratchpad (off : BitVec 10)
  /-- The bus at this physical address. -/
  | bus (p : Word)
  deriving DecidableEq, Repr

/-- The address is not aligned for the width (R112). -/
def misaligned (vaddr : Word) (n : Width) : Bool :=
  match n with
  | .byte => false
  | .half => vaddr.extractLsb' 0 1 != 0#1
  | .word => vaddr.extractLsb' 0 2 != 0#2

/-- The physical address lies in the scratchpad (R120). -/
def inScratchpad (p : Word) : Bool := (p &&& 0xFFFFFC00#32) == Config.scratchpadBase

/-- Scratchpad or bus, for segments 0 and 4 (R120, R124). -/
def cachedSegmentTarget (vaddr : Word) (s : State) : DataTarget :=
  if scratchpadActive s && inScratchpad (physical vaddr) then .scratchpad (vaddr.extractLsb' 0 10) else .bus (physical vaddr)

/-- The isolation check comes before the target of segments 0, 4 and 5 (R130, R162). -/
def unlessIsolated (s : State) (t : DataTarget) : DataTarget :=
  if isolated s then (if swapped s then .swappedIsolation else .isolatedCache) else t

/-- The target of an access, in the order of R130. -/
def dataTarget (vaddr : Word) (n : Width) (s : State) : DataTarget :=
  if misaligned vaddr n then .addressError
  else if modeForbids vaddr s then .addressError
  else
    match segmentOf vaddr with
    | .kseg2 =>
      if vaddr = Config.cacheControlAddress ∧ n = .word then .cacheControl
      else if vaddr.extractLsb' 2 30 = Config.cacheControlAddress.extractLsb' 2 30 then .cacheControlPart
      else .unmapped
    | .kusegHigh => .unmapped
    | .kusegLow => unlessIsolated s (cachedSegmentTarget vaddr s)
    | .kseg0 => unlessIsolated s (cachedSegmentTarget vaddr s)
    | .kseg1 => unlessIsolated s (.bus (physical vaddr))

/-- The cost of a bus access (43_loadstore.md R302). -/
def busCost (kind : AccessKind) (p : Word) (n : Width) (s : State) : Nat :=
  if trueCacheMode s then Config.tDcache kind p n.bytes else Config.tData kind p n.bytes

/-- What a memory primitive answers: it is done, or it raises an exception (00_scope.md R11). -/
inductive Reply (α : Type) where
  | done (a : α)
  | raised (code : ExcCode)
  deriving DecidableEq, Repr

/-- Goes on with `k` when the access is done; otherwise the current instruction raises the exception. -/
def onDone {α : Type} (m : Eff (Reply α)) (k : α → State → Res) : Res :=
  andThen m fun (r, s) =>
    match r with
    | .done a => k a s
    | .raised code => raiseException code s

/-- `MemRead(vaddr, n)` (R130), with the access cost (43_loadstore.md R302). -/
def memRead (vaddr : Word) (n : Width) (s : State) : Eff (Reply Word) :=
  match dataTarget vaddr n s with
  | .addressError => .next (.raised .adel, setBadVaddr vaddr s)
  | .unmapped => .next (.raised .dbe, s)
  | .cacheControl => .next (.done s.cacheControl, charge Config.tCacheCtl s)
  | .cacheControlPart => .refused .subwordCacheControl
  | .swappedIsolation => .refused .swappedIsolation
  | .isolatedCache => .next (.done (drawn s), charge Config.tIsolated (countDraw s))
  | .scratchpad off => .next (.done (readScratch s.scratchpad off n), charge Config.tScratchpad s)
  | .bus p =>
    andThen (busRead .data p n s) fun (r, s1) =>
      let s2 := charge (busCost .read p n s1) s1
      match r with
      | some v => .next (.done v, s2)
      | none => .next (.raised .dbe, s2)

/-- The form of a store: a whole access, or a masked word (R131, R132). -/
inductive StoreForm where
  | whole (n : Width)
  | masked (mask4 : BitVec 4)
  deriving DecidableEq, Repr

/-- The width a store form is checked and charged as. -/
def StoreForm.width (f : StoreForm) : Width :=
  match f with
  | .whole n => n
  | .masked _ => .word

/-- The byte enables of a store form. -/
def StoreForm.mask (f : StoreForm) : BitVec 4 :=
  match f with
  | .whole n => fullMask n
  | .masked mask4 => mask4

/-- The cost kind of a store form. -/
def StoreForm.kind (f : StoreForm) : AccessKind :=
  match f with
  | .whole _ => .write
  | .masked _ => .maskedWrite

/-- A store to the cache-control register (R141, R142): clearing `icache_enable` invalidates every line. -/
def writeCacheControl (v : Word) (s : State) : State :=
  let s1 := { s with cacheControl := v }
  if icacheEnable s.cacheControl && !icacheEnable v then clearICache s1 else s1

/-- An isolated store (R160): a full word writes `v`, a narrower store a draw; the line becomes invalid. -/
def isolatedStore (vaddr : Word) (mask4 : BitVec 4) (v : Word) (s : State) : State :=
  let l := cacheLine vaddr
  let tag := tagAddress (physical vaddr) ||| Config.invalidTag
  if mask4 = 0b1111#4 then setTag l tag (setCacheWord l (cacheWord vaddr) v s)
  else setTag l tag (setCacheWord l (cacheWord vaddr) (drawn s) (countDraw s))

/-- Writes scratchpad bytes (R122). -/
def storeScratch (off : BitVec 10) (mask4 : BitVec 4) (v : Word) (s : State) : State :=
  { s with scratchpad := writeScratch s.scratchpad off mask4 v }

/-- The bus call of a store form (R131, R132). -/
def busStore (f : StoreForm) (p : Word) (v : Word) (s : State) : Eff Bool :=
  match f with
  | .whole n => busWrite p n (truncTo n v) s
  | .masked mask4 => busWriteMasked p mask4 v s

/-- A store of either form (R131, R132), with the access cost (43_loadstore.md R302). -/
def memStore (f : StoreForm) (vaddr : Word) (v : Word) (s : State) : Eff (Reply Unit) :=
  match dataTarget vaddr f.width s with
  | .addressError => .next (.raised .ades, setBadVaddr vaddr s)
  | .unmapped => .next (.raised .dbe, s)
  | .cacheControl =>
    if f.mask = 0b1111#4 then .next (.done (), charge Config.tCacheCtl (writeCacheControl v s))
    else .refused .subwordCacheControl
  | .cacheControlPart => .refused .subwordCacheControl
  | .swappedIsolation => .refused .swappedIsolation
  | .isolatedCache => .next (.done (), charge Config.tIsolated (isolatedStore vaddr f.mask v s))
  | .scratchpad off => .next (.done (), charge Config.tScratchpad (storeScratch off f.mask v s))
  | .bus p =>
    andThen (busStore f p v s) fun (ok, s1) =>
      let s2 := charge (busCost f.kind p f.width s1) s1
      if ok then .next (.done (), s2) else .next (.raised .dbe, s2)

/-- `MemWrite(vaddr, n, v)` (R131). -/
def memWrite (vaddr : Word) (n : Width) (v : Word) (s : State) : Eff (Reply Unit) := memStore (.whole n) vaddr v s

/-- `MemWriteMasked(vaddr, mask4, v)` (R132). -/
def memWriteMasked (vaddr : Word) (mask4 : BitVec 4) (v : Word) (s : State) : Eff (Reply Unit) :=
  memStore (.masked mask4) vaddr v s

/-! ### COP0 registers (44_system.md R336, R337) -/

/-- What MFC0 finds under a register number. -/
inductive Cop0Read where
  | value (v : Word)
  /-- Registers 0, 1, 2, 4 and 10: a draw. -/
  | draw
  /-- Registers 16 to 31: RI. -/
  | reserved
  deriving DecidableEq, Repr

/-- `cop0[n]` (R336). -/
def readCop0 (n : RegNum) (s : State) : Cop0Read :=
  match n with
  | 3#5 => .value s.cop0.bpc
  | 5#5 => .value s.cop0.bda
  | 6#5 => .value s.cop0.tar
  | 7#5 => .value s.cop0.dcic
  | 8#5 => .value s.cop0.badVaddr
  | 9#5 => .value s.cop0.bdam
  | 11#5 => .value s.cop0.bpcm
  | 12#5 => .value s.cop0.sr
  | 13#5 => .value s.cop0.cause
  | 14#5 => .value s.cop0.epc
  | 15#5 => .value Config.prid
  | n => if n.getLsbD 4 then .reserved else .draw

/-- The bits under the mask replaced by those of `v`. -/
def maskedUpdate (old mask v : Word) : Word := (old &&& ~~~mask) ||| (v &&& mask)

/-- `cop0_write(n, v)` (R337): read-only and unimplemented registers ignore it. -/
def writeCop0 (n : RegNum) (v : Word) (s : State) : State :=
  match n with
  | 3#5 => { s with cop0 := { s.cop0 with bpc := v } }
  | 5#5 => { s with cop0 := { s.cop0 with bda := v } }
  | 9#5 => { s with cop0 := { s.cop0 with bdam := v } }
  | 11#5 => { s with cop0 := { s.cop0 with bpcm := v } }
  | 7#5 => { s with cop0 := { s.cop0 with dcic := maskedUpdate s.cop0.dcic Config.dcicMask v } }
  | 12#5 => { s with cop0 := { s.cop0 with sr := maskedUpdate s.cop0.sr Config.srMask v } }
  | 13#5 => { s with cop0 := { s.cop0 with cause := maskedUpdate s.cop0.cause Config.causeMask v } }
  | _ => s

/-! ### The GTE (44_system.md R350; 70_reset_and_hazards.md R543, R544) -/

/-- The GTE interlock: `pending_ticks <- max(pending_ticks, gte_completion_tick)` (R544). -/
def gteStall (s : State) : State :=
  { s with timing := { s.timing with pendingTicks := max s.timing.pendingTicks s.timing.gteCompletionTick } }

/-- Writes a GTE register. -/
def gteSet (n : GteReg) (v : Word) (s : State) : State := { s with gte := Config.gteWrite s.gte n v }

/-- A GTE command computes and sets the completion tick (44_system.md R356, R543). -/
def gteIssue (cmd : BitVec 25) (s : State) : State :=
  { s with
    gte := Config.gteExecute s.gte cmd
    timing := { s.timing with gteCompletionTick := s.timing.pendingTicks + Config.gteLatency cmd } }

end Sys2Proof.Machine
end

