-- ==== Sys2Proof/Machine/Operands.lean ====
section
/-! DEFINITION. The operand forms: immediates, effective addresses, branch and jump targets, shift amounts (30_encoding.md
R175) and the byte lanes of the unaligned loads and stores (43_loadstore.md R309, R310, R315, R316). -/

namespace Sys2Proof.Machine

/-- `sext_32(imm)` (R175). -/
def signExtImm (imm : BitVec 16) : Word := imm.signExtend 32

/-- `zext_32(imm)` (R175). -/
def zeroExtImm (imm : BitVec 16) : Word := imm.setWidth 32

/-- `imm << 16`, the operand of LUI (R175). -/
def upperImm (imm : BitVec 16) : Word := imm ++ 0#16

/-- The effective address `x[rs] + sext_32(imm)` (R175, 43_loadstore.md R300). -/
def effectiveAddress (base : RegNum) (offset : BitVec 16) (s : State) : Word := readReg base s + signExtImm offset

/-- The word-aligned address below `ea` (43_loadstore.md R309). -/
def alignedAddress (ea : Word) : Word := ea &&& 0xFFFFFFFC#32

/-- `ea & 3`, the byte of the word an unaligned access starts from. -/
def byteInWord (ea : Word) : Nat := (ea.extractLsb' 0 2).toNat

/-- The target of a relative branch: `pc + (sext_32(imm) << 2)`, `pc` the delay slot's address (42_branch.md R271). -/
def relativeTarget (imm : BitVec 16) (s : State) : Word := s.pipe.pc + (signExtImm imm <<< 2)

/-- The target of J and JAL: `(pc & 0xF0000000) | (instr_index << 2)` (42_branch.md R271). -/
def regionTarget (index : BitVec 26) (s : State) : Word := (s.pipe.pc &&& 0xF0000000#32) ||| (index.setWidth 32 <<< 2)

/-- The link value: `npc` (42_branch.md R271). -/
def linkValue (s : State) : Word := s.pipe.npc

/-- The amount of a variable shift: `x[rs][4:0]` (R175). -/
def variableAmount (rs : RegNum) (s : State) : Nat := ((readReg rs s).extractLsb' 0 5).toNat

/-- LWL: the word's low bytes shifted into the high end of `old` (43_loadstore.md R309). -/
def mergeLeft (k : Nat) (old w : Word) : Word := (old &&& (0x00FFFFFF#32 >>> (8 * k))) ||| (w <<< (24 - 8 * k))

/-- LWR: the word's high bytes shifted into the low end of `old` (43_loadstore.md R310). -/
def mergeRight (k : Nat) (old w : Word) : Word := (old &&& (0xFFFFFF00#32 <<< (24 - 8 * k))) ||| (w >>> (8 * k))

/-- SWL's byte mask: `(1 << (k + 1)) - 1` (43_loadstore.md R315). -/
def storeLeftMask (k : Nat) : BitVec 4 := BitVec.ofNat 4 (2 ^ (k + 1) - 1)

/-- SWL's word: `x[rt] >> (24 - 8k)` (43_loadstore.md R315). -/
def storeLeftWord (k : Nat) (v : Word) : Word := v >>> (24 - 8 * k)

/-- SWR's byte mask: `(0b1111 << k) & 0b1111` (43_loadstore.md R316). -/
def storeRightMask (k : Nat) : BitVec 4 := 0b1111#4 <<< k

/-- SWR's word: `trunc_32(x[rt] << 8k)` (43_loadstore.md R316). -/
def storeRightWord (k : Nat) (v : Word) : Word := v <<< (8 * k)

end Sys2Proof.Machine
end

