-- ==== Sys2Proof/Machine/Flags.lean ====
section
/-! DEFINITION. The core has no status flags (10_state.md R34). What other machines put in flags is here: the comparisons
that SLT and the branches make (40_alu.md R201, 42_branch.md R276 to R283) and the overflow that ADD, ADDI and SUB trap on
(40_alu.md R202). -/

namespace Sys2Proof.Machine

/-- `signed(a) < signed(b)` (R201). -/
def lessSigned (a b : Word) : Bool := decide (a.toInt < b.toInt)

/-- `unsigned(a) < unsigned(b)` (R201). -/
def lessUnsigned (a b : Word) : Bool := decide (a.toNat < b.toNat)

/-- The register value of a comparison: 1 or 0 (R210). -/
def boolWord (c : Bool) : Word := if c then 1#32 else 0#32

/-- `signed(a) < 0` (42_branch.md R280). -/
def isNegative (a : Word) : Bool := decide (a.toInt < 0)

/-- `signed(a) <= 0` (42_branch.md R278). -/
def isNotPositive (a : Word) : Bool := decide (a.toInt ≤ 0)

/-- The exact integer is no signed 32-bit value: `s < -2^31 or s > 2^31 - 1` (R202). -/
def overflows (sum : Int) : Bool := decide (sum < -2 ^ 31) || decide (2 ^ 31 - 1 < sum)

/-- Writes `trunc_32(sum)`, or raises Ov when the exact integer overflows (R202, R204, R212). -/
def writeOrTrap (rd : RegNum) (sum : Int) (s : State) : Res :=
  if overflows sum then raiseException .ov s else .next (writeReg rd (BitVec.ofInt 32 sum) s)

end Sys2Proof.Machine
end

