-- ==== Sys2Proof/Machine/Alu.lean ====
section
/-! DEFINITION. Integer arithmetic, logic and shifts (40_alu.md R200 to R226). -/

namespace Sys2Proof.Machine

/-! ### Register-register -/

/-- ADD rd, rs, rt (R202). -/
def execAdd (rd rs rt : RegNum) (s : State) : Res := writeOrTrap rd ((readReg rs s).toInt + (readReg rt s).toInt) s

/-- ADDU rd, rs, rt (R203). -/
def execAddu (rd rs rt : RegNum) (s : State) : Res := .next (writeReg rd (readReg rs s + readReg rt s) s)

/-- SUB rd, rs, rt (R204). -/
def execSub (rd rs rt : RegNum) (s : State) : Res := writeOrTrap rd ((readReg rs s).toInt - (readReg rt s).toInt) s

/-- SUBU rd, rs, rt (R205). -/
def execSubu (rd rs rt : RegNum) (s : State) : Res := .next (writeReg rd (readReg rs s - readReg rt s) s)

/-- AND rd, rs, rt (R206). -/
def execAnd (rd rs rt : RegNum) (s : State) : Res := .next (writeReg rd (readReg rs s &&& readReg rt s) s)

/-- OR rd, rs, rt (R207). -/
def execOr (rd rs rt : RegNum) (s : State) : Res := .next (writeReg rd (readReg rs s ||| readReg rt s) s)

/-- XOR rd, rs, rt (R208). -/
def execXor (rd rs rt : RegNum) (s : State) : Res := .next (writeReg rd (readReg rs s ^^^ readReg rt s) s)

/-- NOR rd, rs, rt (R209). -/
def execNor (rd rs rt : RegNum) (s : State) : Res := .next (writeReg rd (~~~(readReg rs s ||| readReg rt s)) s)

/-- SLT rd, rs, rt (R210). -/
def execSlt (rd rs rt : RegNum) (s : State) : Res :=
  .next (writeReg rd (boolWord (lessSigned (readReg rs s) (readReg rt s))) s)

/-- SLTU rd, rs, rt (R211). -/
def execSltu (rd rs rt : RegNum) (s : State) : Res :=
  .next (writeReg rd (boolWord (lessUnsigned (readReg rs s) (readReg rt s))) s)

/-! ### Immediate -/

/-- ADDI rt, rs, imm (R212). -/
def execAddi (rt rs : RegNum) (imm : BitVec 16) (s : State) : Res :=
  writeOrTrap rt ((readReg rs s).toInt + (signExtImm imm).toInt) s

/-- ADDIU rt, rs, imm (R213). -/
def execAddiu (rt rs : RegNum) (imm : BitVec 16) (s : State) : Res := .next (writeReg rt (readReg rs s + signExtImm imm) s)

/-- SLTI rt, rs, imm (R214). -/
def execSlti (rt rs : RegNum) (imm : BitVec 16) (s : State) : Res :=
  .next (writeReg rt (boolWord (lessSigned (readReg rs s) (signExtImm imm))) s)

/-- SLTIU rt, rs, imm (R215). -/
def execSltiu (rt rs : RegNum) (imm : BitVec 16) (s : State) : Res :=
  .next (writeReg rt (boolWord (lessUnsigned (readReg rs s) (signExtImm imm))) s)

/-- ANDI rt, rs, imm (R216). -/
def execAndi (rt rs : RegNum) (imm : BitVec 16) (s : State) : Res := .next (writeReg rt (readReg rs s &&& zeroExtImm imm) s)

/-- ORI rt, rs, imm (R217). -/
def execOri (rt rs : RegNum) (imm : BitVec 16) (s : State) : Res := .next (writeReg rt (readReg rs s ||| zeroExtImm imm) s)

/-- XORI rt, rs, imm (R218). -/
def execXori (rt rs : RegNum) (imm : BitVec 16) (s : State) : Res := .next (writeReg rt (readReg rs s ^^^ zeroExtImm imm) s)

/-- LUI rt, imm (R219). -/
def execLui (rt : RegNum) (imm : BitVec 16) (s : State) : Res := .next (writeReg rt (upperImm imm) s)

/-! ### Shifts -/

/-- SLL rd, rt, shamt (R220). -/
def execSll (rd rt : RegNum) (shamt : BitVec 5) (s : State) : Res := .next (writeReg rd (readReg rt s <<< shamt.toNat) s)

/-- SRL rd, rt, shamt (R221). -/
def execSrl (rd rt : RegNum) (shamt : BitVec 5) (s : State) : Res := .next (writeReg rd (readReg rt s >>> shamt.toNat) s)

/-- SRA rd, rt, shamt (R222). -/
def execSra (rd rt : RegNum) (shamt : BitVec 5) (s : State) : Res :=
  .next (writeReg rd ((readReg rt s).sshiftRight shamt.toNat) s)

/-- SLLV rd, rt, rs (R223). -/
def execSllv (rd rt rs : RegNum) (s : State) : Res := .next (writeReg rd (readReg rt s <<< variableAmount rs s) s)

/-- SRLV rd, rt, rs (R224). -/
def execSrlv (rd rt rs : RegNum) (s : State) : Res := .next (writeReg rd (readReg rt s >>> variableAmount rs s) s)

/-- SRAV rd, rt, rs (R225). -/
def execSrav (rd rt rs : RegNum) (s : State) : Res :=
  .next (writeReg rd ((readReg rt s).sshiftRight (variableAmount rs s)) s)

end Sys2Proof.Machine
end

