-- ==== Sys2Proof/Machine/Branch.lean ====
section
/-! DEFINITION. Branches and jumps (42_branch.md R270 to R289). The operands are read before the link is written, the delay
slot is marked whether or not the branch is taken. -/

namespace Sys2Proof.Machine

/-- J target (R272). -/
def execJ (target : BitVec 26) (s : State) : Res := .next (branchIf true (regionTarget target s) s)

/-- JAL target (R273). -/
def execJal (target : BitVec 26) (s : State) : Res :=
  .next (branchIf true (regionTarget target s) (writeReg 31#5 (linkValue s) s))

/-- JR rs (R274). -/
def execJr (rs : RegNum) (s : State) : Res := .next (branchIf true (readReg rs s) s)

/-- JALR rd, rs (R275). -/
def execJalr (rd rs : RegNum) (s : State) : Res :=
  .next (branchIf true (readReg rs s) (writeReg rd (linkValue s) s))

/-- BEQ rs, rt, offset (R276). -/
def execBeq (rs rt : RegNum) (imm : BitVec 16) (s : State) : Res :=
  .next (branchIf (decide (readReg rs s = readReg rt s)) (relativeTarget imm s) s)

/-- BNE rs, rt, offset (R277). -/
def execBne (rs rt : RegNum) (imm : BitVec 16) (s : State) : Res :=
  .next (branchIf (decide (readReg rs s ≠ readReg rt s)) (relativeTarget imm s) s)

/-- BLEZ rs, offset (R278). -/
def execBlez (rs : RegNum) (imm : BitVec 16) (s : State) : Res :=
  .next (branchIf (isNotPositive (readReg rs s)) (relativeTarget imm s) s)

/-- BGTZ rs, offset (R279). -/
def execBgtz (rs : RegNum) (imm : BitVec 16) (s : State) : Res :=
  .next (branchIf (!isNotPositive (readReg rs s)) (relativeTarget imm s) s)

/-- BLTZ rs, offset (R280). -/
def execBltz (rs : RegNum) (imm : BitVec 16) (s : State) : Res :=
  .next (branchIf (isNegative (readReg rs s)) (relativeTarget imm s) s)

/-- BGEZ rs, offset (R281). -/
def execBgez (rs : RegNum) (imm : BitVec 16) (s : State) : Res :=
  .next (branchIf (!isNegative (readReg rs s)) (relativeTarget imm s) s)

/-- BLTZAL rs, offset (R282). -/
def execBltzal (rs : RegNum) (imm : BitVec 16) (s : State) : Res :=
  .next (branchIf (isNegative (readReg rs s)) (relativeTarget imm s) (writeReg 31#5 (linkValue s) s))

/-- BGEZAL rs, offset (R283). -/
def execBgezal (rs : RegNum) (imm : BitVec 16) (s : State) : Res :=
  .next (branchIf (!isNegative (readReg rs s)) (relativeTarget imm s) (writeReg 31#5 (linkValue s) s))

end Sys2Proof.Machine
end

