-- ==== Sys2Proof/Machine/Cop2.lean ====
section
/-! DEFINITION. The COP2 (GTE) instructions (44_system.md R350 to R358). -/

namespace Sys2Proof.Machine

/-- A GTE register is read after the interlock and staged (R351, R352). -/
def moveFromGte (rt : RegNum) (gr : GteReg) (s : State) : Res :=
  withCop 2#2 s fun s => .next (writeRegDelayed rt (Config.gteRead (gteStall s).gte gr) (gteStall s))

/-- A general register is written to a GTE register at once, without a stall (R353, R354). -/
def moveToGte (rt : RegNum) (gr : GteReg) (s : State) : Res :=
  withCop 2#2 s fun s => .next (gteSet gr (readReg rt s) s)

/-- MFC2 rt, rd (R351). -/
def execMfc2 (rt : RegNum) (gr : GteReg) (s : State) : Res := moveFromGte rt gr s

/-- CFC2 rt, rd (R352). -/
def execCfc2 (rt : RegNum) (gr : GteReg) (s : State) : Res := moveFromGte rt gr s

/-- MTC2 rt, rd (R353). -/
def execMtc2 (rt : RegNum) (gr : GteReg) (s : State) : Res := moveToGte rt gr s

/-- CTC2 rt, rd (R354). -/
def execCtc2 (rt : RegNum) (gr : GteReg) (s : State) : Res := moveToGte rt gr s

/-- A GTE command (R356). -/
def execCop2 (cofun : BitVec 25) (s : State) : Res := withCop 2#2 s fun s => .next (gteIssue cofun (gteStall s))

/-- LWC2 rt, offset(rs) (R357). -/
def execLwc2 (gr : GteReg) (base : RegNum) (offset : BitVec 16) (s : State) : Res :=
  withCop 2#2 s fun s =>
    onDone (memRead (effectiveAddress base offset s) .word s) fun v s1 => .next (gteSet gr v s1)

/-- SWC2 rt, offset(rs) (R358): the stall happens even when the store then faults. -/
def execSwc2 (gr : GteReg) (base : RegNum) (offset : BitVec 16) (s : State) : Res :=
  withCop 2#2 s fun s =>
    onDone (memWrite (effectiveAddress base offset (gteStall s)) .word (Config.gteRead (gteStall s).gte gr) (gteStall s))
      fun _ s1 => .next s1

end Sys2Proof.Machine
end

