-- ==== Sys2Proof/Machine/LoadStore.lean ====
section
/-! DEFINITION. Loads and stores (43_loadstore.md R300 to R318). A load's result is staged by `writeRegDelayed`. -/

namespace Sys2Proof.Machine

/-- A load of width `n` whose result is `extend` of the value read (R300). -/
def loadInto (n : Width) (extend : Word → Word) (rt base : RegNum) (offset : BitVec 16) (s : State) : Res :=
  onDone (memRead (effectiveAddress base offset s) n s) fun v s1 => .next (writeRegDelayed rt (extend v) s1)

/-- A store of width `n` (R300). -/
def storeFrom (n : Width) (rt base : RegNum) (offset : BitVec 16) (s : State) : Res :=
  onDone (memWrite (effectiveAddress base offset s) n (readReg rt s) s) fun _ s1 => .next s1

/-- An unaligned load: the aligned word is merged into the pending or present value of `rt` (R309, R310). -/
def loadMerged (merge : Nat → Word → Word → Word) (rt base : RegNum) (offset : BitVec 16) (s : State) : Res :=
  onDone (memRead (alignedAddress (effectiveAddress base offset s)) .word s) fun w s1 =>
    .next (writeRegDelayed rt (merge (byteInWord (effectiveAddress base offset s)) (readRegPending rt s1) w) s1)

/-- An unaligned store: the enabled bytes of the shifted word (R315, R316). -/
def storeMasked (mask : Nat → BitVec 4) (shift : Nat → Word → Word) (rt base : RegNum) (offset : BitVec 16) (s : State) : Res :=
  onDone
    (memWriteMasked (alignedAddress (effectiveAddress base offset s)) (mask (byteInWord (effectiveAddress base offset s)))
      (shift (byteInWord (effectiveAddress base offset s)) (readReg rt s)) s)
    fun _ s1 => .next s1

/-- `sext_32(b[7:0])`. -/
def signExtByte (v : Word) : Word := (v.setWidth 8).signExtend 32
/-- `zext_32(b[7:0])`. -/
def zeroExtByte (v : Word) : Word := (v.setWidth 8).setWidth 32
/-- `sext_32(h[15:0])`. -/
def signExtHalf (v : Word) : Word := (v.setWidth 16).signExtend 32
/-- `zext_32(h[15:0])`. -/
def zeroExtHalf (v : Word) : Word := (v.setWidth 16).setWidth 32

/-- LB rt, offset(rs) (R304). -/
def execLb (rt base : RegNum) (offset : BitVec 16) (s : State) : Res := loadInto .byte signExtByte rt base offset s

/-- LBU rt, offset(rs) (R305). -/
def execLbu (rt base : RegNum) (offset : BitVec 16) (s : State) : Res := loadInto .byte zeroExtByte rt base offset s

/-- LH rt, offset(rs) (R306). -/
def execLh (rt base : RegNum) (offset : BitVec 16) (s : State) : Res := loadInto .half signExtHalf rt base offset s

/-- LHU rt, offset(rs) (R307). -/
def execLhu (rt base : RegNum) (offset : BitVec 16) (s : State) : Res := loadInto .half zeroExtHalf rt base offset s

/-- LW rt, offset(rs) (R308). -/
def execLw (rt base : RegNum) (offset : BitVec 16) (s : State) : Res := loadInto .word (fun w => w) rt base offset s

/-- LWL rt, offset(rs) (R309). -/
def execLwl (rt base : RegNum) (offset : BitVec 16) (s : State) : Res := loadMerged mergeLeft rt base offset s

/-- LWR rt, offset(rs) (R310). -/
def execLwr (rt base : RegNum) (offset : BitVec 16) (s : State) : Res := loadMerged mergeRight rt base offset s

/-- SB rt, offset(rs) (R312). -/
def execSb (rt base : RegNum) (offset : BitVec 16) (s : State) : Res := storeFrom .byte rt base offset s

/-- SH rt, offset(rs) (R313). -/
def execSh (rt base : RegNum) (offset : BitVec 16) (s : State) : Res := storeFrom .half rt base offset s

/-- SW rt, offset(rs) (R314). -/
def execSw (rt base : RegNum) (offset : BitVec 16) (s : State) : Res := storeFrom .word rt base offset s

/-- SWL rt, offset(rs) (R315). -/
def execSwl (rt base : RegNum) (offset : BitVec 16) (s : State) : Res := storeMasked storeLeftMask storeLeftWord rt base offset s

/-- SWR rt, offset(rs) (R316). -/
def execSwr (rt base : RegNum) (offset : BitVec 16) (s : State) : Res := storeMasked storeRightMask storeRightWord rt base offset s

end Sys2Proof.Machine
end

