-- ==== Sys2Proof/Machine/MulDiv.lean ====
section
/-! DEFINITION. Multiply, divide and the HI/LO moves (41_muldiv.md R250 to R260). -/

namespace Sys2Proof.Machine

/-- Writes a result to HI and LO and charges the unit's cost (R251). -/
def finishMulDiv (op : MulDivOp) (a b hi lo : Word) (s : State) : State :=
  charge (Config.tMulDiv op a b) (setHi hi (setLo lo s))

/-- A 64-bit product to HI and LO (R252, R253). -/
def finishProduct (op : MulDivOp) (a b : Word) (p : BitVec 64) (s : State) : State :=
  finishMulDiv op a b (p.extractLsb' 32 32) (p.extractLsb' 0 32) s

/-- LO of DIV (R254). -/
def signedQuotient (a b : Word) : Word :=
  if b.toInt = 0 then (if 0 ≤ a.toInt then 0xFFFFFFFF#32 else 0x00000001#32)
  else if a = 0x80000000#32 ∧ b = 0xFFFFFFFF#32 then 0x80000000#32
  else BitVec.ofInt 32 (a.toInt.tdiv b.toInt)

/-- HI of DIV (R254). -/
def signedRemainder (a b : Word) : Word :=
  if b.toInt = 0 then a
  else if a = 0x80000000#32 ∧ b = 0xFFFFFFFF#32 then 0x00000000#32
  else BitVec.ofInt 32 (a.toInt.tmod b.toInt)

/-- LO of DIVU (R255). -/
def unsignedQuotient (a b : Word) : Word := if b.toNat = 0 then 0xFFFFFFFF#32 else BitVec.ofNat 32 (a.toNat / b.toNat)

/-- HI of DIVU (R255). -/
def unsignedRemainder (a b : Word) : Word := if b.toNat = 0 then a else BitVec.ofNat 32 (a.toNat % b.toNat)

/-- MULT rs, rt (R252). -/
def execMult (rs rt : RegNum) (s : State) : Res :=
  .next (finishProduct .mult (readReg rs s) (readReg rt s) ((readReg rs s).signExtend 64 * (readReg rt s).signExtend 64) s)

/-- MULTU rs, rt (R253). -/
def execMultu (rs rt : RegNum) (s : State) : Res :=
  .next (finishProduct .multu (readReg rs s) (readReg rt s) ((readReg rs s).setWidth 64 * (readReg rt s).setWidth 64) s)

/-- DIV rs, rt (R254). -/
def execDiv (rs rt : RegNum) (s : State) : Res :=
  .next (finishMulDiv .div (readReg rs s) (readReg rt s) (signedRemainder (readReg rs s) (readReg rt s))
    (signedQuotient (readReg rs s) (readReg rt s)) s)

/-- DIVU rs, rt (R255). -/
def execDivu (rs rt : RegNum) (s : State) : Res :=
  .next (finishMulDiv .divu (readReg rs s) (readReg rt s) (unsignedRemainder (readReg rs s) (readReg rt s))
    (unsignedQuotient (readReg rs s) (readReg rt s)) s)

/-- MFHI rd (R256). -/
def execMfhi (rd : RegNum) (s : State) : Res := .next (writeReg rd s.hi s)

/-- MFLO rd (R257). -/
def execMflo (rd : RegNum) (s : State) : Res := .next (writeReg rd s.lo s)

/-- MTHI rs (R258). -/
def execMthi (rs : RegNum) (s : State) : Res := .next (setHi (readReg rs s) s)

/-- MTLO rs (R259). -/
def execMtlo (rs : RegNum) (s : State) : Res := .next (setLo (readReg rs s) s)

end Sys2Proof.Machine
end

