-- ==== Sys2Proof/Machine/System.lean ====
section
/-! DEFINITION. Traps, the COP0 instructions (44_system.md R331 to R340) and the words that are no instruction of the table
(30_encoding.md R184 to R187, R190; 44_system.md R355, R368). -/

namespace Sys2Proof.Machine

/-- SYSCALL (R331); `code` is not read by the core. -/
def execSyscall (_code : BitVec 20) (s : State) : Res := raiseException .sys s

/-- BREAK (R332); `code` is not read by the core. -/
def execBreak (_code : BitVec 20) (s : State) : Res := raiseException .bp s

/-- MFC0 rt, rd (R333). -/
def execMfc0 (rt rd : RegNum) (s : State) : Res :=
  withCop 0#2 s fun s =>
    match readCop0 rd s with
    | .value v => .next (writeRegDelayed rt v s)
    | .draw => .next (writeRegDelayed rt (drawn s) (countDraw s))
    | .reserved => raiseException .ri s

/-- MTC0 rt, rd (R334). -/
def execMtc0 (rt rd : RegNum) (s : State) : Res := withCop 0#2 s fun s => .next (writeCop0 rd (readReg rt s) s)

/-- RFE (R335). -/
def execRfe (s : State) : Res := withCop 0#2 s fun s => .next (restoreFromException s)

/-- What the core does with a word that is no instruction of the table (30_encoding.md R190). -/
def executeUnassigned (r : Reject) (s : State) : Res :=
  match r with
  | .shortInput => raiseException .ri s
  | .reservedPrimary => raiseException .ri s
  | .unassignedSpecial => raiseException .ri s
  | .unassignedCop0 => withCop 0#2 s fun s => raiseException .ri s
  | .unassignedCop2 => withCop 2#2 s fun _ => .refused .unassignedCop2
  | .absentCoprocessor z => withCop z s fun _ => .refused (.absentCoprocessor z)

end Sys2Proof.Machine
end

