-- ==== Sys2Proof/Machine/Pipeline.lean ====
section
/-! DEFINITION. The parts of a dispatch step around the execution of an instruction (70_reset_and_hazards.md R501):
interrupts (60_exceptions.md R414 to R416), the advance of the slots, and a fetch fault that becomes current (20_memory.md
R152). -/

namespace Sys2Proof.Machine

/-- A hardware breakpoint is armed: any of DCIC[31:23] is set (60_exceptions.md R447). -/
def breakpointsArmed (s : State) : Bool := s.cop0.dcic.extractLsb' 23 9 != 0#9

/-- `InterruptPending()` (60_exceptions.md R414). -/
def interruptPending (s : State) : Bool :=
  interruptsEnabled s && (s.cop0.cause.extractLsb' 8 8 &&& s.cop0.sr.extractLsb' 8 8) != 0#8

/-- The word is a GTE command: `w[31:26] = 0x12` and `w[25] = 1` (60_exceptions.md R416). -/
def isGteCommand (x : Slot) : Bool :=
  match x with
  | .word w => fieldOp w == 0x12#6 && w.getLsbD 25
  | .fetchFault _ _ => false

/-- `Deferred(w)` (60_exceptions.md R416). -/
def interruptDeferred (x : Slot) : Bool :=
  match Config.intDeferCop2 with
  | .gteCommand => isGteCommand x
  | .none => false

/-- `TakeInterrupt()` (60_exceptions.md R415): the interrupted instruction is the pre-fetched one. -/
def takeInterrupt (s : State) : Res :=
  enterException .int s.pipe.pc s.pipe.nextInstructionIsBranchDelaySlot s.pipe.branchWasTaken
    (slotCopNumber s.pipe.nextInstruction) s.pipe.npc s

/-- An interrupt is taken at the start of the step if one is pending and not deferred (70_reset_and_hazards.md R501). -/
def interruptPoint (s : State) : Res :=
  if interruptPending s && !interruptDeferred s.pipe.nextInstruction then takeInterrupt s else .next s

/-- The next slot becomes the current one and the per-step flags are cleared (70_reset_and_hazards.md R501). -/
def shiftSlots (s : State) : State :=
  { s with
    pipe :=
      { s.pipe with
        currentInstruction := s.pipe.nextInstruction
        currentInstructionPc := s.pipe.pc
        currentInBranchDelaySlot := s.pipe.nextInstructionIsBranchDelaySlot
        currentBranchWasTaken := s.pipe.branchWasTaken
        nextInstructionIsBranchDelaySlot := false
        branchWasTaken := false }
    flags := { exceptionRaised := false, busError := false } }

/-- The following word is fetched at `npc`, and the program counters move on (70_reset_and_hazards.md R501). -/
def prefetch (s : State) : Res :=
  andThen (fetch s.pipe.npc s) fun (slot, s1) =>
    .next { s1 with pipe := { s1.pipe with nextInstruction := slot, pc := s1.pipe.npc, npc := s1.pipe.npc + 4#32 } }

/-- From the start of a step to the point where the current instruction executes (70_reset_and_hazards.md R501). -/
def beginStep (s : State) : Res := andThen (interruptPoint s) fun s1 => prefetch (shiftSlots (charge Config.tBase s1))


/-- A fetch fault becomes current: AdEL writes BadVaddr, then the exception is raised (20_memory.md R152). -/
def raiseFetchFault (c : FetchFaultCode) (vaddr : Word) (s : State) : Res :=
  match c with
  | .ibe => raiseException .ibe s
  | .adel => raiseException .adel (setBadVaddr vaddr s)

/-- A step that has ended keeps its outcome but for the load-delay update, its last action (70_reset_and_hazards.md R509). -/
def endStep (r : Res) : Res := andThen r fun s => .next (updateLoadDelay s)

/-- Puts a word into the next-instruction slot. -/
def placeNextWord (w : Word) (s : State) : State := { s with pipe := { s.pipe with nextInstruction := .word w } }

end Sys2Proof.Machine
end

