-- ==== Sys2Proof/Machine/Step.lean ====
section
/-! DEFINITION. One dispatch step of the core (70_reset_and_hazards.md R501). -/

namespace Sys2Proof.Machine

/-- The current slot executes: a fetch fault is raised, a word is decoded and runs (R501; 30_encoding.md R190). -/
def executeCurrent (s : State) : Host.Outcome State Fault Refusal :=
  match s.pipe.currentInstruction with
  | .fetchFault c vaddr => raiseFetchFault c vaddr s
  | .word w =>
    match decodeWord w with
    | .ok i => exec i s
    | .error r => executeUnassigned r s

/-- `Step()` (R501). A refused machine has no further step: it answers its refusal again (10_state.md R52). -/
def step (s : State) : Host.Outcome State Fault Refusal :=
  match s.refused with
  | some r => .refused r
  | none =>
    if breakpointsArmed s then .refused .hardwareBreakpointsArmed
    else endStep (andThen (beginStep s) executeCurrent)

/-- The state with the table word `w` of `nbits` bits where the next step takes its instruction: the next-instruction slot,
which a fetch one step ahead has filled (10_state.md R37; log entry 13). -/
def State.withFetchWord (s : State) (nbits w : Nat) : State := placeNextWord (BitVec.ofNat 32 (w % 2 ^ nbits)) s

end Sys2Proof.Machine
end

