-- ==== Sys2Proof/Machine/Disasm.lean ====
section
/-! DEFINITION. The assembler syntax of an instruction, as the host's disassemble-and-print writes it (30_encoding.md R191). -/

namespace Sys2Proof.Machine

/-- A number in hexadecimal with `0x`. DESIGN CHOICE (log entry 21): R191 does not fix the radix of a number. -/
def hexText (n : Nat) : String := "0x" ++ String.ofList (Nat.toDigits 16 n)

/-- A 16-bit offset in signed decimal (log entry 21). -/
def offsetText (o : BitVec 16) : String := toString o.toInt

/-- `$n`, never `$name`: DESIGN CHOICE (log entry 21); R191 allows both. -/
def regText (r : RegNum) : String := "$" ++ toString r.toNat

/-- The `rd` or `rt` field that names a GTE register (R191, R176). -/
def gteText (g : GteReg) : String := "$" ++ toString (gteField g).toNat

/-- `op a, b, c`. -/
def text3 (op a b c : String) : String := op ++ " " ++ a ++ ", " ++ b ++ ", " ++ c

/-- `op a, b`. -/
def text2 (op a b : String) : String := op ++ " " ++ a ++ ", " ++ b

/-- `op rt, offset(rs)`. -/
def textMem (op a : String) (o : BitVec 16) (base : RegNum) : String :=
  op ++ " " ++ a ++ ", " ++ offsetText o ++ "(" ++ regText base ++ ")"

/-- A branch label as an absolute address: `imm = (label - (A + 4)) >> 2` for the branch at `addr` (R191). -/
def labelText (addr : Word) (imm : BitVec 16) : String := hexText (addr + 4#32 + (imm.signExtend 32 <<< 2)).toNat

/-- A jump target as an absolute address (R191). -/
def targetText (addr : Word) (t : BitVec 26) : String :=
  hexText (((addr + 4#32) &&& 0xF0000000#32) ||| (t.setWidth 32 <<< 2)).toNat

/-- The text of the instruction at `addr` (R191). DESIGN CHOICE (log entry 21): a shift amount is written in decimal, and the
optional code of SYSCALL and BREAK always, 0 too. -/
def instrText (addr : Word) : Instr → String
  | .sll rd rt sh => text3 "sll" (regText rd) (regText rt) (toString sh.toNat)
  | .srl rd rt sh => text3 "srl" (regText rd) (regText rt) (toString sh.toNat)
  | .sra rd rt sh => text3 "sra" (regText rd) (regText rt) (toString sh.toNat)
  | .sllv rd rt rs => text3 "sllv" (regText rd) (regText rt) (regText rs)
  | .srlv rd rt rs => text3 "srlv" (regText rd) (regText rt) (regText rs)
  | .srav rd rt rs => text3 "srav" (regText rd) (regText rt) (regText rs)
  | .jr rs => "jr " ++ regText rs
  | .jalr rd rs => text2 "jalr" (regText rd) (regText rs)
  | .syscall code => "syscall " ++ hexText code.toNat
  | .breakTrap code => "break " ++ hexText code.toNat
  | .mfhi rd => "mfhi " ++ regText rd
  | .mthi rs => "mthi " ++ regText rs
  | .mflo rd => "mflo " ++ regText rd
  | .mtlo rs => "mtlo " ++ regText rs
  | .mult rs rt => text2 "mult" (regText rs) (regText rt)
  | .multu rs rt => text2 "multu" (regText rs) (regText rt)
  | .div rs rt => text2 "div" (regText rs) (regText rt)
  | .divu rs rt => text2 "divu" (regText rs) (regText rt)
  | .add rd rs rt => text3 "add" (regText rd) (regText rs) (regText rt)
  | .addu rd rs rt => text3 "addu" (regText rd) (regText rs) (regText rt)
  | .sub rd rs rt => text3 "sub" (regText rd) (regText rs) (regText rt)
  | .subu rd rs rt => text3 "subu" (regText rd) (regText rs) (regText rt)
  | .and rd rs rt => text3 "and" (regText rd) (regText rs) (regText rt)
  | .or rd rs rt => text3 "or" (regText rd) (regText rs) (regText rt)
  | .xor rd rs rt => text3 "xor" (regText rd) (regText rs) (regText rt)
  | .nor rd rs rt => text3 "nor" (regText rd) (regText rs) (regText rt)
  | .slt rd rs rt => text3 "slt" (regText rd) (regText rs) (regText rt)
  | .sltu rd rs rt => text3 "sltu" (regText rd) (regText rs) (regText rt)
  | .bltz rs imm => text2 "bltz" (regText rs) (labelText addr imm)
  | .bgez rs imm => text2 "bgez" (regText rs) (labelText addr imm)
  | .bltzal rs imm => text2 "bltzal" (regText rs) (labelText addr imm)
  | .bgezal rs imm => text2 "bgezal" (regText rs) (labelText addr imm)
  | .j t => "j " ++ targetText addr t
  | .jal t => "jal " ++ targetText addr t
  | .beq rs rt imm => text3 "beq" (regText rs) (regText rt) (labelText addr imm)
  | .bne rs rt imm => text3 "bne" (regText rs) (regText rt) (labelText addr imm)
  | .blez rs imm => text2 "blez" (regText rs) (labelText addr imm)
  | .bgtz rs imm => text2 "bgtz" (regText rs) (labelText addr imm)
  | .addi rt rs imm => text3 "addi" (regText rt) (regText rs) (offsetText imm)
  | .addiu rt rs imm => text3 "addiu" (regText rt) (regText rs) (offsetText imm)
  | .slti rt rs imm => text3 "slti" (regText rt) (regText rs) (offsetText imm)
  | .sltiu rt rs imm => text3 "sltiu" (regText rt) (regText rs) (offsetText imm)
  | .andi rt rs imm => text3 "andi" (regText rt) (regText rs) (hexText imm.toNat)
  | .ori rt rs imm => text3 "ori" (regText rt) (regText rs) (hexText imm.toNat)
  | .xori rt rs imm => text3 "xori" (regText rt) (regText rs) (hexText imm.toNat)
  | .lui rt imm => text2 "lui" (regText rt) (hexText imm.toNat)
  | .mfc0 rt rd => text2 "mfc0" (regText rt) (regText rd)
  | .mtc0 rt rd => text2 "mtc0" (regText rt) (regText rd)
  | .rfe => "rfe"
  | .mfc2 rt g => text2 "mfc2" (regText rt) (gteText g)
  | .cfc2 rt g => text2 "cfc2" (regText rt) (gteText g)
  | .mtc2 rt g => text2 "mtc2" (regText rt) (gteText g)
  | .ctc2 rt g => text2 "ctc2" (regText rt) (gteText g)
  | .cop2 cofun => "cop2 " ++ hexText cofun.toNat
  | .lb rt b o => textMem "lb" (regText rt) o b
  | .lh rt b o => textMem "lh" (regText rt) o b
  | .lwl rt b o => textMem "lwl" (regText rt) o b
  | .lw rt b o => textMem "lw" (regText rt) o b
  | .lbu rt b o => textMem "lbu" (regText rt) o b
  | .lhu rt b o => textMem "lhu" (regText rt) o b
  | .lwr rt b o => textMem "lwr" (regText rt) o b
  | .sb rt b o => textMem "sb" (regText rt) o b
  | .sh rt b o => textMem "sh" (regText rt) o b
  | .swl rt b o => textMem "swl" (regText rt) o b
  | .sw rt b o => textMem "sw" (regText rt) o b
  | .swr rt b o => textMem "swr" (regText rt) o b
  | .lwc2 g b o => textMem "lwc2" (gteText g) o b
  | .swc2 g b o => textMem "swc2" (gteText g) o b

/-- The text of a word at `addr`; a word that is no instruction is written `.word` (log entry 21). -/
def wordText (addr w : Word) : String :=
  match decodeWord w with
  | .ok i => instrText addr i
  | .error _ => ".word " ++ hexText w.toNat

/-- The conventional register names of the debug register list (10_state.md R32). -/
def registerNames : List String :=
  ["zero", "at", "v0", "v1", "a0", "a1", "a2", "a3", "t0", "t1", "t2", "t3", "t4", "t5", "t6", "t7"] ++
  ["s0", "s1", "s2", "s3", "s4", "s5", "s6", "s7", "t8", "t9", "k0", "k1", "gp", "sp", "fp", "ra"]

end Sys2Proof.Machine
end

