-- ==== Sys2Proof/Machine/HostOps.lean ====
section
/-! DEFINITION. The host interface (60_exceptions.md R450 to R459; 70_reset_and_hazards.md R530, R541, R542): operations
made between steps. Host-side state is not architectural (10_state.md R53) and stands apart in `HostState`. -/

namespace Sys2Proof.Machine

/-! ### Reset (70_reset_and_hazards.md R530) -/

/-- Every field at its reset value before the reset prefetch; the bus, the GTE (44_system.md R350), the draws and the
host's `downcount` are not the core's to reset. -/
def resetFields (s : State) : State :=
  { State.reset with
    bus := s.bus
    gte := s.gte
    draws := s.draws
    timing := { pendingTicks := 0, downcount := s.timing.downcount, gteCompletionTick := 0 } }

/-- `Reset()`: the fields, then the prefetch at the reset vector (R530). -/
def machineReset (s : State) : Res := refill Config.resetVector (resetFields s)

/-! ### Interrupt lines (60_exceptions.md R412) -/

/-- CAUSE bit `8 + b`. -/
def lineBit (b : Nat) : Word := 1#32 <<< (8 + b)

/-- Replaces CAUSE. -/
def setCause (c : Word) (s : State) : State := { s with cop0 := { s.cop0 with cause := c } }

/-- `SetExternalInterrupt(b)`: `b` outside 0..7 is a host error and changes nothing. -/
def setExternalInterrupt (b : Nat) (s : State) : State := if b < 8 then setCause (s.cop0.cause ||| lineBit b) s else s

/-- `ClearExternalInterrupt(b)`: `b` outside 0..7 is a host error and changes nothing. -/
def clearExternalInterrupt (b : Nat) (s : State) : State := if b < 8 then setCause (s.cop0.cause &&& ~~~lineBit b) s else s

/-! ### Timing counters (70_reset_and_hazards.md R541) -/

/-- `ResetPendingTicks()`. -/
def resetPendingTicks (s : State) : State :=
  { s with
    timing :=
      { pendingTicks := 0
        downcount := s.timing.downcount - s.timing.pendingTicks
        gteCompletionTick := s.timing.gteCompletionTick - s.timing.pendingTicks } }

/-- The host sets `downcount`. -/
def setDowncount (d : Int) (s : State) : State := { s with timing := { s.timing with downcount := d } }

/-! ### A refused machine (10_state.md R52) -/

/-- The state after a step, with a refusal recorded; a stuck step leaves the state as it is. DESIGN CHOICE (log entry 15):
what the other fields of a refused state hold is open (00_scope.md R14, 10_state.md R52); here they are those from before the
step, without the interrupt entry, ticks, bus calls and slot advance the refused step may have begun. -/
def stepAndRecord (s : State) : State :=
  match step s with
  | .next t => t
  | .fault _ => s
  | .refused r => { s with refused := some r }

/-! ### Capture and restore (60_exceptions.md R456, 10_state.md R54) -/

/-- The captured fields, in the order of 10_state.md R30 to R51. -/
structure Snapshot where
  regs : Bank Word 5
  hi : Word
  lo : Word
  pipe : Pipeline
  delay : LoadDelay
  cop0 : Cop0
  cacheControl : Word
  icache : ICache
  scratchpad : Bank Byte 10
  timing : Timing
  flags : StepFlags
  gte : Bank Word 6
  deriving DecidableEq, Repr

/-- State capture (R456). -/
def capture (s : State) : Snapshot :=
  { regs := s.regs, hi := s.hi, lo := s.lo, pipe := s.pipe, delay := s.delay, cop0 := s.cop0, cacheControl := s.cacheControl
    icache := s.icache, scratchpad := s.scratchpad, timing := s.timing, flags := s.flags, gte := s.gte }

/-- State restore of a checked container: caches and tags as captured, nothing invalidated (R456, 90_conflicts.md C8). -/
def restore (c : Snapshot) (s : State) : State :=
  { s with
    regs := c.regs, hi := c.hi, lo := c.lo, pipe := c.pipe, delay := c.delay, cop0 := c.cop0, cacheControl := c.cacheControl
    icache := c.icache, scratchpad := c.scratchpad, timing := c.timing, flags := c.flags, gte := c.gte }

/-- A state container: its version and what it holds, or nothing where the shape is wrong (log entry 22). -/
structure Container where
  version : Nat
  content : Option Snapshot
  deriving DecidableEq, Repr

/-- A restore that checks version and shape: success and the new state, or failure and the state unmodified (R456). -/
def restoreContainer (version : Nat) (c : Container) (s : State) : Bool × State :=
  match c.content with
  | some snap => if c.version = version then (true, restore snap s) else (false, s)
  | none => (false, s)

/-! ### Host-side state (10_state.md R53) -/

/-- A host breakpoint; a callback is present as the list of its answers to come, `true` past the end (R451, log entry 19). -/
structure Breakpoint where
  address : Word
  callback : Option (List Bool)
  sequence : Nat
  hitCount : Nat
  autoClear : Bool
  enabled : Bool
  deriving DecidableEq, Repr

/-- One record of the execution log (R454): the retired address, the slot, and its disassembly. -/
structure TraceRecord where
  address : Word
  slot : Slot
  text : String
  deriving DecidableEq, Repr

/-- The host's side of the machine context. -/
structure HostState where
  machine : State
  breakpoints : List Breakpoint
  nextSequence : Nat
  resumeSkip : Option Word
  exitRequested : Bool
  tracing : Bool
  trace : List TraceRecord
  safeAnswers : List BusAnswer
  deriving DecidableEq, Repr

/-! ### Safe accessors (60_exceptions.md R455; log entry 20) -/

/-- Where a safe access goes; `none` where it fails. SR.KUc and SR.Isc are ignored. -/
def safeTarget (vaddr : Word) (n : Width) (s : State) : Option DataTarget :=
  if misaligned vaddr n then none
  else
    match segmentOf vaddr with
    | .kusegHigh => none
    | .kseg2 => none
    | .kusegLow => some (cachedSegmentTarget vaddr s)
    | .kseg0 => some (cachedSegmentTarget vaddr s)
    | .kseg1 => some (.bus (physical vaddr))

/-- The next answer of the safe bus interface is used up. -/
def useSafeAnswer (h : HostState) : HostState := { h with safeAnswers := h.safeAnswers.tail }

/-- `SafeRead(vaddr, n)`: the value, or `none` for failure. The machine is not changed. -/
def safeRead (vaddr : Word) (n : Width) (h : HostState) : Option Word × HostState :=
  match safeTarget vaddr n h.machine with
  | some (.scratchpad off) => (some (readScratch h.machine.scratchpad off n), h)
  | some (.bus p) =>
    match h.safeAnswers.headD .ram with
    | .ram => (some (readBytes h.machine.bus.mem p.toNat n), useSafeAnswer h)
    | .device v => (some (truncTo n v), useSafeAnswer h)
    | .error => (none, useSafeAnswer h)
    | .silent => (none, useSafeAnswer h)
  | _ => (none, h)

/-- The machine with its bus memory replaced. -/
def withBusMemory (m : Memory) (s : State) : State := { s with bus := { s.bus with mem := m } }

/-- `SafeWrite(vaddr, n, v)`: success, and the new host state. -/
def safeWrite (vaddr : Word) (n : Width) (v : Word) (h : HostState) : Bool × HostState :=
  match safeTarget vaddr n h.machine with
  | some (.scratchpad off) => (true, { h with machine := storeScratch off (fullMask n) v h.machine })
  | some (.bus p) =>
    match h.safeAnswers.headD .ram with
    | .ram =>
      (true, useSafeAnswer
        { h with machine := withBusMemory (writeMaskedBytes h.machine.bus.mem p.toNat (fullMask n) v) h.machine })
    | .device _ => (true, useSafeAnswer h)
    | .error => (false, useSafeAnswer h)
    | .silent => (false, useSafeAnswer h)
  | _ => (false, h)

/-- `SafeReadCString(vaddr, max)`: the bytes up to a 0 byte or `max` bytes; `none` if a byte read fails. -/
def safeReadCString (vaddr : Word) : Nat → HostState → Option (List Byte) × HostState
  | 0, h => (some [], h)
  | max + 1, h =>
    match safeRead vaddr .byte h with
    | (none, h1) => (none, h1)
    | (some v, h1) =>
      if v = 0#32 then (some [], h1)
      else
        match safeReadCString (vaddr + 1#32) max h1 with
        | (some bytes, h2) => (some (v.setWidth 8 :: bytes), h2)
        | (none, h2) => (none, h2)

/-! ### Breakpoints (60_exceptions.md R451 to R453) -/

/-- Adds an enabled breakpoint, not yet hit. DESIGN CHOICE (log entry 32): a second one at the same address is a second entry. -/
def addBreakpoint (a : Word) (callback : Option (List Bool)) (autoClear : Bool) (h : HostState) : HostState :=
  { h with
    breakpoints := h.breakpoints ++
      [{ address := a, callback := callback, sequence := h.nextSequence, hitCount := 0, autoClear := autoClear, enabled := true }]
    nextSequence := h.nextSequence + 1 }

/-- Removes the breakpoints at an address. DESIGN CHOICE (log entry 32): all of them; R450 does not say what remove takes. -/
def removeBreakpoint (a : Word) (h : HostState) : HostState :=
  { h with breakpoints := h.breakpoints.filter fun e => decide (e.address ≠ a) }

/-- Clears the table; the sequence counter and `resume_skip` stay (DESIGN CHOICE, log entry 32). -/
def clearBreakpoints (h : HostState) : HostState := { h with breakpoints := [] }

/-- Whether a breakpoint stands at an address, enabled or not (DESIGN CHOICE, log entry 32). -/
def hasBreakpoint (a : Word) (h : HostState) : Bool := h.breakpoints.any fun e => decide (e.address = a)

/-- The entry is hit at `a`. -/
def breakpointHit (a : Word) (e : Breakpoint) : Bool := e.enabled && decide (e.address = a)

/-- The entry after its hit: counted, one callback answer used; `none` when it is removed (R451). -/
def afterHit (e : Breakpoint) : Option Breakpoint :=
  let keep := match e.callback with
    | some answers => answers.headD true
    | none => true
  if !keep || e.autoClear then none else some { e with hitCount := e.hitCount + 1, callback := e.callback.map List.tail }

/-- The table after a visit of `a`, in sequence order. -/
def visitTable (a : Word) (t : List Breakpoint) : List Breakpoint :=
  t.filterMap fun e => if breakpointHit a e then afterHit e else some e

/-- A hit without a callback stops (R451). -/
def visitStops (a : Word) (t : List Breakpoint) : Bool := t.any fun e => breakpointHit a e && e.callback.isNone

/-- The check before a step of checked dispatch: whether to stop, and the host state after it (R451). -/
def breakpointCheck (h : HostState) : Bool × HostState :=
  let a := h.machine.pipe.pc
  if h.resumeSkip = some a then (false, { h with resumeSkip := none })
  else if visitStops a h.breakpoints then (true, { h with breakpoints := visitTable a h.breakpoints, resumeSkip := some a })
  else (false, { h with breakpoints := visitTable a h.breakpoints })

/-- The word at `pc` is a call: JAL, JALR, BLTZAL or BGEZAL (R452). -/
def isCall (x : Slot) : Bool :=
  match x with
  | .fetchFault _ _ => false
  | .word w =>
    match decodeWord w with
    | .ok (.jal _) => true
    | .ok (.jalr _ _) => true
    | .ok (.bltzal _ _) => true
    | .ok (.bgezal _ _) => true
    | _ => false

/-- The first half of step-over: whether the word at `pc` is a call, and if so the breakpoint at `pc + 8` (R452). -/
def prepareStepOver (h : HostState) : Bool × HostState :=
  if isCall h.machine.pipe.nextInstruction then (true, addBreakpoint (h.machine.pipe.pc + 8#32) none true h) else (false, h)

/-- The scan of step-out from `a`, at most `max` words: the address of the first `jr $31` (R453). -/
def scanForReturn (a : Word) : Nat → HostState → Option Word × HostState
  | 0, h => (none, h)
  | max + 1, h =>
    match safeRead a .word h with
    | (none, h1) => (none, h1)
    | (some w, h1) => if w = 0x03E00008#32 then (some a, h1) else scanForReturn (a + 4#32) max h1

/-- `Step-out(max)`: success and the breakpoint at R + 8, or failure and the table unchanged (R453). -/
def stepOut (max : Nat) (h : HostState) : Bool × HostState :=
  match scanForReturn h.machine.pipe.pc max h with
  | (some r, h1) => (true, addBreakpoint (r + 8#32) none true h1)
  | (none, h1) => (false, h1)

/-! ### Trace (60_exceptions.md R454) -/

/-- Starts tracing. -/
def startTrace (h : HostState) : HostState := { h with tracing := true }
/-- Stops tracing. -/
def stopTrace (h : HostState) : HostState := { h with tracing := false }

/-- The disassembly of a slot. -/
def slotText (addr : Word) (x : Slot) : String :=
  match x with
  | .word w => wordText addr w
  | .fetchFault _ _ => "(fetch fault)"

/-- What the step from `s` retires: the current slot at the point where it executes. -/
def retired (s : State) : List TraceRecord :=
  match beginStep s with
  | .next s1 =>
    [{ address := s1.pipe.currentInstructionPc, slot := s1.pipe.currentInstruction
       text := slotText s1.pipe.currentInstructionPc s1.pipe.currentInstruction }]
  | _ => []

/-! ### Execution (70_reset_and_hazards.md R542; 60_exceptions.md R450 to R452, R459) -/

/-- Why the execution loop, or a single step, returned. -/
inductive ExecStop where
  /-- `pending_ticks` has reached `downcount`, and the host gives no further events. -/
  | eventsDue
  /-- `ExitExecution()` was observed. -/
  | exited
  /-- A breakpoint without a callback stopped execution. -/
  | atBreakpoint
  /-- The bus gave no answer. -/
  | stuck (f : Fault)
  /-- The step was refused. -/
  | refused (r : Refusal)
  /-- The model's bound on the number of steps is used up. -/
  | outOfFuel
  deriving DecidableEq, Repr

/-- The dispatcher variant of `Execute` is the checked one while breakpoints are active or a trace is on (R451, R454;
70_reset_and_hazards.md R505). DESIGN CHOICE (log entry 31): breakpoints are active when an entry is enabled or `resume_skip`
is set. -/
def checkedDispatch (h : HostState) : Bool := h.tracing || h.resumeSkip.isSome || h.breakpoints.any (·.enabled)

/-- One step, and its trace record while a trace is on (R454). A refused step leaves the other fields as they were
(log entry 15). -/
def hostStep (h : HostState) : Option ExecStop × HostState :=
  match step h.machine with
  | .next t => (none, { h with machine := t, trace := if h.tracing then h.trace ++ retired h.machine else h.trace })
  | .fault f => (some (.stuck f), h)
  | .refused r => (some (.refused r), { h with machine := { h.machine with refused := some r } })

/-- One step of checked dispatch: the hook of R451, then the step unless the hook stops. -/
def checkedStep (h : HostState) : Option ExecStop × HostState :=
  match breakpointCheck h with
  | (true, h1) => (some .atBreakpoint, h1)
  | (false, h1) => hostStep h1

/-- `SingleStep()`: the checked-dispatch hook, then one retirement (R450, R451). DESIGN CHOICE (log entry 30): when the hook
stops, it returns before the step, as `Execute` does. -/
def singleStep (h : HostState) : Option ExecStop × HostState := checkedStep h

/-- One step of `Execute` by the dispatcher variant in use; the fast one does not run the hook (R451, R505). -/
def dispatchStep (h : HostState) : Option ExecStop × HostState := if checkedDispatch h then checkedStep h else hostStep h

/-- The inner loop of `Execute` ends: an exit is requested, or `pending_ticks` has reached `downcount` (R542). -/
def roundOver (h : HostState) : Bool := h.exitRequested || decide (h.machine.timing.downcount ≤ h.machine.timing.pendingTicks)

/-- The inner loop of `Execute`: steps while `pending_ticks < downcount` and no exit is requested, at most `fuel` of them; the
reason is `none` where the loop ends by itself (R542). -/
def runRound : Nat → HostState → Option ExecStop × HostState
  | 0, h => if roundOver h then (none, h) else (some .outOfFuel, h)
  | fuel + 1, h =>
    if roundOver h then (none, h)
    else
      match dispatchStep h with
      | (none, h1) => runRound fuel h1
      | (some why, h1) => (some why, h1)

/-- What the host may do when it runs its due events (R542, R459). -/
inductive HostEvent where
  | setInterrupt (b : Nat)
  | clearInterrupt (b : Nat)
  | resetPendingTicks
  | setDowncount (d : Int)
  | requestExit
  deriving DecidableEq, Repr

/-- `ExitExecution()` (R459). -/
def exitExecution (h : HostState) : HostState := { h with exitRequested := true }

/-- One host event. -/
def applyEvent (e : HostEvent) (h : HostState) : HostState :=
  match e with
  | .setInterrupt b => { h with machine := setExternalInterrupt b h.machine }
  | .clearInterrupt b => { h with machine := clearExternalInterrupt b h.machine }
  | .resetPendingTicks => { h with machine := resetPendingTicks h.machine }
  | .setDowncount d => { h with machine := setDowncount d h.machine }
  | .requestExit => exitExecution h

/-- A batch of events, in order. -/
def applyEvents (es : List HostEvent) (h : HostState) : HostState := es.foldl (fun h e => applyEvent e h) h

/-- `ExitExecution()` is observed. DESIGN CHOICE (log entry 29): observing the request clears it; the spec does not say when
it is cleared. -/
def observeExit (h : HostState) : HostState := { h with exitRequested := false }

/-- `Execute()` (R542): the inner loop, then the host's due events, and again, until an exit is observed or a stop. The list
gives the events the host runs after each round, the new `downcount` among them; with none left the loop returns. Each round
makes at most `fuel` steps (log entry 14). -/
def execute (fuel : Nat) : List (List HostEvent) → HostState → ExecStop × HostState
  | [], h =>
    match runRound fuel h with
    | (some why, h1) => (why, h1)
    | (none, h1) => if h1.exitRequested then (.exited, observeExit h1) else (.eventsDue, h1)
  | batch :: rest, h =>
    match runRound fuel h with
    | (some why, h1) => (why, h1)
    | (none, h1) =>
      let h2 := applyEvents batch h1
      if h2.exitRequested then (.exited, observeExit h2) else execute fuel rest h2

/-- Step-over: for a call, an auto-clear breakpoint after its delay slot and `Execute`; otherwise one single step (R452). -/
def stepOver (fuel : Nat) (events : List (List HostEvent)) (h : HostState) : Option ExecStop × HostState :=
  match prepareStepOver h with
  | (true, h1) =>
    match execute fuel events h1 with
    | (why, h2) => (some why, h2)
  | (false, h1) => singleStep h1

/-! ### Views (60_exceptions.md R457) -/

/-- The debug register list: the general registers by name, HI, LO, pc and the COP0 registers (R457). -/
def debugRegisters (s : State) : List (String × Word) :=
  (registerNames.zip ((List.range 32).map fun n => readReg (BitVec.ofNat 5 n) s)) ++
  [("hi", s.hi), ("lo", s.lo), ("pc", s.pipe.pc)] ++
  [("BPC", s.cop0.bpc), ("BDA", s.cop0.bda), ("TAR", s.cop0.tar), ("DCIC", s.cop0.dcic)] ++
  [("BadVaddr", s.cop0.badVaddr), ("BDAM", s.cop0.bdam), ("BPCM", s.cop0.bpcm), ("SR", s.cop0.sr)] ++
  [("CAUSE", s.cop0.cause), ("EPC", s.cop0.epc), ("PRID", Config.prid)]

/-- Disassemble-and-print of `count` words from `a` (R457). DESIGN CHOICE (log entry 33): a word that cannot be read ends the
listing, and the window begins at `a`; R457 leaves both open. -/
def disassemble (a : Word) : Nat → HostState → List String × HostState
  | 0, h => ([], h)
  | count + 1, h =>
    match safeRead a .word h with
    | (none, h1) => ([], h1)
    | (some w, h1) =>
      match disassemble (a + 4#32) count h1 with
      | (rest, h2) => (wordText a w :: rest, h2)

end Sys2Proof.Machine
end

