-- ==== Sys2Proof/Safety.lean ====
section
/-! DEFINITION. The terms the statements use: what a safe run is, the invariant of the machine, and, as relations between
the state before and the state after, the few shapes an instruction's effect takes. Each relation says what changes, to
what, and (its `frame`) that nothing else does. -/

namespace Sys2Proof.Machine

/-! ### Safe runs -/

/-- A step is safe when it has a next state: no refusal, not stuck. -/
def SafeStep (s : State) : Prop := ∃ t, step s = .next t

/-- The next `k` steps are safe. -/
def SafeRun : Nat → State → Prop
  | 0, _ => True
  | k + 1, s => ∃ t, step s = .next t ∧ SafeRun k t

/-- The bus answers every call to come (00_scope.md R14: one it does not answer has no step). -/
def BusReplies (s : State) : Prop := ∀ a ∈ s.bus.answers, a ≠ BusAnswer.silent

/-- No interrupt is taken at the start of the next step (60_exceptions.md R414, R416). -/
def NoInterruptDue (s : State) : Prop := interruptPending s = false ∨ interruptDeferred s.pipe.nextInstruction = true

/-- The machine may step: not refused, no hardware breakpoint armed (70_reset_and_hazards.md R501). -/
def MayStep (s : State) : Prop := s.refused = none ∧ breakpointsArmed s = false

/-! ### The invariant -/

/-- What every step keeps. -/
structure Inv (s : State) : Prop where
  /-- Bus memory is in its canonical form. -/
  memory : s.bus.mem.wf = true
  /-- The bits of SR that do not exist read 0 (10_state.md R41). -/
  srBits : s.cop0.sr &&& ~~~Config.srMask = 0#32
  /-- The bits of CAUSE that do not exist read 0 (10_state.md R43). -/
  causeBits : s.cop0.cause &&& ~~~0xF000FF7C#32 = 0#32
  /-- The bits of DCIC that do not exist read 0 (10_state.md R45). -/
  dcicBits : s.cop0.dcic &&& ~~~Config.dcicMask = 0#32
  /-- A load to r0 is never pending (10_state.md R31, R38). -/
  pendingReg : s.delay.reg ≠ some 0#5
  /-- Between steps no load is staged (70_reset_and_hazards.md R509). -/
  stagedReg : s.delay.nextReg = none
  /-- A taken branch has its delay slot next (70_reset_and_hazards.md R520, R521). -/
  takenSlot : s.pipe.branchWasTaken = true → s.pipe.nextInstructionIsBranchDelaySlot = true
  /-- A word in the next slot came from a word-aligned address (30_encoding.md R170). -/
  wordAligned : ∀ w, s.pipe.nextInstruction = .word w → s.pipe.pc.toNat % 4 = 0
  /-- A marker in the next slot names the address of the slot (10_state.md R35, R36). -/
  markerAddress : ∀ c a, s.pipe.nextInstruction = .fetchFault c a → a = s.pipe.pc
  /-- With the instruction cache disabled every line is invalid (20_memory.md R142, R169). -/
  cacheOff : icacheEnable s.cacheControl = false → ∀ l, (s.icache.tags.read l).extractLsb' 0 4 = 0xF#4
  /-- A tag holds a 29-bit physical address (20_memory.md R100, R153). -/
  tagsPhysical : ∀ l, (s.icache.tags.read l).extractLsb' 29 3 = 0#3

/-! ### Effects on registers -/

/-- `t` is `s` after `WriteReg(i, v)` (70_reset_and_hazards.md R507). -/
structure WroteReg (i : RegNum) (v : Word) (s t : State) : Prop where
  /-- The register holds the value; r0 discards it and reads 0 (10_state.md R31). -/
  value : readReg i t = if i = 0#5 then 0#32 else v
  /-- No other register changes. -/
  others : ∀ r, r ≠ i → readReg r t = readReg r s
  /-- A pending load to the register is discarded. -/
  cancelled : s.delay.reg = some i → t.delay = { s.delay with reg := none }
  /-- Any other pending load stays. -/
  kept : s.delay.reg ≠ some i → t.delay = s.delay
  frame : t = { s with regs := t.regs, delay := t.delay }

/-- `t` is `s` after a load-delayed write of `v` to `i` (70_reset_and_hazards.md R508), and after what reading the value took:
ticks, bus calls that change no memory, draws. -/
structure Loaded (i : RegNum) (v : Word) (s t : State) : Prop where
  /-- Nothing is staged for r0, and nothing is cancelled. -/
  zero : i = 0#5 → t.delay = s.delay
  /-- The value is staged, and a pending load to the same register is discarded. -/
  staged : i ≠ 0#5 → t.delay =
    { reg := if s.delay.reg = some i then none else s.delay.reg, value := s.delay.value, nextReg := some i, nextValue := v }
  /-- Bus memory is not changed. -/
  memory : t.bus.mem = s.bus.mem
  /-- Of the timing counters only `pending_ticks` may grow. -/
  timing : t.timing = { s.timing with pendingTicks := t.timing.pendingTicks }
  frame : t = { s with delay := t.delay, bus := t.bus, timing := t.timing, draws := t.draws }

/-! ### Effects on control -/

/-- `t` is `s` after a branch or jump to `target` (42_branch.md R270): the next instruction is a delay slot, taken or not. -/
structure Branched (taken : Bool) (target : Word) (s t : State) : Prop where
  slot : t.pipe.nextInstructionIsBranchDelaySlot = true
  npcTaken : taken = true → t.pipe.npc = target ∧ t.pipe.branchWasTaken = true
  npcNotTaken : taken = false → t.pipe.npc = s.pipe.npc ∧ t.pipe.branchWasTaken = s.pipe.branchWasTaken
  pipeFrame : t.pipe =
    { s.pipe with
      npc := t.pipe.npc
      branchWasTaken := t.pipe.branchWasTaken
      nextInstructionIsBranchDelaySlot := t.pipe.nextInstructionIsBranchDelaySlot }
  frame : t = { s with pipe := t.pipe }

/-- The exception vector SR.BEV selects (60_exceptions.md R422). -/
def vectorOf (s : State) : Word := if s.cop0.sr.getLsbD 22 then 0xBFC00180#32 else 0x80000080#32

/-- The state in which exception entry fetches at the vector: the registers, the load delay and COP0 are those after it, the
branch flags are cleared, and the bus, the cache and the ticks are still those before it (60_exceptions.md R420). -/
def flushed (s t : State) : State :=
  { s with
    regs := t.regs, delay := t.delay, cop0 := t.cop0
    pipe := { s.pipe with nextInstructionIsBranchDelaySlot := false, branchWasTaken := false }
    flags := { s.flags with exceptionRaised := true } }

/-- `t` is `s` after `EnterException(code, at, bd, bt, ce, dest)` (60_exceptions.md R420 to R423). -/
structure Entered (code : Nat) (at_ : Word) (bd bt : Bool) (ce : BitVec 2) (dest : Word) (s t : State) : Prop where
  /-- EPC is the instruction, or the branch before it when it is in a delay slot. -/
  epc : t.cop0.epc = if bd then at_ - 4#32 else at_
  causeBd : t.cop0.cause.getLsbD 31 = bd
  causeBt : t.cop0.cause.getLsbD 30 = bt
  causeCe : t.cop0.cause.extractLsb' 28 2 = ce
  causeCode : (t.cop0.cause.extractLsb' 2 5).toNat = code
  /-- Every other bit of CAUSE, the interrupt lines among them, is kept. -/
  causeRest : t.cop0.cause.extractLsb' 7 21 = s.cop0.cause.extractLsb' 7 21 ∧
    t.cop0.cause.extractLsb' 0 2 = s.cop0.cause.extractLsb' 0 2
  /-- TAR is written only in a delay slot. -/
  tar : t.cop0.tar = if bd then dest else s.cop0.tar
  /-- The mode stack is pushed: kernel mode, interrupts off. -/
  modeStack : t.cop0.sr.extractLsb' 0 6 = s.cop0.sr.extractLsb' 0 4 ++ 0#2
  srRest : t.cop0.sr.extractLsb' 6 26 = s.cop0.sr.extractLsb' 6 26
  cop0Frame : t.cop0 = { s.cop0 with epc := t.cop0.epc, cause := t.cop0.cause, tar := t.cop0.tar, sr := t.cop0.sr }
  raised : t.flags.exceptionRaised = true
  /-- Control is at the vector; the hazards are flushed. -/
  pc : t.pipe.pc = vectorOf s ∧ t.pipe.npc = vectorOf s + 4#32 ∧ t.pipe.currentInstructionPc = vectorOf s
  branchFlags : t.pipe.nextInstructionIsBranchDelaySlot = false ∧ t.pipe.branchWasTaken = false
  /-- The slot that was executing is kept. -/
  current : t.pipe.currentInstruction = s.pipe.currentInstruction ∧
    t.pipe.currentInBranchDelaySlot = s.pipe.currentInBranchDelaySlot ∧
    t.pipe.currentBranchWasTaken = s.pipe.currentBranchWasTaken
  /-- A pending load reaches the register file; no other register changes. -/
  registers : ∀ r, r ≠ 0#5 → readReg r t = if s.delay.reg = some r then s.delay.value else readReg r s
  /-- Nothing is pending and nothing staged. -/
  delay : t.delay = { s.delay with reg := none, nextReg := none }
  memory : t.bus.mem = s.bus.mem
  timing : t.timing = { s.timing with pendingTicks := t.timing.pendingTicks }
  /-- At least `T_FLUSH` is charged. -/
  ticks : s.timing.pendingTicks + 1 ≤ t.timing.pendingTicks
  /-- The one fetch, at the vector: the next slot is what it returns, the bus, the cache and the flags are what it leaves, and
  the ticks are those plus `T_FLUSH`. -/
  refetched : ∃ x u, fetch (vectorOf s) (flushed s t) = .next (x, u) ∧ t =
    { u with
      pipe :=
        { u.pipe with
          nextInstruction := x, pc := vectorOf s, npc := vectorOf s + 4#32, currentInstructionPc := vectorOf s }
      timing := { u.timing with pendingTicks := u.timing.pendingTicks + 1 } }
  frame : t =
    { s with
      regs := t.regs, pipe := t.pipe, delay := t.delay, cop0 := t.cop0, icache := t.icache, timing := t.timing
      flags := t.flags, bus := t.bus }

/-- `t` is `s` after the current instruction has raised the exception (60_exceptions.md R420). -/
def Raised (code : Nat) (ce : BitVec 2) (s t : State) : Prop :=
  Entered code s.pipe.currentInstructionPc s.pipe.currentInBranchDelaySlot s.pipe.currentBranchWasTaken ce s.pipe.pc s t

/-! ### Data accesses -/

/-- CAUSE.CE of an exception of the current instruction that is not CpU: bits 27:26 of its word, 0 for a fetch fault
(60_exceptions.md R421). -/
def reportedCop (s : State) : BitVec 2 :=
  match s.pipe.currentInstruction with
  | .word w => BitVec.ofNat 2 (w.toNat / 2 ^ 26)
  | .fetchFault _ _ => 0#2

/-- A data access: load or store, its width and the address it is made at. -/
structure Access where
  store : Bool
  width : Width
  address : Word
  deriving DecidableEq, Repr

/-- The data access of an instruction (20_memory.md R111, 43_loadstore.md R300): the unaligned forms access the aligned
word (R309, R310, R315, R316). -/
def dataAccess (i : Instr) (s : State) : Option Access :=
  match i with
  | .lb _ base off => some ⟨false, .byte, effectiveAddress base off s⟩
  | .lbu _ base off => some ⟨false, .byte, effectiveAddress base off s⟩
  | .lh _ base off => some ⟨false, .half, effectiveAddress base off s⟩
  | .lhu _ base off => some ⟨false, .half, effectiveAddress base off s⟩
  | .lw _ base off => some ⟨false, .word, effectiveAddress base off s⟩
  | .lwl _ base off => some ⟨false, .word, effectiveAddress base off s &&& 0xFFFFFFFC#32⟩
  | .lwr _ base off => some ⟨false, .word, effectiveAddress base off s &&& 0xFFFFFFFC#32⟩
  | .lwc2 _ base off => some ⟨false, .word, effectiveAddress base off s⟩
  | .sb _ base off => some ⟨true, .byte, effectiveAddress base off s⟩
  | .sh _ base off => some ⟨true, .half, effectiveAddress base off s⟩
  | .sw _ base off => some ⟨true, .word, effectiveAddress base off s⟩
  | .swl _ base off => some ⟨true, .word, effectiveAddress base off s &&& 0xFFFFFFFC#32⟩
  | .swr _ base off => some ⟨true, .word, effectiveAddress base off s &&& 0xFFFFFFFC#32⟩
  | .swc2 _ base off => some ⟨true, .word, effectiveAddress base off s⟩
  | _ => none

/-- The bytes a store instruction enables, from its address on: bit `k` enables byte `k` (20_memory.md R131, R132). -/
def storeMask (i : Instr) (s : State) : BitVec 4 :=
  match i with
  | .sb _ _ _ => 0b0001#4
  | .sh _ _ _ => 0b0011#4
  | .sw _ _ _ => 0b1111#4
  | .swc2 _ _ _ => 0b1111#4
  | .swl _ base off =>
    match (effectiveAddress base off s).toNat % 4 with
    | 0 => 0b0001#4
    | 1 => 0b0011#4
    | 2 => 0b0111#4
    | _ => 0b1111#4
  | .swr _ base off =>
    match (effectiveAddress base off s).toNat % 4 with
    | 0 => 0b1111#4
    | 1 => 0b1110#4
    | 2 => 0b1100#4
    | _ => 0b1000#4
  | _ => 0b0000#4

/-- The word whose enabled bytes a store instruction writes (43_loadstore.md R312 to R316, 44_system.md R358). -/
def storeWord (i : Instr) (s : State) : Word :=
  match i with
  | .sb rt _ _ => readReg rt s
  | .sh rt _ _ => readReg rt s
  | .sw rt _ _ => readReg rt s
  | .swc2 gr _ _ => Config.gteRead s.gte gr
  | .swl rt base off => readReg rt s >>> (24 - 8 * ((effectiveAddress base off s).toNat % 4))
  | .swr rt base off => readReg rt s <<< (8 * ((effectiveAddress base off s).toNat % 4))
  | _ => 0#32

/-- The coprocessor an instruction belongs to (44_system.md R330). -/
def coprocessorOf (i : Instr) : Option (BitVec 2) :=
  match i with
  | .mfc0 _ _ => some 0#2
  | .mtc0 _ _ => some 0#2
  | .rfe => some 0#2
  | .mfc2 _ _ => some 2#2
  | .cfc2 _ _ => some 2#2
  | .mtc2 _ _ => some 2#2
  | .ctc2 _ _ => some 2#2
  | .cop2 _ => some 2#2
  | .lwc2 _ _ _ => some 2#2
  | .swc2 _ _ _ => some 2#2
  | _ => none

/-- COP0 may be used: in kernel mode, or with CU0 (44_system.md R330). -/
def cop0Allowed (s : State) : Prop := s.cop0.sr.getLsbD 1 = false ∨ s.cop0.sr.getLsbD 28 = true

/-- Coprocessor `z` may be used (30_encoding.md R190). -/
def copAllowed (z : BitVec 2) (s : State) : Prop :=
  match z.toNat with
  | 0 => cop0Allowed s
  | 1 => s.cop0.sr.getLsbD 29 = true
  | 2 => s.cop0.sr.getLsbD 30 = true
  | _ => s.cop0.sr.getLsbD 31 = true

/-- The instruction may be executed at all: a COP2 load or store needs COP2 (44_system.md R330). -/
def copAllows (i : Instr) (s : State) : Prop :=
  match i with
  | .lwc2 _ _ _ => s.cop0.sr.getLsbD 30 = true
  | .swc2 _ _ _ => s.cop0.sr.getLsbD 30 = true
  | _ => True

/-- The state in which a store instruction makes its access: SWC2 has waited for the GTE first (44_system.md R358). -/
def readyToStore (i : Instr) (s : State) : State :=
  match i with
  | .swc2 _ _ _ =>
    { s with timing := { s.timing with pendingTicks := max s.timing.pendingTicks s.timing.gteCompletionTick } }
  | _ => s

/-- The cost kind of a store instruction (43_loadstore.md R302). -/
def storeKind (i : Instr) : AccessKind :=
  match i with
  | .swl _ _ _ => .maskedWrite
  | .swr _ _ _ => .maskedWrite
  | _ => .write

/-- The bus call of a store instruction (20_memory.md R104, R131, R132). -/
def storeEvent (i : Instr) (p : Word) (n : Width) (s : State) (ok : Bool) : BusEvent :=
  match i with
  | .swl _ _ _ => .writeMasked p (storeMask i s) (storeWord i s) ok
  | .swr _ _ _ => .writeMasked p (storeMask i s) (storeWord i s) ok
  | _ => .write p n (BitVec.ofNat 32 ((storeWord i s).toNat % 256 ^ n.bytes)) ok

/-- What a bus access costs (43_loadstore.md R302). -/
def busAccessCost (kind : AccessKind) (p : Word) (n : Width) (s : State) : Nat :=
  if trueCacheMode s then Config.tDcache kind p n.bytes else Config.tData kind p n.bytes

/-- The value a load of width `n` reads at `vaddr`, where the access goes well (20_memory.md R130). -/
def readableValue (vaddr : Word) (n : Width) (s : State) : Option Word :=
  match dataTarget vaddr n s with
  | .cacheControl => some s.cacheControl
  | .isolatedCache => some (Config.freeWord s.draws)
  | .scratchpad off => some (readScratch s.scratchpad off n)
  | .bus p =>
    match nextAnswer s with
    | .ram => some (readBytes s.bus.mem p.toNat n)
    | .device v => some (truncTo n v)
    | .error => none
    | .silent => none
  | _ => none

/-- What a load costs (43_loadstore.md R302). -/
def readCost (vaddr : Word) (n : Width) (s : State) : Nat :=
  match dataTarget vaddr n s with
  | .cacheControl => Config.tCacheCtl
  | .isolatedCache => Config.tIsolated
  | .bus p => if trueCacheMode s then Config.tDcache .read p n.bytes else Config.tData .read p n.bytes
  | _ => 0

/-- What the bus answers to the read of word `n` of a line in a fill from word `k` at physical `p`, `none` for an error
(20_memory.md R155): the reads are made in order, so word `n` has answer `n - k`. -/
def fillAnswer (p k n : Nat) (s : State) : Option Word :=
  match s.bus.answers.getD (n - k) .ram with
  | .ram => some (readBytes s.bus.mem (p / 16 * 16 + 4 * n) .word)
  | .device v => some v
  | .error => none
  | .silent => none

/-- What the bus answers to the reset prefetch, `none` for an error (70_reset_and_hazards.md R530). -/
def resetWord (s : State) : Option Word :=
  match nextAnswer s with
  | .ram => some (readBytes s.bus.mem 0x1FC00000 .word)
  | .device v => some v
  | .error => none
  | .silent => none

/-- Byte `k` of a word, by arithmetic (20_memory.md R110). -/
def wordByte (v : Word) (k : Nat) : Byte := BitVec.ofNat 8 (v.toNat / 256 ^ k)

/-- The instruction may store to memory. -/
def isStore (i : Instr) : Bool :=
  match i with
  | .sb _ _ _ => true
  | .sh _ _ _ => true
  | .sw _ _ _ => true
  | .swl _ _ _ => true
  | .swr _ _ _ => true
  | .swc2 _ _ _ => true
  | _ => false

/-- The register an instruction writes at once, with `WriteReg` (70_reset_and_hazards.md R513). -/
def immediateDest (i : Instr) : Option RegNum :=
  match i with
  | .sll rd _ _ => some rd
  | .srl rd _ _ => some rd
  | .sra rd _ _ => some rd
  | .sllv rd _ _ => some rd
  | .srlv rd _ _ => some rd
  | .srav rd _ _ => some rd
  | .jalr rd _ => some rd
  | .mfhi rd => some rd
  | .mflo rd => some rd
  | .add rd _ _ => some rd
  | .addu rd _ _ => some rd
  | .sub rd _ _ => some rd
  | .subu rd _ _ => some rd
  | .and rd _ _ => some rd
  | .or rd _ _ => some rd
  | .xor rd _ _ => some rd
  | .nor rd _ _ => some rd
  | .slt rd _ _ => some rd
  | .sltu rd _ _ => some rd
  | .addi rt _ _ => some rt
  | .addiu rt _ _ => some rt
  | .slti rt _ _ => some rt
  | .sltiu rt _ _ => some rt
  | .andi rt _ _ => some rt
  | .ori rt _ _ => some rt
  | .xori rt _ _ => some rt
  | .lui rt _ => some rt
  | .jal _ => some 31#5
  | .bltzal _ _ => some 31#5
  | .bgezal _ _ => some 31#5
  | _ => none

/-- The register an instruction writes with the load delay (70_reset_and_hazards.md R513). -/
def delayedDest (i : Instr) : Option RegNum :=
  match i with
  | .lb rt _ _ => some rt
  | .lbu rt _ _ => some rt
  | .lh rt _ _ => some rt
  | .lhu rt _ _ => some rt
  | .lw rt _ _ => some rt
  | .lwl rt _ _ => some rt
  | .lwr rt _ _ => some rt
  | .mfc0 rt _ => some rt
  | .mfc2 rt _ => some rt
  | .cfc2 rt _ => some rt
  | _ => none

/-- A branch or jump (70_reset_and_hazards.md R521). -/
def isBranch (i : Instr) : Bool :=
  match i with
  | .j _ => true
  | .jal _ => true
  | .jr _ => true
  | .jalr _ _ => true
  | .beq _ _ _ => true
  | .bne _ _ _ => true
  | .blez _ _ => true
  | .bgtz _ _ => true
  | .bltz _ _ => true
  | .bgez _ _ => true
  | .bltzal _ _ => true
  | .bgezal _ _ => true
  | _ => false

/-- The instruction writes HI (10_state.md R33). -/
def writesHi (i : Instr) : Bool :=
  match i with
  | .mult _ _ => true
  | .multu _ _ => true
  | .div _ _ => true
  | .divu _ _ => true
  | .mthi _ => true
  | _ => false

/-- The instruction writes LO (10_state.md R33). -/
def writesLo (i : Instr) : Bool :=
  match i with
  | .mult _ _ => true
  | .multu _ _ => true
  | .div _ _ => true
  | .divu _ _ => true
  | .mtlo _ => true
  | _ => false

/-- The instruction writes the GTE's state (44_system.md R350). -/
def writesGte (i : Instr) : Bool :=
  match i with
  | .mtc2 _ _ => true
  | .ctc2 _ _ => true
  | .cop2 _ => true
  | .lwc2 _ _ _ => true
  | _ => false

/-! ### Terms of single statements -/

/-- The exact integer is a signed 32-bit value (R201). -/
def signedRange (x : Int) : Prop := -2 ^ 31 ≤ x ∧ x ≤ 2 ^ 31 - 1

/-- `t` is `s` after the multiply/divide unit has written HI and LO, at its cost; no register and no pending load changes
(R251). -/
def UnitWrote (op : MulDivOp) (rs rt : RegNum) (s t : State) : Prop :=
  t = { s with
    hi := t.hi, lo := t.lo
    timing := { s.timing with pendingTicks := s.timing.pendingTicks + Config.tMulDiv op (readReg rs s) (readReg rt s) } }

/-- `pc + 4 * imm` modulo 2^32, `pc` the delay slot's address (R271). -/
def relativeAddress (imm : BitVec 16) (s : State) : Word := BitVec.ofInt 32 (s.pipe.pc.toNat + 4 * imm.toInt)

/-- `index * 4` in the 256 MiB region of the delay slot (R271). -/
def regionAddress (index : BitVec 26) (s : State) : Word :=
  BitVec.ofNat 32 (s.pipe.pc.toNat / 2 ^ 28 * 2 ^ 28 + 4 * index.toNat)

/-- What LWL and LWR merge into: the pending load to the register, or the register (70_reset_and_hazards.md R510). -/
def mergeBase (rt : RegNum) (s : State) : Nat :=
  if rt ≠ 0#5 ∧ s.delay.reg = some rt then s.delay.value.toNat else (readReg rt s).toNat

/-- The address can be fetched from: aligned, in a mapped segment, and allowed by the mode (20_memory.md R150). -/
def fetchable (v : Word) (s : State) : Prop :=
  v.toNat % 4 = 0 ∧
    (v.toNat < 0x20000000 ∨ (0x80000000 ≤ v.toNat ∧ v.toNat < 0xC0000000 ∧ s.cop0.sr.getLsbD 1 = false))

/-- A fetch goes through the cache: not KSEG1, and the cache enabled (20_memory.md R101, R150). -/
def cacheable (v : Word) (s : State) : Prop := v.toNat < 0xA0000000 ∧ s.cacheControl.getLsbD 11 = true

end Sys2Proof.Machine
end

