-- ==== Sys2Proof/Certificates/Slice0/Obligations.lean ====
section
/-! DEFINITION. The statements for the provers. The relations they use (`WroteReg`, `Loaded`, `Branched`, `Raised`, ...) stand
in Sys2Proof/Safety.lean, each with its frame. -/

section
open Sys2Proof Sys2Proof.Machine

/-! ### Arithmetic, logic and shifts (40_alu.md) -/

/-- ADDU, SUBU and ADDIU write the result modulo 2^32 and never trap (R201, R203, R205, R213). -/
def Obligations.WrappingArithmetic : Prop :=
  ∀ (s : State) (rd rs rt : RegNum) (imm : BitVec 16),
    (∃ t, exec (.addu rd rs rt) s = .next t ∧
      WroteReg rd (BitVec.ofNat 32 ((readReg rs s).toNat + (readReg rt s).toNat)) s t) ∧
    (∃ t, exec (.subu rd rs rt) s = .next t ∧
      WroteReg rd (BitVec.ofInt 32 ((readReg rs s).toInt - (readReg rt s).toInt)) s t) ∧
    (∃ t, exec (.addiu rt rs imm) s = .next t ∧ WroteReg rt (BitVec.ofInt 32 ((readReg rs s).toInt + imm.toInt)) s t)

/-- ADD, SUB and ADDI write the exact integer when it fits in 32 signed bits (R202, R204, R212). -/
def Obligations.TrappingArithmeticResult : Prop :=
  ∀ (s : State) (rd rs rt : RegNum) (imm : BitVec 16),
    (signedRange ((readReg rs s).toInt + (readReg rt s).toInt) →
      ∃ t, exec (.add rd rs rt) s = .next t ∧ WroteReg rd (BitVec.ofInt 32 ((readReg rs s).toInt + (readReg rt s).toInt)) s t) ∧
    (signedRange ((readReg rs s).toInt - (readReg rt s).toInt) →
      ∃ t, exec (.sub rd rs rt) s = .next t ∧ WroteReg rd (BitVec.ofInt 32 ((readReg rs s).toInt - (readReg rt s).toInt)) s t) ∧
    (signedRange ((readReg rs s).toInt + imm.toInt) →
      ∃ t, exec (.addi rt rs imm) s = .next t ∧ WroteReg rt (BitVec.ofInt 32 ((readReg rs s).toInt + imm.toInt)) s t)

/-- When the exact integer does not fit, ADD, SUB and ADDI raise Ov, whatever the destination, and write nothing
(R200, R202, R204, R212). -/
def Obligations.TrappingArithmeticOverflow : Prop :=
  ∀ (s : State) (rd rs rt : RegNum) (imm : BitVec 16), BusReplies s →
    (¬ signedRange ((readReg rs s).toInt + (readReg rt s).toInt) →
      ∃ t, exec (.add rd rs rt) s = .next t ∧ Raised 12 (reportedCop s) s t) ∧
    (¬ signedRange ((readReg rs s).toInt - (readReg rt s).toInt) →
      ∃ t, exec (.sub rd rs rt) s = .next t ∧ Raised 12 (reportedCop s) s t) ∧
    (¬ signedRange ((readReg rs s).toInt + imm.toInt) →
      ∃ t, exec (.addi rt rs imm) s = .next t ∧ Raised 12 (reportedCop s) s t)

/-- The logical instructions act bit by bit; the immediate of ANDI, ORI and XORI is zero-extended (R206 to R209, R216 to R218). -/
def Obligations.BitwiseLogic : Prop :=
  ∀ (s : State) (rd rs rt : RegNum) (imm : BitVec 16),
    (∃ t v, exec (.and rd rs rt) s = .next t ∧ WroteReg rd v s t ∧
      ∀ k, v.getLsbD k = ((readReg rs s).getLsbD k && (readReg rt s).getLsbD k)) ∧
    (∃ t v, exec (.or rd rs rt) s = .next t ∧ WroteReg rd v s t ∧
      ∀ k, v.getLsbD k = ((readReg rs s).getLsbD k || (readReg rt s).getLsbD k)) ∧
    (∃ t v, exec (.xor rd rs rt) s = .next t ∧ WroteReg rd v s t ∧
      ∀ k, v.getLsbD k = ((readReg rs s).getLsbD k ^^ (readReg rt s).getLsbD k)) ∧
    (∃ t v, exec (.nor rd rs rt) s = .next t ∧ WroteReg rd v s t ∧
      ∀ k, k < 32 → v.getLsbD k = !((readReg rs s).getLsbD k || (readReg rt s).getLsbD k)) ∧
    (∃ t v, exec (.andi rt rs imm) s = .next t ∧ WroteReg rt v s t ∧
      ∀ k, v.getLsbD k = ((readReg rs s).getLsbD k && imm.getLsbD k)) ∧
    (∃ t v, exec (.ori rt rs imm) s = .next t ∧ WroteReg rt v s t ∧
      ∀ k, v.getLsbD k = ((readReg rs s).getLsbD k || imm.getLsbD k)) ∧
    (∃ t v, exec (.xori rt rs imm) s = .next t ∧ WroteReg rt v s t ∧
      ∀ k, v.getLsbD k = ((readReg rs s).getLsbD k ^^ imm.getLsbD k))

/-- The set-on-less-than instructions write 1 or 0: SLT and SLTI by the signed order, SLTU and SLTIU by the unsigned order,
SLTIU against the sign-extended immediate (R210, R211, R214, R215). -/
def Obligations.SetOnLessThan : Prop :=
  ∀ (s : State) (rd rs rt : RegNum) (imm : BitVec 16),
    (∃ t, exec (.slt rd rs rt) s = .next t ∧
      WroteReg rd (if (readReg rs s).toInt < (readReg rt s).toInt then 1#32 else 0#32) s t) ∧
    (∃ t, exec (.sltu rd rs rt) s = .next t ∧
      WroteReg rd (if (readReg rs s).toNat < (readReg rt s).toNat then 1#32 else 0#32) s t) ∧
    (∃ t, exec (.slti rt rs imm) s = .next t ∧ WroteReg rt (if (readReg rs s).toInt < imm.toInt then 1#32 else 0#32) s t) ∧
    (∃ t, exec (.sltiu rt rs imm) s = .next t ∧
      WroteReg rt (if ((readReg rs s).toNat : Int) < imm.toInt % 2 ^ 32 then 1#32 else 0#32) s t)

/-- LUI, and the shifts as multiplication and division by a power of two; a variable amount is taken modulo 32 and read
before the write (R219 to R226). -/
def Obligations.ShiftsAndUpperImmediate : Prop :=
  ∀ (s : State) (rd rt rs : RegNum) (sh : BitVec 5) (imm : BitVec 16),
    (∃ t, exec (.lui rt imm) s = .next t ∧ WroteReg rt (BitVec.ofNat 32 (imm.toNat * 2 ^ 16)) s t) ∧
    (∃ t, exec (.sll rd rt sh) s = .next t ∧ WroteReg rd (BitVec.ofNat 32 ((readReg rt s).toNat * 2 ^ sh.toNat)) s t) ∧
    (∃ t, exec (.srl rd rt sh) s = .next t ∧ WroteReg rd (BitVec.ofNat 32 ((readReg rt s).toNat / 2 ^ sh.toNat)) s t) ∧
    (∃ t, exec (.sra rd rt sh) s = .next t ∧ WroteReg rd (BitVec.ofInt 32 ((readReg rt s).toInt / 2 ^ sh.toNat)) s t) ∧
    (∃ t, exec (.sllv rd rt rs) s = .next t ∧
      WroteReg rd (BitVec.ofNat 32 ((readReg rt s).toNat * 2 ^ ((readReg rs s).toNat % 32))) s t) ∧
    (∃ t, exec (.srlv rd rt rs) s = .next t ∧
      WroteReg rd (BitVec.ofNat 32 ((readReg rt s).toNat / 2 ^ ((readReg rs s).toNat % 32))) s t) ∧
    (∃ t, exec (.srav rd rt rs) s = .next t ∧
      WroteReg rd (BitVec.ofInt 32 ((readReg rt s).toInt / 2 ^ ((readReg rs s).toNat % 32))) s t)

/-! ### Multiply, divide, HI and LO (41_muldiv.md) -/

/-- MULT and MULTU leave the exact 64-bit product in HI and LO (R251 to R253). -/
def Obligations.MultiplyProducts : Prop :=
  ∀ (s : State) (rs rt : RegNum),
    (∃ t, exec (.mult rs rt) s = .next t ∧ UnitWrote .mult rs rt s t ∧
      t.hi.toInt * 2 ^ 32 + t.lo.toNat = (readReg rs s).toInt * (readReg rt s).toInt) ∧
    (∃ t, exec (.multu rs rt) s = .next t ∧ UnitWrote .multu rs rt s t ∧
      t.hi.toNat * 2 ^ 32 + t.lo.toNat = (readReg rs s).toNat * (readReg rt s).toNat)

/-- DIV leaves the quotient rounded toward zero in LO and the remainder with the sign of the dividend in HI; the divisor 0
and -2^31 / -1 have given results and do not trap (R251, R254). -/
def Obligations.SignedDivision : Prop :=
  ∀ (s : State) (rs rt : RegNum), ∃ t, exec (.div rs rt) s = .next t ∧ UnitWrote .div rs rt s t ∧
    ((readReg rt s).toInt = 0 →
      t.hi = readReg rs s ∧ t.lo = if 0 ≤ (readReg rs s).toInt then 0xFFFFFFFF#32 else 1#32) ∧
    ((readReg rs s).toInt = -2 ^ 31 → (readReg rt s).toInt = -1 → t.hi = 0#32 ∧ t.lo = 0x80000000#32) ∧
    ((readReg rt s).toInt ≠ 0 → ¬ ((readReg rs s).toInt = -2 ^ 31 ∧ (readReg rt s).toInt = -1) →
      t.lo.toInt * (readReg rt s).toInt + t.hi.toInt = (readReg rs s).toInt ∧
      t.hi.toInt.natAbs < (readReg rt s).toInt.natAbs ∧ 0 ≤ t.hi.toInt * (readReg rs s).toInt)

/-- DIVU leaves quotient and remainder, and the given results for the divisor 0 (R251, R255). -/
def Obligations.UnsignedDivision : Prop :=
  ∀ (s : State) (rs rt : RegNum), ∃ t, exec (.divu rs rt) s = .next t ∧ UnitWrote .divu rs rt s t ∧
    ((readReg rt s).toNat = 0 → t.hi = readReg rs s ∧ t.lo = 0xFFFFFFFF#32) ∧
    ((readReg rt s).toNat ≠ 0 →
      t.lo.toNat * (readReg rt s).toNat + t.hi.toNat = (readReg rs s).toNat ∧ t.hi.toNat < (readReg rt s).toNat)

/-- MFHI and MFLO write the register at once; MTHI and MTLO change HI or LO only (R256 to R259). -/
def Obligations.HiLoMoves : Prop :=
  ∀ (s : State) (r : RegNum),
    (∃ t, exec (.mfhi r) s = .next t ∧ WroteReg r s.hi s t) ∧
    (∃ t, exec (.mflo r) s = .next t ∧ WroteReg r s.lo s t) ∧
    exec (.mthi r) s = .next { s with hi := readReg r s } ∧
    exec (.mtlo r) s = .next { s with lo := readReg r s }

/-! ### Branches and jumps (42_branch.md) -/

/-- The conditional branches: the next instruction becomes a delay slot whether or not the branch is taken; a taken one sets
`npc` to the relative target; nothing else changes (R270, R271, R276 to R281). -/
def Obligations.ConditionalBranches : Prop :=
  ∀ (s : State) (rs rt : RegNum) (imm : BitVec 16),
    (∃ t, exec (.beq rs rt imm) s = .next t ∧ Branched (decide (readReg rs s = readReg rt s)) (relativeAddress imm s) s t) ∧
    (∃ t, exec (.bne rs rt imm) s = .next t ∧ Branched (decide (readReg rs s ≠ readReg rt s)) (relativeAddress imm s) s t) ∧
    (∃ t, exec (.blez rs imm) s = .next t ∧ Branched (decide ((readReg rs s).toInt ≤ 0)) (relativeAddress imm s) s t) ∧
    (∃ t, exec (.bgtz rs imm) s = .next t ∧ Branched (decide (0 < (readReg rs s).toInt)) (relativeAddress imm s) s t) ∧
    (∃ t, exec (.bltz rs imm) s = .next t ∧ Branched (decide ((readReg rs s).toInt < 0)) (relativeAddress imm s) s t) ∧
    (∃ t, exec (.bgez rs imm) s = .next t ∧ Branched (decide (0 ≤ (readReg rs s).toInt)) (relativeAddress imm s) s t)

/-- BLTZAL and BGEZAL write `npc` to r31 whether or not they are taken, and test the register's value before that write
(R282, R283). -/
def Obligations.LinkingBranches : Prop :=
  ∀ (s : State) (rs : RegNum) (imm : BitVec 16),
    (∃ u t, exec (.bltzal rs imm) s = .next t ∧ WroteReg 31#5 s.pipe.npc s u ∧
      Branched (decide ((readReg rs s).toInt < 0)) (relativeAddress imm s) u t) ∧
    (∃ u t, exec (.bgezal rs imm) s = .next t ∧ WroteReg 31#5 s.pipe.npc s u ∧
      Branched (decide (0 ≤ (readReg rs s).toInt)) (relativeAddress imm s) u t)

/-- The jumps: J and JAL within the delay slot's region, JR and JALR to a register's value (read before the link write);
JAL links r31, JALR its `rd` (R272 to R275). -/
def Obligations.JumpTargetsAndLinks : Prop :=
  ∀ (s : State) (index : BitVec 26) (rd rs : RegNum),
    (∃ t, exec (.j index) s = .next t ∧ Branched true (regionAddress index s) s t) ∧
    (∃ u t, exec (.jal index) s = .next t ∧ WroteReg 31#5 s.pipe.npc s u ∧ Branched true (regionAddress index s) u t) ∧
    (∃ t, exec (.jr rs) s = .next t ∧ Branched true (readReg rs s) s t) ∧
    (∃ u t, exec (.jalr rd rs) s = .next t ∧ WroteReg rd s.pipe.npc s u ∧ Branched true (readReg rs s) u t)

/-! ### Loads and stores (43_loadstore.md, 20_memory.md) -/

/-- The loads stage the value read, sign- or zero-extended, with the load delay; with `rt` = r0 they stage nothing
(R300, R303 to R308). -/
def Obligations.LoadsStageExtendedValue : Prop :=
  ∀ (s : State) (rt base : RegNum) (off : BitVec 16) (v : Word),
    (readableValue (effectiveAddress base off s) .byte s = some v →
      (∃ t, exec (.lb rt base off) s = .next t ∧ Loaded rt (BitVec.ofInt 32 (BitVec.ofNat 8 v.toNat).toInt) s t) ∧
      (∃ t, exec (.lbu rt base off) s = .next t ∧ Loaded rt (BitVec.ofNat 32 (v.toNat % 2 ^ 8)) s t)) ∧
    (readableValue (effectiveAddress base off s) .half s = some v →
      (∃ t, exec (.lh rt base off) s = .next t ∧ Loaded rt (BitVec.ofInt 32 (BitVec.ofNat 16 v.toNat).toInt) s t) ∧
      (∃ t, exec (.lhu rt base off) s = .next t ∧ Loaded rt (BitVec.ofNat 32 (v.toNat % 2 ^ 16)) s t)) ∧
    (readableValue (effectiveAddress base off s) .word s = some v →
      ∃ t, exec (.lw rt base off) s = .next t ∧ Loaded rt v s t)

/-- LWL takes the bytes of the aligned word up to the address into the high end of the register, LWR those from the address on
into the low end; the rest comes from the pending or present value (R309, R310). -/
def Obligations.UnalignedLoadMerge : Prop :=
  ∀ (s : State) (rt base : RegNum) (off : BitVec 16) (w : Word),
    readableValue (effectiveAddress base off s &&& 0xFFFFFFFC#32) .word s = some w →
    let k := (effectiveAddress base off s).toNat % 4
    (∃ t, exec (.lwl rt base off) s = .next t ∧
      Loaded rt (BitVec.ofNat 32 (mergeBase rt s % 2 ^ (24 - 8 * k) + w.toNat % 2 ^ (8 * k + 8) * 2 ^ (24 - 8 * k))) s t) ∧
    (∃ t, exec (.lwr rt base off) s = .next t ∧
      Loaded rt (BitVec.ofNat 32 (mergeBase rt s / 2 ^ (32 - 8 * k) * 2 ^ (32 - 8 * k) + w.toNat / 2 ^ (8 * k))) s t)

/-- A load (LB, LBU, LH, LHU, LW, LWL, LWR, LWC2) that goes well adds its cost to `pending_ticks`, and makes exactly one bus call
where it goes to the bus and none elsewhere; only an isolated load takes a draw. The answers and the draw counter are the
model's own form (log entries 5, 8), and the cost of a cache-control access under SR.Isc and of a KSEG1 access in true-cache mode
is read from the spec by inference (log entry 10) (R302; 20_memory.md R104, R121, R140, R161). -/
def Obligations.LoadCostAndBusCall : Prop :=
  ∀ (i : Instr) (s : State) (a : Access) (v : Word), dataAccess i s = some a → a.store = false → copAllows i s →
    readableValue a.address a.width s = some v →
    ∃ t, exec i s = .next t ∧
      t.timing = { s.timing with pendingTicks := s.timing.pendingTicks + readCost a.address a.width s } ∧
      t.bus =
        (match dataTarget a.address a.width s with
        | .bus p => { mem := s.bus.mem, answers := s.bus.answers.tail, log := .read .data p a.width (some v) :: s.bus.log }
        | _ => s.bus) ∧
      t.draws = (if dataTarget a.address a.width s = .isolatedCache then s.draws + 1 else s.draws)

/-- A store (SB, SH, SW, SWL, SWR, SWC2) that goes to the bus and is taken there completes, with one bus call, at its cost.
Answered as RAM it writes exactly its enabled bytes; taken by a device it changes no byte of memory (log entry 26). Every other
byte of memory and everything else is unchanged. The list of answers is the model's own form (log entry 5); the cost of SWL and
SWR as a 4-byte masked write, and of a KSEG1 store in true-cache mode, is read from the spec by inference (log entry 10) (R302,
R312 to R316; 44_system.md R358; 20_memory.md R131, R132). -/
def Obligations.StoresReachRam : Prop :=
  ∀ (i : Instr) (s : State) (a : Access) (p : Word), dataAccess i s = some a → a.store = true → copAllows i s →
    dataTarget a.address a.width s = .bus p → (nextAnswer s = .ram ∨ ∃ d, nextAnswer s = .device d) → s.bus.mem.wf = true →
    ∃ t, exec i s = .next t ∧
      (∀ x, readByte t.bus.mem x =
        if nextAnswer s = .ram ∧ p.toNat ≤ x ∧ x < p.toNat + 4 ∧ (storeMask i s).getLsbD (x - p.toNat) = true
        then wordByte (storeWord i s) (x - p.toNat) else readByte s.bus.mem x) ∧
      t.bus.answers = s.bus.answers.tail ∧ t.bus.log = storeEvent i p a.width s true :: s.bus.log ∧
      t.timing.pendingTicks = (readyToStore i s).timing.pendingTicks + busAccessCost (storeKind i) p a.width s ∧
      t = { s with bus := t.bus, timing := { s.timing with pendingTicks := t.timing.pendingTicks } }

/-- The bytes SWL and SWR write, in terms of the register: SWL puts its high bytes at the word's start up to the address, SWR
its low bytes from the address up to the word's end (R315, R316). -/
def Obligations.UnalignedStoreBytes : Prop :=
  ∀ (s : State) (rt base : RegNum) (off : BitVec 16) (p : Word),
    dataTarget (effectiveAddress base off s &&& 0xFFFFFFFC#32) .word s = .bus p → nextAnswer s = .ram → s.bus.mem.wf = true →
    let k := (effectiveAddress base off s).toNat % 4
    (∃ t, exec (.swl rt base off) s = .next t ∧
      (∀ n, n ≤ k → readByte t.bus.mem (p.toNat + n) = wordByte (readReg rt s) (3 - k + n)) ∧
      ∀ x, (x < p.toNat ∨ p.toNat + k < x) → readByte t.bus.mem x = readByte s.bus.mem x) ∧
    (∃ t, exec (.swr rt base off) s = .next t ∧
      (∀ n, k ≤ n → n < 4 → readByte t.bus.mem (p.toNat + n) = wordByte (readReg rt s) (n - k)) ∧
      ∀ x, (x < p.toNat + k ∨ p.toNat + 4 ≤ x) → readByte t.bus.mem x = readByte s.bus.mem x)

/-- A store into the active scratchpad writes exactly its enabled bytes, makes no bus call and costs nothing; everything else is
unchanged (R122, R302). -/
def Obligations.StoresReachScratchpad : Prop :=
  ∀ (i : Instr) (s : State) (a : Access) (o : BitVec 10), dataAccess i s = some a → a.store = true → copAllows i s →
    dataTarget a.address a.width s = .scratchpad o →
    ∃ t, exec i s = .next t ∧
      (∀ x : BitVec 10, t.scratchpad.read x =
        if (x - o).toNat < 4 ∧ (storeMask i s).getLsbD (x - o).toNat = true
        then wordByte (storeWord i s) (x - o).toNat else s.scratchpad.read x) ∧
      t = { readyToStore i s with scratchpad := t.scratchpad }

/-- A whole-word store to the cache-control register replaces its 32 bits; clearing `icache_enable` gives every tag the value
0xF, and changes no cached word. Its cost under SR.Isc is read from the spec by inference (log entry 10) (20_memory.md R140 to
R142; R302). -/
def Obligations.StoresReachCacheControl : Prop :=
  ∀ (i : Instr) (s : State) (a : Access), dataAccess i s = some a → a.store = true → copAllows i s →
    dataTarget a.address a.width s = .cacheControl → storeMask i s = 0b1111#4 →
    ∃ t, exec i s = .next t ∧ t.cacheControl = storeWord i s ∧ t.icache.data = s.icache.data ∧
      (∀ l, t.icache.tags.read l =
        if s.cacheControl.getLsbD 11 = true ∧ (storeWord i s).getLsbD 11 = false then 0xF#32 else s.icache.tags.read l) ∧
      t.timing.pendingTicks = (readyToStore i s).timing.pendingTicks + Config.tCacheCtl ∧
      t = { s with
        cacheControl := t.cacheControl, icache := t.icache
        timing := { s.timing with pendingTicks := t.timing.pendingTicks } }

/-- An isolated store invalidates its cache line and writes one cached word, the stored word or, for a narrower store, a draw
(a free value, log entry 8); it makes no bus call and no scratchpad write (20_memory.md R160). -/
def Obligations.IsolatedStoresInvalidate : Prop :=
  ∀ (i : Instr) (s : State) (a : Access), dataAccess i s = some a → a.store = true → copAllows i s →
    dataTarget a.address a.width s = .isolatedCache →
    let line := BitVec.ofNat 8 (a.address.toNat / 16)
    ∃ t, exec i s = .next t ∧
      (∀ l, t.icache.tags.read l =
        if l = line then BitVec.ofNat 32 (a.address.toNat % 2 ^ 29 / 16 * 16 + 15) else s.icache.tags.read l) ∧
      (∀ n : BitVec 10, t.icache.data.read n =
        if n = BitVec.ofNat 10 (a.address.toNat / 4)
        then (if storeMask i s = 0b1111#4 then storeWord i s else Config.freeWord s.draws) else s.icache.data.read n) ∧
      t.draws = (if storeMask i s = 0b1111#4 then s.draws else s.draws + 1) ∧
      t.timing.pendingTicks = (readyToStore i s).timing.pendingTicks + Config.tIsolated ∧
      t = { s with
        icache := t.icache, draws := t.draws, timing := { s.timing with pendingTicks := t.timing.pendingTicks } }

/-- Where a data access goes, by its address, its width, SR and the cache-control register, in the order of 20_memory.md R130
(R101, R102, R103, R112, R120, R124, R140, R160 to R162). -/
def Obligations.DataTargetByAddress : Prop :=
  ∀ (v : Word) (n : Width) (s : State),
    (dataTarget v n s = .addressError ↔ v.toNat % n.bytes ≠ 0 ∨ (s.cop0.sr.getLsbD 1 = true ∧ 0x80000000 ≤ v.toNat)) ∧
    (v.toNat % n.bytes = 0 → (s.cop0.sr.getLsbD 1 = true → v.toNat < 0x80000000) →
      (0x20000000 ≤ v.toNat → v.toNat < 0x80000000 → dataTarget v n s = .unmapped) ∧
      (0xC0000000 ≤ v.toNat → (v.toNat < 0xFFFE0130 ∨ 0xFFFE0134 ≤ v.toNat) → dataTarget v n s = .unmapped) ∧
      (0xFFFE0130 ≤ v.toNat → v.toNat < 0xFFFE0134 →
        dataTarget v n s = if n = .word then .cacheControl else .cacheControlPart) ∧
      ((v.toNat < 0x20000000 ∨ (0x80000000 ≤ v.toNat ∧ v.toNat < 0xC0000000)) →
        dataTarget v n s =
          if s.cop0.sr.getLsbD 16 = true then (if s.cop0.sr.getLsbD 17 = true then .swappedIsolation else .isolatedCache)
          else if v.toNat < 0xA0000000 ∧ s.cacheControl.getLsbD 3 = true ∧ s.cacheControl.getLsbD 7 = true ∧
            0x1F800000 ≤ v.toNat % 2 ^ 29 ∧ v.toNat % 2 ^ 29 < 0x1F800400 then .scratchpad (BitVec.ofNat 10 v.toNat)
          else .bus (BitVec.ofNat 32 (v.toNat % 2 ^ 29))))

/-- Bus memory and the scratchpad are little-endian: the lowest address holds the low byte (20_memory.md R110, R121). -/
def Obligations.LittleEndianValues : Prop :=
  (∀ (m : Memory) (p : Nat),
    (readBytes m p .byte).toNat = (readByte m p).toNat ∧
    (readBytes m p .half).toNat = (readByte m p).toNat + 2 ^ 8 * (readByte m (p + 1)).toNat ∧
    (readBytes m p .word).toNat = (readByte m p).toNat + 2 ^ 8 * (readByte m (p + 1)).toNat +
      2 ^ 16 * (readByte m (p + 2)).toNat + 2 ^ 24 * (readByte m (p + 3)).toNat) ∧
  (∀ (b : Bank Byte 10) (o : BitVec 10),
    (readScratch b o .byte).toNat = (b.read o).toNat ∧
    (readScratch b o .half).toNat = (b.read o).toNat + 2 ^ 8 * (b.read (o + 1#10)).toNat ∧
    (readScratch b o .word).toNat = (b.read o).toNat + 2 ^ 8 * (b.read (o + 1#10)).toNat +
      2 ^ 16 * (b.read (o + 2#10)).toNat + 2 ^ 24 * (b.read (o + 3#10)).toNat)

/-- A misaligned access, or one to the upper half of the address space in user mode, raises AdEL (loads) or AdES (stores) with
BadVaddr the address of the access; nothing is loaded or stored (R301; 20_memory.md R103, R112). For LWL, LWR, SWL and SWR that
address is the aligned one, as R309 and R315 say (log entry 11). -/
def Obligations.DataAddressErrors : Prop :=
  ∀ (i : Instr) (s : State) (a : Access), dataAccess i s = some a → copAllows i s → BusReplies s →
    dataTarget a.address a.width s = .addressError →
    ∃ t, exec i s = .next t ∧
      Raised (if a.store = true then 5 else 4) (reportedCop s)
        { readyToStore i s with cop0 := { s.cop0 with badVaddr := a.address } } t

/-- A data access to an unmapped address raises DBE without a bus call; one the bus answers with an error raises DBE after the
call and its cost; besides it only the fetch at the vector uses the bus. The list of answers is the model's own form (log entry
5), and the cost of a masked store and of a KSEG1 access in true-cache mode is an inference (log entry 10). Neither loads nor
stores anything (R301, R302; 20_memory.md R102, R105). -/
def Obligations.DataBusErrors : Prop :=
  ∀ (i : Instr) (s : State) (a : Access), dataAccess i s = some a → copAllows i s → BusReplies s →
    (dataTarget a.address a.width s = .unmapped →
      ∃ t, exec i s = .next t ∧ Raised 7 (reportedCop s) (readyToStore i s) t) ∧
    (∀ p, dataTarget a.address a.width s = .bus p → nextAnswer s = .error →
      ∃ t, exec i s = .next t ∧
        Raised 7 (reportedCop s)
          { s with
            bus :=
              { mem := s.bus.mem
                answers := s.bus.answers.tail
                log := (if a.store = true then storeEvent i p a.width s false else .read .data p a.width none) :: s.bus.log }
            flags := { s.flags with busError := true }
            timing :=
              { s.timing with
                pendingTicks := (readyToStore i s).timing.pendingTicks +
                  busAccessCost (if a.store = true then storeKind i else .read) p a.width s } } t)

/-- The refusals of data accesses and of steps: swapped isolation, a part of the cache-control register, an armed hardware
breakpoint, and a machine already refused, which answers its refusal again (log entry 15) (20_memory.md R132, R140, R162;
60_exceptions.md R447; 10_state.md R52). -/
def Obligations.RefusedAccessesAndSteps : Prop :=
  (∀ (i : Instr) (s : State) (a : Access), dataAccess i s = some a → copAllows i s →
    (dataTarget a.address a.width s = .swappedIsolation → exec i s = .refused .swappedIsolation) ∧
    (dataTarget a.address a.width s = .cacheControlPart → exec i s = .refused .subwordCacheControl) ∧
    (dataTarget a.address a.width s = .cacheControl → a.store = true → storeMask i s ≠ 0b1111#4 →
      exec i s = .refused .subwordCacheControl)) ∧
  (∀ s : State, (∀ r, s.refused = some r → step s = .refused r) ∧
    (s.refused = none → s.cop0.dcic.toNat / 2 ^ 23 ≠ 0 → step s = .refused .hardwareBreakpointsArmed))

/-! ### Traps, COP0 and COP2 (44_system.md) -/

/-- SYSCALL raises Sys and BREAK raises Bp, always, in either mode, whatever the code field (R331, R332). -/
def Obligations.SyscallAndBreakTrap : Prop :=
  ∀ (s : State) (code : BitVec 20), BusReplies s →
    (∃ t, exec (.syscall code) s = .next t ∧ Raised 8 (reportedCop s) s t) ∧
    (∃ t, exec (.breakTrap code) s = .next t ∧ Raised 9 (reportedCop s) s t)

/-- MFC0 stages the COP0 register of its number, PRID for 15, a draw (a free value, log entry 8) for the unimplemented 0, 1, 2, 4
and 10, and raises RI for 16 to 31 (R333, R336). -/
def Obligations.MoveFromCop0 : Prop :=
  ∀ (s : State) (rt rd : RegNum), cop0Allowed s →
    (rd.toNat < 16 → ∃ t, exec (.mfc0 rt rd) s = .next t ∧
      Loaded rt
        (match rd.toNat with
        | 3 => s.cop0.bpc
        | 5 => s.cop0.bda
        | 6 => s.cop0.tar
        | 7 => s.cop0.dcic
        | 8 => s.cop0.badVaddr
        | 9 => s.cop0.bdam
        | 11 => s.cop0.bpcm
        | 12 => s.cop0.sr
        | 13 => s.cop0.cause
        | 14 => s.cop0.epc
        | 15 => 0x00000002#32
        | _ => Config.freeWord s.draws) s t ∧
      t.bus = s.bus ∧ t.timing = s.timing ∧
      t.draws = (if rd.toNat ∈ [0, 1, 2, 4, 10] then s.draws + 1 else s.draws)) ∧
    (16 ≤ rd.toNat → BusReplies s → ∃ t, exec (.mfc0 rt rd) s = .next t ∧ Raised 10 (reportedCop s) s t)

/-- MTC0 writes the COP0 register of its number under that register's mask, at once; read-only and unimplemented registers
ignore the write (R334, R337). -/
def Obligations.MoveToCop0 : Prop :=
  ∀ (s : State) (rt rd : RegNum), cop0Allowed s →
    exec (.mtc0 rt rd) s = .next
      (match rd.toNat with
      | 3 => { s with cop0 := { s.cop0 with bpc := readReg rt s } }
      | 5 => { s with cop0 := { s.cop0 with bda := readReg rt s } }
      | 7 => { s with cop0 := { s.cop0 with dcic := (s.cop0.dcic &&& ~~~0xFF80F03F#32) ||| (readReg rt s &&& 0xFF80F03F#32) } }
      | 9 => { s with cop0 := { s.cop0 with bdam := readReg rt s } }
      | 11 => { s with cop0 := { s.cop0 with bpcm := readReg rt s } }
      | 12 => { s with cop0 := { s.cop0 with sr := (s.cop0.sr &&& ~~~0xF27FFF3F#32) ||| (readReg rt s &&& 0xF27FFF3F#32) } }
      | 13 => { s with cop0 := { s.cop0 with cause := (s.cop0.cause &&& ~~~0x00000300#32) ||| (readReg rt s &&& 0x00000300#32) } }
      | _ => s)

/-- RFE pops the mode stack: bits 3:0 of SR become bits 5:2, bits 5:4 and all others stay; control does not move (R335). -/
def Obligations.ReturnFromException : Prop :=
  ∀ s : State, cop0Allowed s →
    ∃ t, exec .rfe s = .next t ∧ t.cop0.sr.extractLsb' 0 4 = s.cop0.sr.extractLsb' 2 4 ∧
      t.cop0.sr.extractLsb' 4 28 = s.cop0.sr.extractLsb' 4 28 ∧ t = { s with cop0 := { s.cop0 with sr := t.cop0.sr } }

/-- An instruction of an unusable coprocessor raises CpU with CE the coprocessor's number, before it reads or accesses anything:
no wait for the GTE, and no bus call but the fetch at the vector (R330, R369). -/
def Obligations.CoprocessorUnusable : Prop :=
  ∀ (i : Instr) (z : BitVec 2) (s : State), coprocessorOf i = some z → ¬ copAllowed z s → BusReplies s →
    ∃ t, exec i s = .next t ∧ Raised 11 z s t

/-- MFC2 and CFC2 wait for the GTE's completion tick and stage the GTE register; MTC2 and CTC2 write it at once, without a wait
(R351 to R354; 70_reset_and_hazards.md R544). -/
def Obligations.GteTransfers : Prop :=
  ∀ (s : State) (rt : RegNum) (gr : GteReg), s.cop0.sr.getLsbD 30 = true →
    (∀ i, (i = .mfc2 rt gr ∨ i = .cfc2 rt gr) →
      ∃ t, exec i s = .next t ∧ Loaded rt (Config.gteRead s.gte gr) s t ∧ t.bus = s.bus ∧ t.draws = s.draws ∧
        t.timing.pendingTicks = max s.timing.pendingTicks s.timing.gteCompletionTick) ∧
    exec (.mtc2 rt gr) s = .next { s with gte := Config.gteWrite s.gte gr (readReg rt s) } ∧
    exec (.ctc2 rt gr) s = .next { s with gte := Config.gteWrite s.gte gr (readReg rt s) }

/-- A GTE command waits for the one before it, computes at issue and sets the completion tick (R356; 70_reset_and_hazards.md
R543, R544). -/
def Obligations.GteCommandIssue : Prop :=
  ∀ (s : State) (cmd : BitVec 25), s.cop0.sr.getLsbD 30 = true →
    exec (.cop2 cmd) s = .next
      { s with
        gte := Config.gteExecute s.gte cmd
        timing :=
          { s.timing with
            pendingTicks := max s.timing.pendingTicks s.timing.gteCompletionTick
            gteCompletionTick := max s.timing.pendingTicks s.timing.gteCompletionTick + Config.gteLatency cmd } }

/-- LWC2 writes the word read to the GTE register at once; no general register and no load-delay register changes (R357). -/
def Obligations.LoadWordToGte : Prop :=
  ∀ (s : State) (gr : GteReg) (base : RegNum) (off : BitVec 16) (v : Word), s.cop0.sr.getLsbD 30 = true →
    readableValue (effectiveAddress base off s) .word s = some v →
    ∃ t, exec (.lwc2 gr base off) s = .next t ∧ t.gte = Config.gteWrite s.gte gr v ∧ t.bus.mem = s.bus.mem ∧
      t = { s with
        gte := t.gte, bus := t.bus, draws := t.draws, timing := { s.timing with pendingTicks := t.timing.pendingTicks } }

/-! ### Decoding (30_encoding.md) -/

/-- A current word that is no instruction of the table: reserved primary opcodes and unassigned SPECIAL words raise RI;
unassigned COP0 words raise RI, unassigned COP2 words and absent coprocessors are refused, each only where the coprocessor is
usable, and raise CpU where it is not (R182, R184 to R187, R190; 44_system.md R355, R368). -/
def Obligations.WordsOutsideTheTable : Prop :=
  ∀ (s : State) (w : Word), s.pipe.currentInstruction = .word w → BusReplies s →
    let op := w.toNat / 2 ^ 26
    let rs := w.toNat / 2 ^ 21 % 32
    let co := w.getLsbD 25
    (op ∈ [0x14, 0x15, 0x16, 0x17, 0x18, 0x19, 0x1A, 0x1B, 0x1C, 0x1D, 0x1E, 0x1F, 0x27, 0x2C, 0x2D, 0x2F, 0x34, 0x35, 0x36,
        0x37, 0x3C, 0x3D, 0x3E, 0x3F] →
      ∃ t, executeCurrent s = .next t ∧ Raised 10 (reportedCop s) s t) ∧
    (op = 0 → w.toNat % 64 ∈ [0x01, 0x05, 0x0A, 0x0B, 0x0E, 0x0F, 0x14, 0x15, 0x16, 0x17, 0x1C, 0x1D, 0x1E, 0x1F, 0x28, 0x29,
        0x2C, 0x2D, 0x2E, 0x2F, 0x30, 0x31, 0x32, 0x33, 0x34, 0x35, 0x36, 0x37, 0x38, 0x39, 0x3A, 0x3B, 0x3C, 0x3D, 0x3E, 0x3F] →
      ∃ t, executeCurrent s = .next t ∧ Raised 10 (reportedCop s) s t) ∧
    (op = 0x10 → (co = true ∧ w.toNat % 64 ≠ 0x10) ∨ (co = false ∧ rs ≠ 0x00 ∧ rs ≠ 0x04) →
      (cop0Allowed s → ∃ t, executeCurrent s = .next t ∧ Raised 10 (reportedCop s) s t) ∧
      (¬ cop0Allowed s → ∃ t, executeCurrent s = .next t ∧ Raised 11 0#2 s t)) ∧
    (op = 0x12 → co = false → rs ≠ 0x00 → rs ≠ 0x02 → rs ≠ 0x04 → rs ≠ 0x06 →
      (copAllowed 2#2 s → executeCurrent s = .refused .unassignedCop2) ∧
      (¬ copAllowed 2#2 s → ∃ t, executeCurrent s = .next t ∧ Raised 11 2#2 s t)) ∧
    (op ∈ [0x11, 0x13, 0x30, 0x31, 0x33, 0x38, 0x39, 0x3B] →
      (copAllowed (BitVec.ofNat 2 op) s → executeCurrent s = .refused (.absentCoprocessor (BitVec.ofNat 2 op))) ∧
      (¬ copAllowed (BitVec.ofNat 2 op) s → ∃ t, executeCurrent s = .next t ∧ Raised 11 (BitVec.ofNat 2 op) s t))

/-- Every REGIMM word is a branch: bit 16 selects the condition, and it links exactly when bits 20:17 are 0b1000 (R179). -/
def Obligations.RegimmSelectsBranch : Prop :=
  ∀ w : Word, w.toNat / 2 ^ 26 = 1 →
    let rs := BitVec.ofNat 5 (w.toNat / 2 ^ 21)
    let imm := BitVec.ofNat 16 w.toNat
    decodeWord w = .ok
      (if w.toNat / 2 ^ 17 % 16 = 8 then (if w.getLsbD 16 = true then .bgezal rs imm else .bltzal rs imm)
      else if w.getLsbD 16 = true then .bgez rs imm else .bltz rs imm)

/-- Decoding the encoded bytes of a well-formed instruction gives it back, with the bytes that follow it. -/
def Obligations.DecodeEncodeRoundTrip : Prop :=
  ∀ (i : Instr) (rest : List Byte), i.wellFormed = true → decode (encodeBytes i ++ rest) = .ok (i, rest)

/-- Whatever a word decodes to is well formed, and encoding it again and decoding gives it back, so the bits the encoder drops are
ones the decoder ignores (R176, R183). -/
def Obligations.DecodedInstructionsWellFormed : Prop :=
  ∀ (w : Word) (i : Instr), decodeWord w = .ok i → i.wellFormed = true ∧ decodeWord (encode i) = .ok i

/-- Words written out from the spec's encodings, one of each family, decode to the instruction they stand for (R171 to R181). -/
def Obligations.SampleWordsDecode : Prop :=
  decodeWord 0b000000_00001_00010_00011_00000_100000#32 = .ok (.add 3#5 1#5 2#5) ∧
  decodeWord 0b000000_00000_00001_00010_00100_000000#32 = .ok (.sll 2#5 1#5 4#5) ∧
  decodeWord 0b001001_00000_01000_1111111111111111#32 = .ok (.addiu 8#5 0#5 0xFFFF#16) ∧
  decodeWord 0b000000_00001_00010_00000_00000_011000#32 = .ok (.mult 1#5 2#5) ∧
  decodeWord 0b000100_00001_00010_0000000000000011#32 = .ok (.beq 1#5 2#5 3#16) ∧
  decodeWord 0b000001_00000_10001_0000000000000100#32 = .ok (.bgezal 0#5 4#16) ∧
  decodeWord 0b000010_00000000000000100000000000#32 = .ok (.j 0x800#26) ∧
  decodeWord 0b000000_00100_00000_11111_00000_001001#32 = .ok (.jalr 31#5 4#5) ∧
  decodeWord 0b100011_00100_00010_0000000000000100#32 = .ok (.lw 2#5 4#5 4#16) ∧
  decodeWord 0b101011_01000_01001_0000000100110000#32 = .ok (.sw 9#5 8#5 0x130#16) ∧
  decodeWord 0b010000_00100_01000_01100_00000_000000#32 = .ok (.mtc0 8#5 12#5) ∧
  decodeWord 0b010000_1_0000000000000000000_010000#32 = .ok .rfe ∧
  decodeWord 0b010010_00010_00010_11111_00000_000000#32 = .ok (.cfc2 2#5 63#6) ∧
  decodeWord 0b110010_00100_00000_0000000000000000#32 = .ok (.lwc2 0#6 4#5 0#16)

/-! ### The step, interrupts and fetch (70_reset_and_hazards.md, 60_exceptions.md, 20_memory.md) -/

/-- With no interrupt due, a step fetches the word at `npc`, moves the slots on, and executes the instruction the next slot held:
what `exec` answers, with the load-delay update as the last action (R501, R503). -/
def Obligations.StepRunsDecodedInstruction : Prop :=
  ∀ (s : State) (w : Word) (i : Instr) (rest : List Byte) (x : Slot) (f : State), MayStep s → NoInterruptDue s →
    s.pipe.nextInstruction = .word w → decode (bytesOfWord w ++ rest) = .ok (i, rest) →
    fetch s.pipe.npc (shiftSlots (charge 1 s)) = .next (x, f) →
    let u : State :=
      { f with
        pipe :=
          { pc := s.pipe.npc
            npc := s.pipe.npc + 4#32
            currentInstruction := .word w
            currentInstructionPc := s.pipe.pc
            currentInBranchDelaySlot := s.pipe.nextInstructionIsBranchDelaySlot
            currentBranchWasTaken := s.pipe.branchWasTaken
            nextInstruction := x
            nextInstructionIsBranchDelaySlot := false
            branchWasTaken := false } }
    step s = andThen (exec i u) fun e => .next (updateLoadDelay e)

/-- An interrupt is due exactly when IEc is 1 and an unmasked line is pending, and is put off exactly by a GTE command in the next
slot; one that is taken enters the handler with the next instruction as the interrupted one, and the same step runs the
handler's first slot: the word or marker that the fetch at the vector returned (60_exceptions.md R413 to R416). -/
def Obligations.InterruptEntry : Prop :=
  ∀ s : State,
    (interruptPending s = true ↔ s.cop0.sr.getLsbD 0 = true ∧
      ∃ k, k < 8 ∧ s.cop0.cause.getLsbD (8 + k) = true ∧ s.cop0.sr.getLsbD (8 + k) = true) ∧
    (interruptDeferred s.pipe.nextInstruction = true ↔
      ∃ w, s.pipe.nextInstruction = .word w ∧ w.toNat / 2 ^ 26 = 0x12 ∧ w.getLsbD 25 = true) ∧
    (MayStep s → ¬ NoInterruptDue s → BusReplies s →
      ∃ u, Entered 0 s.pipe.pc s.pipe.nextInstructionIsBranchDelaySlot s.pipe.branchWasTaken
          (match s.pipe.nextInstruction with
          | .word w => w.extractLsb' 26 2
          | .fetchFault _ _ => 0#2) s.pipe.npc s u ∧
        step s = andThen (prefetch (shiftSlots (charge 1 u))) fun v =>
          andThen (executeCurrent v) fun e => .next (updateLoadDelay e))

/-- A fetch-fault marker that becomes current raises its exception: IBE, or AdEL with BadVaddr the marker's address
(20_memory.md R152). -/
def Obligations.FetchFaultTaken : Prop :=
  ∀ (s : State) (a : Word), BusReplies s →
    (s.pipe.currentInstruction = .fetchFault .ibe a → ∃ t, executeCurrent s = .next t ∧ Raised 6 0#2 s t) ∧
    (s.pipe.currentInstruction = .fetchFault .adel a →
      ∃ t, executeCurrent s = .next t ∧ Raised 4 0#2 { s with cop0 := { s.cop0 with badVaddr := a } } t)

/-- A fetch from a misaligned address, or from the upper half in user mode, gives an AdEL marker; one from an unmapped segment an
IBE marker; neither changes anything (20_memory.md R102, R103, R150). -/
def Obligations.FetchFaultMarkers : Prop :=
  ∀ (v : Word) (s : State),
    (v.toNat % 4 ≠ 0 ∨ (s.cop0.sr.getLsbD 1 = true ∧ 0x80000000 ≤ v.toNat) → fetch v s = .next (.fetchFault .adel v, s)) ∧
    (v.toNat % 4 = 0 → (0x20000000 ≤ v.toNat ∧ v.toNat < 0x80000000) ∨
        (0xC0000000 ≤ v.toNat ∧ s.cop0.sr.getLsbD 1 = false) → fetch v s = .next (.fetchFault .ibe v, s))

/-- A fetch that does not go through the cache is one bus read of the current word, at its cost, classified a miss; a bus error
gives an IBE marker and sets `bus_error`, as R402 is read for a fetch (log entry 18). The list of answers is the model's own form
(log entry 5) (20_memory.md R150, R151; 60_exceptions.md R402). -/
def Obligations.UncachedFetchReadsBus : Prop :=
  ∀ (v : Word) (s : State), fetchable v s → ¬ cacheable v s →
    let p := BitVec.ofNat 32 (v.toNat % 2 ^ 29)
    let after (r : Option Word) : State :=
      { s with
        bus := { mem := s.bus.mem, answers := s.bus.answers.tail, log := .read .fetch p .word r :: s.bus.log }
        timing := { s.timing with pendingTicks := s.timing.pendingTicks + Config.tFetchUncached p } }
    fetchClass v s = some .miss ∧
    (nextAnswer s = .ram → fetch v s = .next (.word (readBytes s.bus.mem p.toNat .word), after (some (readBytes s.bus.mem p.toNat .word)))) ∧
    (∀ d, nextAnswer s = .device d → fetch v s = .next (.word d, after (some d))) ∧
    (nextAnswer s = .error →
      fetch v s = .next (.fetchFault .ibe v, { after none with flags := { s.flags with busError := true } }))

/-- Cache fill idempotence: a cached fetch that returned a word leaves the word in the cache, so the same fetch again returns it
from the cache without a bus call; a fill costs strictly more than a hit, and a hit changes no cache state (20_memory.md R154,
R155, R157). -/
def Obligations.CacheFillThenHit : Prop :=
  ∀ (v w : Word) (s t : State), fetchable v s → cacheable v s → fetch v s = .next (.word w, t) →
    fetchClass v t = some .hit ∧
    fetch v t = .next (.word w,
      { t with timing := { t.timing with pendingTicks := t.timing.pendingTicks + Config.tIcacheHit } }) ∧
    (fetchClass v s = some .miss → s.timing.pendingTicks + Config.tIcacheHit < t.timing.pendingTicks) ∧
    (fetchClass v s = some .hit →
      t = { s with timing := { s.timing with pendingTicks := s.timing.pendingTicks + Config.tIcacheHit } })

/-- A fill from RAM: the words from the one asked for to the end of the line are read and cached, the words before it are left
invalid, and no other line changes. An empty list of answers is RAM only (log entry 5) (20_memory.md R153, R155). -/
def Obligations.CacheFillFromRam : Prop :=
  ∀ (v : Word) (s : State), fetchable v s → cacheable v s → fetchClass v s = some .miss → s.bus.answers = [] →
    let p := v.toNat % 2 ^ 29
    let line := BitVec.ofNat 8 (v.toNat / 16)
    let k := v.toNat / 4 % 4
    ∃ t, fetch v s = .next (.word (readBytes s.bus.mem p .word), t) ∧
      (∀ l, t.icache.tags.read l = if l = line then BitVec.ofNat 32 (p / 16 * 16 + (2 ^ k - 1)) else s.icache.tags.read l) ∧
      (∀ n : BitVec 10, t.icache.data.read n =
        if n.toNat / 4 = line.toNat ∧ k ≤ n.toNat % 4 then readBytes s.bus.mem (p / 16 * 16 + 4 * (n.toNat % 4)) .word
        else s.icache.data.read n) ∧
      t.timing.pendingTicks = s.timing.pendingTicks + Config.tIcacheFill (4 - k) (BitVec.ofNat 32 p) ∧
      t.bus.log.length = s.bus.log.length + (4 - k) ∧ t.bus.mem = s.bus.mem ∧
      t = { s with icache := t.icache, bus := t.bus, timing := { s.timing with pendingTicks := t.timing.pendingTicks } }

/-! ### Laws of the whole machine -/

/-- The load-delay law. In the step after a load to `r`, the executing instruction reads every register as it was before the
load (only LWL and LWR see the pending value); after that step, without an exception, `r` holds the loaded value, unless the
instruction itself wrote `r` (then its value) or is itself a load to `r` (then the value before both loads)
(70_reset_and_hazards.md R506, R511, R512). -/
def Obligations.LoadDelayLaw : Prop :=
  ∀ (s t : State) (r : RegNum) (w : Word) (i : Instr), step s = .next t → NoInterruptDue s → t.flags.exceptionRaised = false →
    s.pipe.nextInstruction = .word w → decodeWord w = .ok i → s.delay.reg = some r → r ≠ 0#5 →
    ∃ u e, beginStep s = .next u ∧ exec i u = .next e ∧
      (∀ q, readReg q u = readReg q s) ∧
      readReg r t =
        if immediateDest i = some r then readReg r e
        else if delayedDest i = some r then readReg r s else s.delay.value

/-- The branch-delay law. After a step that executed a branch or jump, the following step, with no interrupt and no exception,
executes the instruction in its delay slot exactly once, and the one after it comes from the branch's destination
(70_reset_and_hazards.md R520 to R523). -/
def Obligations.BranchDelayLaw : Prop :=
  ∀ (s t v : State) (w : Word) (i : Instr), step s = .next t → NoInterruptDue s → t.flags.exceptionRaised = false →
    s.pipe.nextInstruction = .word w → decodeWord w = .ok i → isBranch i = true →
    step t = .next v → NoInterruptDue t → v.flags.exceptionRaised = false →
    t.pipe.pc = s.pipe.npc ∧ t.pipe.nextInstructionIsBranchDelaySlot = true ∧
    (t.pipe.branchWasTaken = false → t.pipe.npc = s.pipe.npc + 4#32) ∧
    v.pipe.currentInstruction = t.pipe.nextInstruction ∧ v.pipe.currentInstructionPc = s.pipe.npc ∧
    v.pipe.currentInBranchDelaySlot = true ∧ v.pipe.currentBranchWasTaken = t.pipe.branchWasTaken ∧
    v.pipe.pc = t.pipe.npc

/-- Every step that answers a next state keeps the invariant `Inv` of Sys2Proof/Safety.lean: memory in its canonical form, the
reserved bits of SR, CAUSE and DCIC 0, r0 never pending, nothing staged between steps, words only from aligned addresses, every
cache line invalid while the cache is off. -/
def Obligations.StepKeepsInvariant : Prop := ∀ s t : State, Inv s → step s = .next t → Inv t

/-- The invariant holds at reset. -/
def Obligations.ResetMeetsInvariant : Prop := Inv State.reset

/-- The values the spec gives for reset (R530, R531; 10_state.md R35 to R50): control at the reset vector, kernel mode, interrupts
off, BEV set, no coprocessor enabled, caches off and invalid, nothing pending; and `Reset()` gives them from any state. The next
slot is what the prefetch at the vector returns, the word or an IBE marker, and that prefetch is the one bus call, a miss. The
list of answers, what unlisted memory reads as, `bus_error` of a fetch and the reset state as the one after its prefetch are the
model's own (log entries 5, 6, 18, 13). -/
def Obligations.ResetValues : Prop :=
  ∀ s : State, BusReplies s → ∃ t, machineReset s = .next t ∧
    t.pipe.nextInstruction = (match resetWord s with
      | some w => .word w
      | none => .fetchFault .ibe 0xBFC00000#32) ∧
    t.bus = { mem := s.bus.mem, answers := s.bus.answers.tail, log := .read .fetch 0x1FC00000#32 .word (resetWord s) :: s.bus.log } ∧
    t.flags.busError = (resetWord s).isNone ∧
    State.reset.pipe.nextInstruction = .word (readBytes [] 0x1FC00000 .word) ∧
    State.reset.bus =
      { mem := [], answers := [], log := [.read .fetch 0x1FC00000#32 .word (some (readBytes [] 0x1FC00000 .word))] } ∧
    ∀ x : State, x = t ∨ x = State.reset →
      x.pipe.pc = 0xBFC00000#32 ∧ x.pipe.npc = 0xBFC00004#32 ∧ x.pipe.currentInstruction = .word 0#32 ∧
      x.pipe.currentInstructionPc = 0xBFC00000#32 ∧ x.pipe.currentInBranchDelaySlot = false ∧
      x.pipe.currentBranchWasTaken = false ∧ x.pipe.nextInstructionIsBranchDelaySlot = false ∧ x.pipe.branchWasTaken = false ∧
      x.delay = { reg := none, value := 0#32, nextReg := none, nextValue := 0#32 } ∧
      x.cop0.sr = 0x00400000#32 ∧ x.cop0.cause = 0#32 ∧ x.cop0.dcic = 0#32 ∧ x.cacheControl = 0#32 ∧
      (∀ l, x.icache.tags.read l = 0x0000000F#32) ∧
      x.timing.pendingTicks = Config.tFetchUncached 0x1FC00000#32 + 1 ∧ x.timing.gteCompletionTick = 0 ∧
      x.flags.exceptionRaised = false ∧ x.refused = none ∧ fetchClass 0xBFC00000#32 x = some .miss

/-- An instruction that raises no exception changes only what is its own: the registers other than its destination, HI, LO, the
GTE, the exception registers and, unless it is a store, memory, the scratchpad, the cache and the cache-control register are
unchanged; SR and the other writable COP0 registers change only by MTC0, SR also by RFE; and the instruction cache is read-only
to stores but for isolated ones and one that clears `icache_enable` (10_state.md R33, R43, R44; 20_memory.md R123, R156, R169;
70_reset_and_hazards.md R513). -/
def Obligations.InstructionFrame : Prop :=
  ∀ (i : Instr) (s t : State), exec i s = .next t → s.flags.exceptionRaised = false → t.flags.exceptionRaised = false →
    (∀ r, immediateDest i ≠ some r → readReg r t = readReg r s) ∧
    (writesHi i = false → t.hi = s.hi) ∧ (writesLo i = false → t.lo = s.lo) ∧ (writesGte i = false → t.gte = s.gte) ∧
    t.cop0.epc = s.cop0.epc ∧ t.cop0.badVaddr = s.cop0.badVaddr ∧ t.cop0.tar = s.cop0.tar ∧
    ((∀ rt rd, i ≠ .mtc0 rt rd) → i ≠ .rfe → t.cop0 = s.cop0) ∧
    (isStore i = false → t.bus.mem = s.bus.mem ∧ t.scratchpad = s.scratchpad ∧ t.cacheControl = s.cacheControl ∧ t.icache = s.icache) ∧
    (s.cop0.sr.getLsbD 16 = false → ¬ (s.cacheControl.getLsbD 11 = true ∧ t.cacheControl.getLsbD 11 = false) →
      t.icache = s.icache) ∧
    (isBranch i = false → t.pipe = s.pipe)

/-- Fetch precedes execute: what the executing instruction does changes neither the word already in the next slot nor its address,
unless it enters an exception (70_reset_and_hazards.md R502; 20_memory.md R168). -/
def Obligations.NextSlotFetchedBeforeExecute : Prop :=
  ∀ (s u e : State), beginStep s = .next u → executeCurrent u = .next e → e.flags.exceptionRaised = false →
    e.pipe.nextInstruction = u.pipe.nextInstruction ∧ e.pipe.pc = u.pipe.pc ∧
    ∃ s1 f, interruptPoint s = .next s1 ∧ fetch s1.pipe.npc (shiftSlots (charge 1 s1)) = .next (u.pipe.nextInstruction, f)

/-- User code without CU0 is confined: a step in user mode with CU0 = 0 and no interrupt changes neither COP0, nor the
cache-control register; or it enters an exception, and then control is at the vector in kernel mode with interrupts off
(60_exceptions.md R420, R440, R441; 44_system.md R369). -/
def Obligations.UserModeConfined : Prop :=
  ∀ s t : State, step s = .next t → NoInterruptDue s → s.cop0.sr.getLsbD 1 = true → s.cop0.sr.getLsbD 28 = false →
    t.cacheControl = s.cacheControl ∧
    ((t.flags.exceptionRaised = false ∧ t.cop0 = s.cop0) ∨
      (t.flags.exceptionRaised = true ∧ t.pipe.pc = vectorOf s ∧ t.cop0.sr.getLsbD 1 = false ∧ t.cop0.sr.getLsbD 0 = false ∧
        t.cop0.sr.getLsbD 3 = true ∧ t.cop0.sr.getLsbD 28 = false))

/-- User mode is entered only by RFE or by MTC0 to SR, executed in the step itself (60_exceptions.md R440). -/
def Obligations.UserModeEntry : Prop :=
  ∀ s t : State, step s = .next t → s.cop0.sr.getLsbD 1 = false → t.cop0.sr.getLsbD 1 = true →
    ∃ w, t.pipe.currentInstruction = .word w ∧ (decodeWord w = .ok .rfe ∨ ∃ rt, decodeWord w = .ok (.mtc0 rt 12#5))

/-- Time only grows within a step, by at least `T_BASE`; `downcount` is the host's alone. `ResetPendingTicks` moves the base of
the counters (70_reset_and_hazards.md R540, R541). -/
def Obligations.TickLaws : Prop :=
  (∀ s t : State, step s = .next t → s.timing.pendingTicks + 1 ≤ t.timing.pendingTicks ∧ t.timing.downcount = s.timing.downcount) ∧
  (∀ s : State, resetPendingTicks s =
    { s with
      timing :=
        { pendingTicks := 0
          downcount := s.timing.downcount - s.timing.pendingTicks
          gteCompletionTick :=
            if s.timing.pendingTicks < s.timing.gteCompletionTick then s.timing.gteCompletionTick - s.timing.pendingTicks
            else 0 } })

/-! ### The host's operations -/

/-- `SetExternalInterrupt(b)` and `ClearExternalInterrupt(b)` set and clear CAUSE bit 8 + b and change nothing else; a `b` outside
0..7 changes nothing (60_exceptions.md R412). -/
def Obligations.ExternalInterruptLines : Prop :=
  ∀ (s : State) (b : Nat),
    (8 ≤ b → setExternalInterrupt b s = s ∧ clearExternalInterrupt b s = s) ∧
    (b < 8 → ∀ k, k < 32 →
      (setExternalInterrupt b s).cop0.cause.getLsbD k = (if k = 8 + b then true else s.cop0.cause.getLsbD k) ∧
      (clearExternalInterrupt b s).cop0.cause.getLsbD k = (if k = 8 + b then false else s.cop0.cause.getLsbD k)) ∧
    setExternalInterrupt b s = { s with cop0 := { s.cop0 with cause := (setExternalInterrupt b s).cop0.cause } } ∧
    clearExternalInterrupt b s = { s with cop0 := { s.cop0 with cause := (clearExternalInterrupt b s).cop0.cause } }

/-- Capture, mutate, restore gives back every captured field, with caches and tags as captured; a container of the wrong version or
shape leaves the state as it is (the shape of a container is the model's, log entry 22) (60_exceptions.md R456; 10_state.md R54). -/
def Obligations.CaptureRestore : Prop :=
  ∀ (s t : State) (version other : Nat),
    restoreContainer version { version := version, content := some (capture s) } t =
      (true, { s with refused := t.refused, bus := t.bus, draws := t.draws }) ∧
    (other ≠ version → restoreContainer version { version := other, content := some (capture s) } t = (false, t)) ∧
    restoreContainer version { version := version, content := none } t = (false, t)

/-- A visit of an address counts each enabled breakpoint there exactly once, stops exactly when one has no callback, removes those
with `auto_clear` or a callback answering false, and keeps the others in their order; a resumed address is let pass once, uncounted.
The check touches neither the machine nor anything else; a callback is the list of its answers (log entry 19)
(60_exceptions.md R451). -/
def Obligations.BreakpointVisit : Prop :=
  ∀ (h : HostState),
    let pc := h.machine.pipe.pc
    let stop := (breakpointCheck h).1
    let after := (breakpointCheck h).2
    after = { h with breakpoints := after.breakpoints, resumeSkip := after.resumeSkip } ∧
    (h.resumeSkip = some pc → stop = false ∧ after.resumeSkip = none ∧ after.breakpoints = h.breakpoints) ∧
    (h.resumeSkip ≠ some pc →
      (stop = true ↔ ∃ e ∈ h.breakpoints, e.enabled = true ∧ e.address = pc ∧ e.callback = none) ∧
      after.resumeSkip = (if stop = true then some pc else h.resumeSkip) ∧
      (after.breakpoints.map (·.sequence)).Sublist (h.breakpoints.map (·.sequence)) ∧
      (∀ e ∈ h.breakpoints, ¬ (e.enabled = true ∧ e.address = pc) → e ∈ after.breakpoints) ∧
      (∀ e ∈ h.breakpoints, e.enabled = true → e.address = pc → e.autoClear = false →
        (e.callback = none ∨ ∃ bs, e.callback = some bs ∧ bs.headD true = true) →
        { e with hitCount := e.hitCount + 1, callback := e.callback.map List.tail } ∈ after.breakpoints) ∧
      ∀ e ∈ after.breakpoints,
        (e ∈ h.breakpoints ∧ ¬ (e.enabled = true ∧ e.address = pc)) ∨
        ∃ d ∈ h.breakpoints, d.enabled = true ∧ d.address = pc ∧ d.autoClear = false ∧
          (d.callback = none ∨ ∃ bs, d.callback = some bs ∧ bs.headD true = true) ∧
          e = { d with hitCount := d.hitCount + 1, callback := d.callback.map List.tail })

/-! ### Cache fills under any answers of the bus -/

/-- A fill under any answers of the bus: it reads, in order, the words from the one asked for to the end of the line. When every
read is answered with a word, those words are cached and the words before them are left invalid; when one is answered with an
error, the fetch gives an IBE marker, the whole line is left invalid, no cached word changes and `bus_error` is set. No other line
changes in either case. The list of answers, `bus_error` of a fetch, the cost of a failed fill and its reads after the error are
the model's (log entries 5, 9, 18, 24) (20_memory.md R153, R155; 60_exceptions.md R402). -/
def Obligations.CacheFillByAnswers : Prop :=
  ∀ (v : Word) (s : State), fetchable v s → cacheable v s → fetchClass v s = some .miss →
    let p := v.toNat % 2 ^ 29
    let line := BitVec.ofNat 8 (v.toNat / 16)
    let k := v.toNat / 4 % 4
    let filled (t : State) : Prop :=
      t.bus =
        { mem := s.bus.mem
          answers := s.bus.answers.drop (4 - k)
          log := ((List.range (4 - k)).reverse.map fun j =>
            .read .fetch (BitVec.ofNat 32 (p / 16 * 16 + 4 * (k + j))) .word (fillAnswer p k (k + j) s)) ++ s.bus.log } ∧
      t.timing.pendingTicks = s.timing.pendingTicks + Config.tIcacheFill (4 - k) (BitVec.ofNat 32 p) ∧
      t = { s with
        icache := t.icache, bus := t.bus, flags := { s.flags with busError := t.flags.busError }
        timing := { s.timing with pendingTicks := t.timing.pendingTicks } }
    (∀ w : Nat → Word, (∀ n, k ≤ n → n < 4 → fillAnswer p k n s = some (w n)) →
      ∃ t, fetch v s = .next (.word (w k), t) ∧ filled t ∧ t.flags = s.flags ∧
        (∀ l, t.icache.tags.read l = if l = line then BitVec.ofNat 32 (p / 16 * 16 + (2 ^ k - 1)) else s.icache.tags.read l) ∧
        (∀ n : BitVec 10, t.icache.data.read n =
          if n.toNat / 4 = line.toNat ∧ k ≤ n.toNat % 4 then w (n.toNat % 4) else s.icache.data.read n)) ∧
    (BusReplies s → (∃ n, k ≤ n ∧ n < 4 ∧ fillAnswer p k n s = none) →
      ∃ t, fetch v s = .next (.fetchFault .ibe v, t) ∧ filled t ∧ t.flags.busError = true ∧ t.icache.data = s.icache.data ∧
        ∀ l, t.icache.tags.read l = if l = line then BitVec.ofNat 32 (p / 16 * 16 + 15) else s.icache.tags.read l)

end
end

