-- ==== Sys2Proof/Laws/Bank.lean ====
section
/-! SUPPORT. Read after write for the banks (registers, cache lines, scratchpad bytes) and for the scratchpad. -/

namespace Sys2Proof

@[simp] theorem Bank.read_write_same {α : Type} {k : Nat} (b : Bank α k) (i : BitVec k) (x : α) :
    (b.write i x).read i = x := by
  simp [Bank.read, Bank.write]

theorem Bank.read_write_ne {α : Type} {k : Nat} (b : Bank α k) {i j : BitVec k} (x : α) (h : i ≠ j) :
    (b.write i x).read j = b.read j := by
  have h' : i.toNat ≠ j.toNat := fun e => h (BitVec.eq_of_toNat_eq e)
  simp [Bank.read, Bank.write, h']

theorem Bank.read_write {α : Type} {k : Nat} (b : Bank α k) (i j : BitVec k) (x : α) :
    (b.write i x).read j = if i = j then x else b.read j := by
  split
  · next h => subst h; simp
  · next h => exact Bank.read_write_ne b x h

@[simp] theorem Bank.read_replicate {α : Type} {k : Nat} (x : α) (i : BitVec k) :
    Bank.read (k := k) (Vector.replicate (2 ^ k) x) i = x := by
  simp [Bank.read]

/-- Two banks that read alike are equal. -/
theorem Bank.ext {α : Type} {k : Nat} {b c : Bank α k} (h : ∀ i, b.read i = c.read i) : b = c := by
  apply Vector.ext
  intro n hn
  have := h (BitVec.ofNat k n)
  simpa [Bank.read, Nat.mod_eq_of_lt hn] using this

end Sys2Proof

namespace Sys2Proof.Machine

/-- One conditional byte of a scratchpad store. -/
theorem read_writeScratchIf (mask4 : BitVec 4) (v : Word) (off : BitVec 10) (i : Nat) (sp : Bank Byte 10) (a : BitVec 10) :
    (writeScratchIf mask4 v off i sp).read a =
      if mask4.getLsbD i = true ∧ off + BitVec.ofNat 10 i = a then byteOf v i else sp.read a := by
  unfold writeScratchIf
  by_cases h : mask4.getLsbD i = true <;> simp [h, Bank.read_write]

/-- A scratchpad byte after a store: the enabled bytes hold the stored word's bytes, every other byte is unchanged (20_memory.md R122). -/
theorem read_writeScratch (sp : Bank Byte 10) (off : BitVec 10) (mask4 : BitVec 4) (v : Word) (a : BitVec 10) :
    (writeScratch sp off mask4 v).read a =
      if (a - off).toNat < 4 ∧ mask4.getLsbD (a - off).toNat = true then byteOf v (a - off).toNat else sp.read a := by
  have key : ∀ i : Nat, i < 4 → (off + BitVec.ofNat 10 i = a ↔ (a - off).toNat = i) := by
    intro i hi
    constructor
    · intro h
      subst h
      have : off + BitVec.ofNat 10 i - off = BitVec.ofNat 10 i := by
        rw [BitVec.add_comm]; exact BitVec.add_sub_cancel _ _
      rw [this]
      simp
      omega
    · intro h
      have : BitVec.ofNat 10 i = a - off := by
        apply BitVec.eq_of_toNat_eq
        simp [h]
        omega
      rw [this, BitVec.add_comm]
      exact BitVec.sub_add_cancel _ _
  simp only [writeScratch, read_writeScratchIf, key 0 (by decide), key 1 (by decide), key 2 (by decide), key 3 (by decide)]
  generalize (a - off).toNat = n
  by_cases h0 : n = 0
  · subst h0; simp
  by_cases h1 : n = 1
  · subst h1; simp
  by_cases h2 : n = 2
  · subst h2; simp
  by_cases h3 : n = 3
  · subst h3; simp
  have : ¬ n < 4 := by omega
  simp [h0, h1, h2, h3, this]

end Sys2Proof.Machine
end

