-- ==== Sys2Proof/Laws/Memory.lean ====
section
/-! SUPPORT. Bus memory: read after write, and the canonical form that every memory operation keeps. -/

namespace Sys2Proof.Machine

/-- One byte after one byte write. -/
theorem readByte_writeByte_wf (lo : Nat) (m : Memory) (a : Nat) (b : Byte) (c : Nat) (h : Memory.wfFrom lo m = true) :
    readByte (writeByte m a b) c = if a = c then b else readByte m c := by
  induction m generalizing lo with
  | nil =>
    unfold writeByte
    by_cases hb : b = Config.unlistedByte
    · by_cases hac : a = c <;> simp [hb, readByte, hac]
    · simp [hb, readByte]
  | cons x rest ih =>
    obtain ⟨k, v⟩ := x
    simp only [Memory.wfFrom, Bool.and_eq_true, decide_eq_true_eq] at h
    obtain ⟨⟨⟨hlo, hk⟩, hv⟩, hrest⟩ := h
    -- no entry of the rest lies at or below k
    have absent : ∀ (r : Memory) (lo : Nat), Memory.wfFrom lo r = true → ∀ d, d < lo → readByte r d = Config.unlistedByte := by
      intro r
      induction r with
      | nil => intro lo _ d _; rfl
      | cons y ys ihy =>
        intro lo hw d hd
        obtain ⟨k', v'⟩ := y
        simp only [Memory.wfFrom, Bool.and_eq_true, decide_eq_true_eq] at hw
        have hne : k' ≠ d := by omega
        simp only [readByte, hne, if_false]
        exact ihy (k' + 1) hw.2 d (by omega)
    unfold writeByte
    split
    · next hlt =>
      by_cases hb : b = Config.unlistedByte
      · by_cases hac : a = c
        · subst hac
          have hne : k ≠ a := by omega
          simp [hb, readByte, hne, absent rest (k + 1) hrest a (by omega)]
        · simp [hb, hac]
      · by_cases hac : a = c <;> simp [hb, readByte, hac]
    · split
      · next heq =>
        subst heq
        by_cases hb : b = Config.unlistedByte
        · by_cases hac : a = c
          · subst hac
            simp [hb, absent rest (a + 1) hrest a (by omega)]
          · simp [hb, readByte, hac]
        · by_cases hac : a = c <;> simp [hb, readByte, hac]
      · next hlt hne =>
        by_cases hkc : k = c
        · subst hkc
          have : a ≠ k := hne
          simp [readByte, this]
        · simp only [readByte, hkc, if_false]
          exact ih (k + 1) hrest

/-- One byte after one byte write: read after write, and every other address reads as before. -/
theorem readByte_writeByte (m : Memory) (a : Nat) (b : Byte) (c : Nat) (h : m.wf = true) :
    readByte (writeByte m a b) c = if a = c then b else readByte m c := readByte_writeByte_wf 0 m a b c h

/-- A byte write keeps the canonical form from any address at or below it. -/
theorem writeByte_wfFrom (lo : Nat) (m : Memory) (a : Nat) (b : Byte) (h : Memory.wfFrom lo m = true) (hlo : lo ≤ a)
    (ha : a < 2 ^ 29) : Memory.wfFrom lo (writeByte m a b) = true := by
  induction m generalizing lo with
  | nil =>
    unfold writeByte
    by_cases hb : b = Config.unlistedByte
    · simp [hb, Memory.wfFrom]
    · simp only [hb, if_false, Memory.wfFrom, Bool.and_eq_true, decide_eq_true_eq, and_true]
      exact ⟨⟨hlo, ha⟩, hb⟩
  | cons x rest ih =>
    obtain ⟨k, v⟩ := x
    have h0 := h
    simp only [Memory.wfFrom, Bool.and_eq_true, decide_eq_true_eq] at h
    obtain ⟨⟨⟨hk0, hk⟩, hv⟩, hrest⟩ := h
    unfold writeByte
    split
    · next hlt =>
      by_cases hb : b = Config.unlistedByte
      · simpa [hb] using h0
      · simp only [hb, if_false, Memory.wfFrom, Bool.and_eq_true, decide_eq_true_eq]
        exact ⟨⟨⟨hlo, ha⟩, hb⟩, ⟨⟨by omega, hk⟩, hv⟩, hrest⟩
    · split
      · next heq =>
        subst heq
        by_cases hb : b = Config.unlistedByte
        · simp only [hb, if_true]
          have weaken : ∀ (r : Memory) (lo lo' : Nat), lo' ≤ lo → Memory.wfFrom lo r = true → Memory.wfFrom lo' r = true := by
            intro r lo lo' hle hw
            cases r with
            | nil => rfl
            | cons y ys =>
              obtain ⟨k', v'⟩ := y
              simp only [Memory.wfFrom, Bool.and_eq_true, decide_eq_true_eq] at hw ⊢
              exact ⟨⟨⟨by omega, hw.1.1.2⟩, hw.1.2⟩, hw.2⟩
          exact weaken rest (a + 1) lo (by omega) hrest
        · simp only [hb, if_false, Memory.wfFrom, Bool.and_eq_true, decide_eq_true_eq]
          exact ⟨⟨⟨hlo, ha⟩, hb⟩, hrest⟩
      · next hlt hne =>
        simp only [Memory.wfFrom, Bool.and_eq_true, decide_eq_true_eq]
        exact ⟨⟨⟨hk0, hk⟩, hv⟩, ih (k + 1) hrest (by omega)⟩

/-- A byte write keeps the canonical form. -/
theorem writeByte_wf (m : Memory) (a : Nat) (b : Byte) (h : m.wf = true) (ha : a < 2 ^ 29) : (writeByte m a b).wf = true :=
  writeByte_wfFrom 0 m a b h (Nat.zero_le _) ha

/-- A conditional byte write keeps the canonical form. -/
theorem writeByteIf_wf (mask4 : BitVec 4) (v : Word) (p i : Nat) (m : Memory) (h : m.wf = true)
    (hp : mask4.getLsbD i = true → p + i < 2 ^ 29) : (writeByteIf mask4 v p i m).wf = true := by
  unfold writeByteIf
  split
  · next hm => exact writeByte_wf m _ _ h (hp hm)
  · exact h

/-- One byte after a conditional byte write. -/
theorem readByte_writeByteIf (mask4 : BitVec 4) (v : Word) (p i : Nat) (m : Memory) (c : Nat) (h : m.wf = true) :
    readByte (writeByteIf mask4 v p i m) c = if mask4.getLsbD i = true ∧ p + i = c then byteOf v i else readByte m c := by
  unfold writeByteIf
  by_cases hm : mask4.getLsbD i = true <;> simp [hm, readByte_writeByte m _ _ c h]

/-- A masked word write keeps the canonical form. -/
theorem writeMaskedBytes_wf (m : Memory) (p : Nat) (mask4 : BitVec 4) (v : Word) (h : m.wf = true)
    (hp : ∀ i, i < 4 → mask4.getLsbD i = true → p + i < 2 ^ 29) : (writeMaskedBytes m p mask4 v).wf = true := by
  unfold writeMaskedBytes
  exact writeByteIf_wf _ _ _ _ _ (writeByteIf_wf _ _ _ _ _ (writeByteIf_wf _ _ _ _ _ (writeByteIf_wf _ _ _ _ _ h (hp 0 (by omega)))
    (hp 1 (by omega))) (hp 2 (by omega))) (hp 3 (by omega))

/-- One byte after a masked word write: the enabled bytes are the word's, every other address reads as before. -/
theorem readByte_writeMaskedBytes (m : Memory) (p : Nat) (mask4 : BitVec 4) (v : Word) (c : Nat) (h : m.wf = true)
    (hp : ∀ i, i < 4 → mask4.getLsbD i = true → p + i < 2 ^ 29) :
    readByte (writeMaskedBytes m p mask4 v) c =
      if p ≤ c ∧ c < p + 4 ∧ mask4.getLsbD (c - p) = true then byteOf v (c - p) else readByte m c := by
  have h0 := writeByteIf_wf mask4 v p 0 m h (hp 0 (by omega))
  have h1 := writeByteIf_wf mask4 v p 1 _ h0 (hp 1 (by omega))
  have h2 := writeByteIf_wf mask4 v p 2 _ h1 (hp 2 (by omega))
  unfold writeMaskedBytes
  rw [readByte_writeByteIf _ _ _ _ _ _ h2, readByte_writeByteIf _ _ _ _ _ _ h1, readByte_writeByteIf _ _ _ _ _ _ h0,
    readByte_writeByteIf _ _ _ _ _ _ h]
  by_cases c0 : c = p
  · subst c0; simp
  by_cases c1 : c = p + 1
  · subst c1; simp
  by_cases c2 : c = p + 2
  · subst c2; simp
  by_cases c3 : c = p + 3
  · subst c3; simp
  have hout : ¬ (p ≤ c ∧ c < p + 4 ∧ mask4.getLsbD (c - p) = true) := by omega
  have e0 : ¬ (p + 0 = c) := by omega
  have e1 : ¬ (p + 1 = c) := by omega
  have e2 : ¬ (p + 2 = c) := by omega
  have e3 : ¬ (p + 3 = c) := by omega
  simp [e1, e2, e3, hout, show ¬ (p = c) by omega]

end Sys2Proof.Machine
end

