-- ==== Sys2Proof/Laws/State.lean ====
section
/-! SUPPORT. One lemma per field and update of the state: what the update leaves alone, and what it makes of the rest. -/

namespace Sys2Proof.Machine

/-! ### charge -/

@[simp] theorem charge_regs (n : Nat) (s : State) : (charge n s).regs = s.regs := rfl
@[simp] theorem charge_hi (n : Nat) (s : State) : (charge n s).hi = s.hi := rfl
@[simp] theorem charge_lo (n : Nat) (s : State) : (charge n s).lo = s.lo := rfl
@[simp] theorem charge_pipe (n : Nat) (s : State) : (charge n s).pipe = s.pipe := rfl
@[simp] theorem charge_delay (n : Nat) (s : State) : (charge n s).delay = s.delay := rfl
@[simp] theorem charge_cop0 (n : Nat) (s : State) : (charge n s).cop0 = s.cop0 := rfl
@[simp] theorem charge_cacheControl (n : Nat) (s : State) : (charge n s).cacheControl = s.cacheControl := rfl
@[simp] theorem charge_icache (n : Nat) (s : State) : (charge n s).icache = s.icache := rfl
@[simp] theorem charge_scratchpad (n : Nat) (s : State) : (charge n s).scratchpad = s.scratchpad := rfl
@[simp] theorem charge_timing (n : Nat) (s : State) :
    (charge n s).timing = { s.timing with pendingTicks := s.timing.pendingTicks + n } := rfl
@[simp] theorem charge_flags (n : Nat) (s : State) : (charge n s).flags = s.flags := rfl
@[simp] theorem charge_gte (n : Nat) (s : State) : (charge n s).gte = s.gte := rfl
@[simp] theorem charge_refused (n : Nat) (s : State) : (charge n s).refused = s.refused := rfl
@[simp] theorem charge_bus (n : Nat) (s : State) : (charge n s).bus = s.bus := rfl
@[simp] theorem charge_draws (n : Nat) (s : State) : (charge n s).draws = s.draws := rfl

/-! ### countDraw -/

@[simp] theorem countDraw_regs (s : State) : (countDraw s).regs = s.regs := rfl
@[simp] theorem countDraw_hi (s : State) : (countDraw s).hi = s.hi := rfl
@[simp] theorem countDraw_lo (s : State) : (countDraw s).lo = s.lo := rfl
@[simp] theorem countDraw_pipe (s : State) : (countDraw s).pipe = s.pipe := rfl
@[simp] theorem countDraw_delay (s : State) : (countDraw s).delay = s.delay := rfl
@[simp] theorem countDraw_cop0 (s : State) : (countDraw s).cop0 = s.cop0 := rfl
@[simp] theorem countDraw_cacheControl (s : State) : (countDraw s).cacheControl = s.cacheControl := rfl
@[simp] theorem countDraw_icache (s : State) : (countDraw s).icache = s.icache := rfl
@[simp] theorem countDraw_scratchpad (s : State) : (countDraw s).scratchpad = s.scratchpad := rfl
@[simp] theorem countDraw_timing (s : State) : (countDraw s).timing = s.timing := rfl
@[simp] theorem countDraw_flags (s : State) : (countDraw s).flags = s.flags := rfl
@[simp] theorem countDraw_gte (s : State) : (countDraw s).gte = s.gte := rfl
@[simp] theorem countDraw_refused (s : State) : (countDraw s).refused = s.refused := rfl
@[simp] theorem countDraw_bus (s : State) : (countDraw s).bus = s.bus := rfl
@[simp] theorem countDraw_draws (s : State) : (countDraw s).draws = s.draws + 1 := rfl

/-! ### recordCall -/

@[simp] theorem recordCall_regs (m : Memory) (e : BusEvent) (s : State) : (recordCall m e s).regs = s.regs := rfl
@[simp] theorem recordCall_hi (m : Memory) (e : BusEvent) (s : State) : (recordCall m e s).hi = s.hi := rfl
@[simp] theorem recordCall_lo (m : Memory) (e : BusEvent) (s : State) : (recordCall m e s).lo = s.lo := rfl
@[simp] theorem recordCall_pipe (m : Memory) (e : BusEvent) (s : State) : (recordCall m e s).pipe = s.pipe := rfl
@[simp] theorem recordCall_delay (m : Memory) (e : BusEvent) (s : State) : (recordCall m e s).delay = s.delay := rfl
@[simp] theorem recordCall_cop0 (m : Memory) (e : BusEvent) (s : State) : (recordCall m e s).cop0 = s.cop0 := rfl
@[simp] theorem recordCall_cacheControl (m : Memory) (e : BusEvent) (s : State) :
    (recordCall m e s).cacheControl = s.cacheControl := rfl
@[simp] theorem recordCall_icache (m : Memory) (e : BusEvent) (s : State) : (recordCall m e s).icache = s.icache := rfl
@[simp] theorem recordCall_scratchpad (m : Memory) (e : BusEvent) (s : State) :
    (recordCall m e s).scratchpad = s.scratchpad := rfl
@[simp] theorem recordCall_timing (m : Memory) (e : BusEvent) (s : State) : (recordCall m e s).timing = s.timing := rfl
@[simp] theorem recordCall_flags (m : Memory) (e : BusEvent) (s : State) : (recordCall m e s).flags = s.flags := rfl
@[simp] theorem recordCall_gte (m : Memory) (e : BusEvent) (s : State) : (recordCall m e s).gte = s.gte := rfl
@[simp] theorem recordCall_refused (m : Memory) (e : BusEvent) (s : State) :
    (recordCall m e s).refused = s.refused := rfl
@[simp] theorem recordCall_bus (m : Memory) (e : BusEvent) (s : State) :
    (recordCall m e s).bus = { mem := m, answers := s.bus.answers.tail, log := e :: s.bus.log } := rfl
@[simp] theorem recordCall_draws (m : Memory) (e : BusEvent) (s : State) : (recordCall m e s).draws = s.draws := rfl

/-! ### setBusError -/

@[simp] theorem setBusError_regs (s : State) : (setBusError s).regs = s.regs := rfl
@[simp] theorem setBusError_hi (s : State) : (setBusError s).hi = s.hi := rfl
@[simp] theorem setBusError_lo (s : State) : (setBusError s).lo = s.lo := rfl
@[simp] theorem setBusError_pipe (s : State) : (setBusError s).pipe = s.pipe := rfl
@[simp] theorem setBusError_delay (s : State) : (setBusError s).delay = s.delay := rfl
@[simp] theorem setBusError_cop0 (s : State) : (setBusError s).cop0 = s.cop0 := rfl
@[simp] theorem setBusError_cacheControl (s : State) : (setBusError s).cacheControl = s.cacheControl := rfl
@[simp] theorem setBusError_icache (s : State) : (setBusError s).icache = s.icache := rfl
@[simp] theorem setBusError_scratchpad (s : State) : (setBusError s).scratchpad = s.scratchpad := rfl
@[simp] theorem setBusError_timing (s : State) : (setBusError s).timing = s.timing := rfl
@[simp] theorem setBusError_flags (s : State) : (setBusError s).flags = { s.flags with busError := true } := rfl
@[simp] theorem setBusError_gte (s : State) : (setBusError s).gte = s.gte := rfl
@[simp] theorem setBusError_refused (s : State) : (setBusError s).refused = s.refused := rfl
@[simp] theorem setBusError_bus (s : State) : (setBusError s).bus = s.bus := rfl
@[simp] theorem setBusError_draws (s : State) : (setBusError s).draws = s.draws := rfl

/-! ### setTag -/

@[simp] theorem setTag_regs (l : BitVec 8) (tag : Word) (s : State) : (setTag l tag s).regs = s.regs := rfl
@[simp] theorem setTag_hi (l : BitVec 8) (tag : Word) (s : State) : (setTag l tag s).hi = s.hi := rfl
@[simp] theorem setTag_lo (l : BitVec 8) (tag : Word) (s : State) : (setTag l tag s).lo = s.lo := rfl
@[simp] theorem setTag_pipe (l : BitVec 8) (tag : Word) (s : State) : (setTag l tag s).pipe = s.pipe := rfl
@[simp] theorem setTag_delay (l : BitVec 8) (tag : Word) (s : State) : (setTag l tag s).delay = s.delay := rfl
@[simp] theorem setTag_cop0 (l : BitVec 8) (tag : Word) (s : State) : (setTag l tag s).cop0 = s.cop0 := rfl
@[simp] theorem setTag_cacheControl (l : BitVec 8) (tag : Word) (s : State) :
    (setTag l tag s).cacheControl = s.cacheControl := rfl
@[simp] theorem setTag_icache (l : BitVec 8) (tag : Word) (s : State) :
    (setTag l tag s).icache = { s.icache with tags := s.icache.tags.write l tag } := rfl
@[simp] theorem setTag_scratchpad (l : BitVec 8) (tag : Word) (s : State) :
    (setTag l tag s).scratchpad = s.scratchpad := rfl
@[simp] theorem setTag_timing (l : BitVec 8) (tag : Word) (s : State) : (setTag l tag s).timing = s.timing := rfl
@[simp] theorem setTag_flags (l : BitVec 8) (tag : Word) (s : State) : (setTag l tag s).flags = s.flags := rfl
@[simp] theorem setTag_gte (l : BitVec 8) (tag : Word) (s : State) : (setTag l tag s).gte = s.gte := rfl
@[simp] theorem setTag_refused (l : BitVec 8) (tag : Word) (s : State) : (setTag l tag s).refused = s.refused := rfl
@[simp] theorem setTag_bus (l : BitVec 8) (tag : Word) (s : State) : (setTag l tag s).bus = s.bus := rfl
@[simp] theorem setTag_draws (l : BitVec 8) (tag : Word) (s : State) : (setTag l tag s).draws = s.draws := rfl

/-! ### setCacheWord -/

@[simp] theorem setCacheWord_regs (l : BitVec 8) (w : BitVec 2) (v : Word) (s : State) :
    (setCacheWord l w v s).regs = s.regs := rfl
@[simp] theorem setCacheWord_hi (l : BitVec 8) (w : BitVec 2) (v : Word) (s : State) :
    (setCacheWord l w v s).hi = s.hi := rfl
@[simp] theorem setCacheWord_lo (l : BitVec 8) (w : BitVec 2) (v : Word) (s : State) :
    (setCacheWord l w v s).lo = s.lo := rfl
@[simp] theorem setCacheWord_pipe (l : BitVec 8) (w : BitVec 2) (v : Word) (s : State) :
    (setCacheWord l w v s).pipe = s.pipe := rfl
@[simp] theorem setCacheWord_delay (l : BitVec 8) (w : BitVec 2) (v : Word) (s : State) :
    (setCacheWord l w v s).delay = s.delay := rfl
@[simp] theorem setCacheWord_cop0 (l : BitVec 8) (w : BitVec 2) (v : Word) (s : State) :
    (setCacheWord l w v s).cop0 = s.cop0 := rfl
@[simp] theorem setCacheWord_cacheControl (l : BitVec 8) (w : BitVec 2) (v : Word) (s : State) :
    (setCacheWord l w v s).cacheControl = s.cacheControl := rfl
@[simp] theorem setCacheWord_icache (l : BitVec 8) (w : BitVec 2) (v : Word) (s : State) :
    (setCacheWord l w v s).icache = { s.icache with data := s.icache.data.write (cacheIndex l w) v } := rfl
@[simp] theorem setCacheWord_scratchpad (l : BitVec 8) (w : BitVec 2) (v : Word) (s : State) :
    (setCacheWord l w v s).scratchpad = s.scratchpad := rfl
@[simp] theorem setCacheWord_timing (l : BitVec 8) (w : BitVec 2) (v : Word) (s : State) :
    (setCacheWord l w v s).timing = s.timing := rfl
@[simp] theorem setCacheWord_flags (l : BitVec 8) (w : BitVec 2) (v : Word) (s : State) :
    (setCacheWord l w v s).flags = s.flags := rfl
@[simp] theorem setCacheWord_gte (l : BitVec 8) (w : BitVec 2) (v : Word) (s : State) :
    (setCacheWord l w v s).gte = s.gte := rfl
@[simp] theorem setCacheWord_refused (l : BitVec 8) (w : BitVec 2) (v : Word) (s : State) :
    (setCacheWord l w v s).refused = s.refused := rfl
@[simp] theorem setCacheWord_bus (l : BitVec 8) (w : BitVec 2) (v : Word) (s : State) :
    (setCacheWord l w v s).bus = s.bus := rfl
@[simp] theorem setCacheWord_draws (l : BitVec 8) (w : BitVec 2) (v : Word) (s : State) :
    (setCacheWord l w v s).draws = s.draws := rfl

/-! ### clearICache -/

@[simp] theorem clearICache_regs (s : State) : (clearICache s).regs = s.regs := rfl
@[simp] theorem clearICache_hi (s : State) : (clearICache s).hi = s.hi := rfl
@[simp] theorem clearICache_lo (s : State) : (clearICache s).lo = s.lo := rfl
@[simp] theorem clearICache_pipe (s : State) : (clearICache s).pipe = s.pipe := rfl
@[simp] theorem clearICache_delay (s : State) : (clearICache s).delay = s.delay := rfl
@[simp] theorem clearICache_cop0 (s : State) : (clearICache s).cop0 = s.cop0 := rfl
@[simp] theorem clearICache_cacheControl (s : State) : (clearICache s).cacheControl = s.cacheControl := rfl
@[simp] theorem clearICache_icache (s : State) :
    (clearICache s).icache = { s.icache with tags := Vector.replicate (2 ^ 8) Config.invalidTag } := rfl
@[simp] theorem clearICache_scratchpad (s : State) : (clearICache s).scratchpad = s.scratchpad := rfl
@[simp] theorem clearICache_timing (s : State) : (clearICache s).timing = s.timing := rfl
@[simp] theorem clearICache_flags (s : State) : (clearICache s).flags = s.flags := rfl
@[simp] theorem clearICache_gte (s : State) : (clearICache s).gte = s.gte := rfl
@[simp] theorem clearICache_refused (s : State) : (clearICache s).refused = s.refused := rfl
@[simp] theorem clearICache_bus (s : State) : (clearICache s).bus = s.bus := rfl
@[simp] theorem clearICache_draws (s : State) : (clearICache s).draws = s.draws := rfl

/-! ### setHi -/

@[simp] theorem setHi_regs (v : Word) (s : State) : (setHi v s).regs = s.regs := rfl
@[simp] theorem setHi_hi (v : Word) (s : State) : (setHi v s).hi = v := rfl
@[simp] theorem setHi_lo (v : Word) (s : State) : (setHi v s).lo = s.lo := rfl
@[simp] theorem setHi_pipe (v : Word) (s : State) : (setHi v s).pipe = s.pipe := rfl
@[simp] theorem setHi_delay (v : Word) (s : State) : (setHi v s).delay = s.delay := rfl
@[simp] theorem setHi_cop0 (v : Word) (s : State) : (setHi v s).cop0 = s.cop0 := rfl
@[simp] theorem setHi_cacheControl (v : Word) (s : State) : (setHi v s).cacheControl = s.cacheControl := rfl
@[simp] theorem setHi_icache (v : Word) (s : State) : (setHi v s).icache = s.icache := rfl
@[simp] theorem setHi_scratchpad (v : Word) (s : State) : (setHi v s).scratchpad = s.scratchpad := rfl
@[simp] theorem setHi_timing (v : Word) (s : State) : (setHi v s).timing = s.timing := rfl
@[simp] theorem setHi_flags (v : Word) (s : State) : (setHi v s).flags = s.flags := rfl
@[simp] theorem setHi_gte (v : Word) (s : State) : (setHi v s).gte = s.gte := rfl
@[simp] theorem setHi_refused (v : Word) (s : State) : (setHi v s).refused = s.refused := rfl
@[simp] theorem setHi_bus (v : Word) (s : State) : (setHi v s).bus = s.bus := rfl
@[simp] theorem setHi_draws (v : Word) (s : State) : (setHi v s).draws = s.draws := rfl

/-! ### setLo -/

@[simp] theorem setLo_regs (v : Word) (s : State) : (setLo v s).regs = s.regs := rfl
@[simp] theorem setLo_hi (v : Word) (s : State) : (setLo v s).hi = s.hi := rfl
@[simp] theorem setLo_lo (v : Word) (s : State) : (setLo v s).lo = v := rfl
@[simp] theorem setLo_pipe (v : Word) (s : State) : (setLo v s).pipe = s.pipe := rfl
@[simp] theorem setLo_delay (v : Word) (s : State) : (setLo v s).delay = s.delay := rfl
@[simp] theorem setLo_cop0 (v : Word) (s : State) : (setLo v s).cop0 = s.cop0 := rfl
@[simp] theorem setLo_cacheControl (v : Word) (s : State) : (setLo v s).cacheControl = s.cacheControl := rfl
@[simp] theorem setLo_icache (v : Word) (s : State) : (setLo v s).icache = s.icache := rfl
@[simp] theorem setLo_scratchpad (v : Word) (s : State) : (setLo v s).scratchpad = s.scratchpad := rfl
@[simp] theorem setLo_timing (v : Word) (s : State) : (setLo v s).timing = s.timing := rfl
@[simp] theorem setLo_flags (v : Word) (s : State) : (setLo v s).flags = s.flags := rfl
@[simp] theorem setLo_gte (v : Word) (s : State) : (setLo v s).gte = s.gte := rfl
@[simp] theorem setLo_refused (v : Word) (s : State) : (setLo v s).refused = s.refused := rfl
@[simp] theorem setLo_bus (v : Word) (s : State) : (setLo v s).bus = s.bus := rfl
@[simp] theorem setLo_draws (v : Word) (s : State) : (setLo v s).draws = s.draws := rfl

/-! ### markDelaySlot -/

@[simp] theorem markDelaySlot_regs (s : State) : (markDelaySlot s).regs = s.regs := rfl
@[simp] theorem markDelaySlot_hi (s : State) : (markDelaySlot s).hi = s.hi := rfl
@[simp] theorem markDelaySlot_lo (s : State) : (markDelaySlot s).lo = s.lo := rfl
@[simp] theorem markDelaySlot_pipe (s : State) :
    (markDelaySlot s).pipe = { s.pipe with nextInstructionIsBranchDelaySlot := true } := rfl
@[simp] theorem markDelaySlot_delay (s : State) : (markDelaySlot s).delay = s.delay := rfl
@[simp] theorem markDelaySlot_cop0 (s : State) : (markDelaySlot s).cop0 = s.cop0 := rfl
@[simp] theorem markDelaySlot_cacheControl (s : State) : (markDelaySlot s).cacheControl = s.cacheControl := rfl
@[simp] theorem markDelaySlot_icache (s : State) : (markDelaySlot s).icache = s.icache := rfl
@[simp] theorem markDelaySlot_scratchpad (s : State) : (markDelaySlot s).scratchpad = s.scratchpad := rfl
@[simp] theorem markDelaySlot_timing (s : State) : (markDelaySlot s).timing = s.timing := rfl
@[simp] theorem markDelaySlot_flags (s : State) : (markDelaySlot s).flags = s.flags := rfl
@[simp] theorem markDelaySlot_gte (s : State) : (markDelaySlot s).gte = s.gte := rfl
@[simp] theorem markDelaySlot_refused (s : State) : (markDelaySlot s).refused = s.refused := rfl
@[simp] theorem markDelaySlot_bus (s : State) : (markDelaySlot s).bus = s.bus := rfl
@[simp] theorem markDelaySlot_draws (s : State) : (markDelaySlot s).draws = s.draws := rfl

/-! ### branchTo -/

@[simp] theorem branchTo_regs (a : Word) (s : State) : (branchTo a s).regs = s.regs := rfl
@[simp] theorem branchTo_hi (a : Word) (s : State) : (branchTo a s).hi = s.hi := rfl
@[simp] theorem branchTo_lo (a : Word) (s : State) : (branchTo a s).lo = s.lo := rfl
@[simp] theorem branchTo_pipe (a : Word) (s : State) :
    (branchTo a s).pipe = { s.pipe with npc := a, branchWasTaken := true } := rfl
@[simp] theorem branchTo_delay (a : Word) (s : State) : (branchTo a s).delay = s.delay := rfl
@[simp] theorem branchTo_cop0 (a : Word) (s : State) : (branchTo a s).cop0 = s.cop0 := rfl
@[simp] theorem branchTo_cacheControl (a : Word) (s : State) : (branchTo a s).cacheControl = s.cacheControl := rfl
@[simp] theorem branchTo_icache (a : Word) (s : State) : (branchTo a s).icache = s.icache := rfl
@[simp] theorem branchTo_scratchpad (a : Word) (s : State) : (branchTo a s).scratchpad = s.scratchpad := rfl
@[simp] theorem branchTo_timing (a : Word) (s : State) : (branchTo a s).timing = s.timing := rfl
@[simp] theorem branchTo_flags (a : Word) (s : State) : (branchTo a s).flags = s.flags := rfl
@[simp] theorem branchTo_gte (a : Word) (s : State) : (branchTo a s).gte = s.gte := rfl
@[simp] theorem branchTo_refused (a : Word) (s : State) : (branchTo a s).refused = s.refused := rfl
@[simp] theorem branchTo_bus (a : Word) (s : State) : (branchTo a s).bus = s.bus := rfl
@[simp] theorem branchTo_draws (a : Word) (s : State) : (branchTo a s).draws = s.draws := rfl

/-! ### recordException -/

@[simp] theorem recordException_regs (c : ExcCode) (a : Word) (bd bt : Bool) (ce : BitVec 2) (d : Word) (s : State) :
    (recordException c a bd bt ce d s).regs = s.regs := rfl
@[simp] theorem recordException_hi (c : ExcCode) (a : Word) (bd bt : Bool) (ce : BitVec 2) (d : Word) (s : State) :
    (recordException c a bd bt ce d s).hi = s.hi := rfl
@[simp] theorem recordException_lo (c : ExcCode) (a : Word) (bd bt : Bool) (ce : BitVec 2) (d : Word) (s : State) :
    (recordException c a bd bt ce d s).lo = s.lo := rfl
@[simp] theorem recordException_pipe (c : ExcCode) (a : Word) (bd bt : Bool) (ce : BitVec 2) (d : Word) (s : State) :
    (recordException c a bd bt ce d s).pipe = s.pipe := rfl
@[simp] theorem recordException_delay (c : ExcCode) (a : Word) (bd bt : Bool) (ce : BitVec 2) (d : Word) (s : State) :
    (recordException c a bd bt ce d s).delay = s.delay := rfl
@[simp] theorem recordException_cop0 (c : ExcCode) (a : Word) (bd bt : Bool) (ce : BitVec 2) (d : Word) (s : State) :
    (recordException c a bd bt ce d s).cop0 = { s.cop0 with epc := if bd then a - 4#32 else a, cause := (s.cop0.cause &&& ~~~Config.causeEntryMask) ||| causeEntryBits c bd bt ce, tar := if bd then d else s.cop0.tar, sr := pushModeStack s.cop0.sr } := rfl
@[simp] theorem recordException_cacheControl (c : ExcCode) (a : Word) (bd bt : Bool) (ce : BitVec 2) (d : Word) (s : State) :
    (recordException c a bd bt ce d s).cacheControl = s.cacheControl := rfl
@[simp] theorem recordException_icache (c : ExcCode) (a : Word) (bd bt : Bool) (ce : BitVec 2) (d : Word) (s : State) :
    (recordException c a bd bt ce d s).icache = s.icache := rfl
@[simp] theorem recordException_scratchpad (c : ExcCode) (a : Word) (bd bt : Bool) (ce : BitVec 2) (d : Word) (s : State) :
    (recordException c a bd bt ce d s).scratchpad = s.scratchpad := rfl
@[simp] theorem recordException_timing (c : ExcCode) (a : Word) (bd bt : Bool) (ce : BitVec 2) (d : Word) (s : State) :
    (recordException c a bd bt ce d s).timing = s.timing := rfl
@[simp] theorem recordException_flags (c : ExcCode) (a : Word) (bd bt : Bool) (ce : BitVec 2) (d : Word) (s : State) :
    (recordException c a bd bt ce d s).flags = { s.flags with exceptionRaised := true } := rfl
@[simp] theorem recordException_gte (c : ExcCode) (a : Word) (bd bt : Bool) (ce : BitVec 2) (d : Word) (s : State) :
    (recordException c a bd bt ce d s).gte = s.gte := rfl
@[simp] theorem recordException_refused (c : ExcCode) (a : Word) (bd bt : Bool) (ce : BitVec 2) (d : Word) (s : State) :
    (recordException c a bd bt ce d s).refused = s.refused := rfl
@[simp] theorem recordException_bus (c : ExcCode) (a : Word) (bd bt : Bool) (ce : BitVec 2) (d : Word) (s : State) :
    (recordException c a bd bt ce d s).bus = s.bus := rfl
@[simp] theorem recordException_draws (c : ExcCode) (a : Word) (bd bt : Bool) (ce : BitVec 2) (d : Word) (s : State) :
    (recordException c a bd bt ce d s).draws = s.draws := rfl

/-! ### setBadVaddr -/

@[simp] theorem setBadVaddr_regs (a : Word) (s : State) : (setBadVaddr a s).regs = s.regs := rfl
@[simp] theorem setBadVaddr_hi (a : Word) (s : State) : (setBadVaddr a s).hi = s.hi := rfl
@[simp] theorem setBadVaddr_lo (a : Word) (s : State) : (setBadVaddr a s).lo = s.lo := rfl
@[simp] theorem setBadVaddr_pipe (a : Word) (s : State) : (setBadVaddr a s).pipe = s.pipe := rfl
@[simp] theorem setBadVaddr_delay (a : Word) (s : State) : (setBadVaddr a s).delay = s.delay := rfl
@[simp] theorem setBadVaddr_cop0 (a : Word) (s : State) : (setBadVaddr a s).cop0 = { s.cop0 with badVaddr := a } := rfl
@[simp] theorem setBadVaddr_cacheControl (a : Word) (s : State) :
    (setBadVaddr a s).cacheControl = s.cacheControl := rfl
@[simp] theorem setBadVaddr_icache (a : Word) (s : State) : (setBadVaddr a s).icache = s.icache := rfl
@[simp] theorem setBadVaddr_scratchpad (a : Word) (s : State) : (setBadVaddr a s).scratchpad = s.scratchpad := rfl
@[simp] theorem setBadVaddr_timing (a : Word) (s : State) : (setBadVaddr a s).timing = s.timing := rfl
@[simp] theorem setBadVaddr_flags (a : Word) (s : State) : (setBadVaddr a s).flags = s.flags := rfl
@[simp] theorem setBadVaddr_gte (a : Word) (s : State) : (setBadVaddr a s).gte = s.gte := rfl
@[simp] theorem setBadVaddr_refused (a : Word) (s : State) : (setBadVaddr a s).refused = s.refused := rfl
@[simp] theorem setBadVaddr_bus (a : Word) (s : State) : (setBadVaddr a s).bus = s.bus := rfl
@[simp] theorem setBadVaddr_draws (a : Word) (s : State) : (setBadVaddr a s).draws = s.draws := rfl

/-! ### restoreFromException -/

@[simp] theorem restoreFromException_regs (s : State) : (restoreFromException s).regs = s.regs := rfl
@[simp] theorem restoreFromException_hi (s : State) : (restoreFromException s).hi = s.hi := rfl
@[simp] theorem restoreFromException_lo (s : State) : (restoreFromException s).lo = s.lo := rfl
@[simp] theorem restoreFromException_pipe (s : State) : (restoreFromException s).pipe = s.pipe := rfl
@[simp] theorem restoreFromException_delay (s : State) : (restoreFromException s).delay = s.delay := rfl
@[simp] theorem restoreFromException_cop0 (s : State) :
    (restoreFromException s).cop0 = { s.cop0 with sr := popModeStack s.cop0.sr } := rfl
@[simp] theorem restoreFromException_cacheControl (s : State) :
    (restoreFromException s).cacheControl = s.cacheControl := rfl
@[simp] theorem restoreFromException_icache (s : State) : (restoreFromException s).icache = s.icache := rfl
@[simp] theorem restoreFromException_scratchpad (s : State) : (restoreFromException s).scratchpad = s.scratchpad := rfl
@[simp] theorem restoreFromException_timing (s : State) : (restoreFromException s).timing = s.timing := rfl
@[simp] theorem restoreFromException_flags (s : State) : (restoreFromException s).flags = s.flags := rfl
@[simp] theorem restoreFromException_gte (s : State) : (restoreFromException s).gte = s.gte := rfl
@[simp] theorem restoreFromException_refused (s : State) : (restoreFromException s).refused = s.refused := rfl
@[simp] theorem restoreFromException_bus (s : State) : (restoreFromException s).bus = s.bus := rfl
@[simp] theorem restoreFromException_draws (s : State) : (restoreFromException s).draws = s.draws := rfl

/-! ### storeScratch -/

@[simp] theorem storeScratch_regs (off : BitVec 10) (m : BitVec 4) (v : Word) (s : State) :
    (storeScratch off m v s).regs = s.regs := rfl
@[simp] theorem storeScratch_hi (off : BitVec 10) (m : BitVec 4) (v : Word) (s : State) :
    (storeScratch off m v s).hi = s.hi := rfl
@[simp] theorem storeScratch_lo (off : BitVec 10) (m : BitVec 4) (v : Word) (s : State) :
    (storeScratch off m v s).lo = s.lo := rfl
@[simp] theorem storeScratch_pipe (off : BitVec 10) (m : BitVec 4) (v : Word) (s : State) :
    (storeScratch off m v s).pipe = s.pipe := rfl
@[simp] theorem storeScratch_delay (off : BitVec 10) (m : BitVec 4) (v : Word) (s : State) :
    (storeScratch off m v s).delay = s.delay := rfl
@[simp] theorem storeScratch_cop0 (off : BitVec 10) (m : BitVec 4) (v : Word) (s : State) :
    (storeScratch off m v s).cop0 = s.cop0 := rfl
@[simp] theorem storeScratch_cacheControl (off : BitVec 10) (m : BitVec 4) (v : Word) (s : State) :
    (storeScratch off m v s).cacheControl = s.cacheControl := rfl
@[simp] theorem storeScratch_icache (off : BitVec 10) (m : BitVec 4) (v : Word) (s : State) :
    (storeScratch off m v s).icache = s.icache := rfl
@[simp] theorem storeScratch_scratchpad (off : BitVec 10) (m : BitVec 4) (v : Word) (s : State) :
    (storeScratch off m v s).scratchpad = writeScratch s.scratchpad off m v := rfl
@[simp] theorem storeScratch_timing (off : BitVec 10) (m : BitVec 4) (v : Word) (s : State) :
    (storeScratch off m v s).timing = s.timing := rfl
@[simp] theorem storeScratch_flags (off : BitVec 10) (m : BitVec 4) (v : Word) (s : State) :
    (storeScratch off m v s).flags = s.flags := rfl
@[simp] theorem storeScratch_gte (off : BitVec 10) (m : BitVec 4) (v : Word) (s : State) :
    (storeScratch off m v s).gte = s.gte := rfl
@[simp] theorem storeScratch_refused (off : BitVec 10) (m : BitVec 4) (v : Word) (s : State) :
    (storeScratch off m v s).refused = s.refused := rfl
@[simp] theorem storeScratch_bus (off : BitVec 10) (m : BitVec 4) (v : Word) (s : State) :
    (storeScratch off m v s).bus = s.bus := rfl
@[simp] theorem storeScratch_draws (off : BitVec 10) (m : BitVec 4) (v : Word) (s : State) :
    (storeScratch off m v s).draws = s.draws := rfl

/-! ### gteStall -/

@[simp] theorem gteStall_regs (s : State) : (gteStall s).regs = s.regs := rfl
@[simp] theorem gteStall_hi (s : State) : (gteStall s).hi = s.hi := rfl
@[simp] theorem gteStall_lo (s : State) : (gteStall s).lo = s.lo := rfl
@[simp] theorem gteStall_pipe (s : State) : (gteStall s).pipe = s.pipe := rfl
@[simp] theorem gteStall_delay (s : State) : (gteStall s).delay = s.delay := rfl
@[simp] theorem gteStall_cop0 (s : State) : (gteStall s).cop0 = s.cop0 := rfl
@[simp] theorem gteStall_cacheControl (s : State) : (gteStall s).cacheControl = s.cacheControl := rfl
@[simp] theorem gteStall_icache (s : State) : (gteStall s).icache = s.icache := rfl
@[simp] theorem gteStall_scratchpad (s : State) : (gteStall s).scratchpad = s.scratchpad := rfl
@[simp] theorem gteStall_timing (s : State) :
    (gteStall s).timing = { s.timing with pendingTicks := max s.timing.pendingTicks s.timing.gteCompletionTick } := rfl
@[simp] theorem gteStall_flags (s : State) : (gteStall s).flags = s.flags := rfl
@[simp] theorem gteStall_gte (s : State) : (gteStall s).gte = s.gte := rfl
@[simp] theorem gteStall_refused (s : State) : (gteStall s).refused = s.refused := rfl
@[simp] theorem gteStall_bus (s : State) : (gteStall s).bus = s.bus := rfl
@[simp] theorem gteStall_draws (s : State) : (gteStall s).draws = s.draws := rfl

/-! ### gteSet -/

@[simp] theorem gteSet_regs (n : GteReg) (v : Word) (s : State) : (gteSet n v s).regs = s.regs := rfl
@[simp] theorem gteSet_hi (n : GteReg) (v : Word) (s : State) : (gteSet n v s).hi = s.hi := rfl
@[simp] theorem gteSet_lo (n : GteReg) (v : Word) (s : State) : (gteSet n v s).lo = s.lo := rfl
@[simp] theorem gteSet_pipe (n : GteReg) (v : Word) (s : State) : (gteSet n v s).pipe = s.pipe := rfl
@[simp] theorem gteSet_delay (n : GteReg) (v : Word) (s : State) : (gteSet n v s).delay = s.delay := rfl
@[simp] theorem gteSet_cop0 (n : GteReg) (v : Word) (s : State) : (gteSet n v s).cop0 = s.cop0 := rfl
@[simp] theorem gteSet_cacheControl (n : GteReg) (v : Word) (s : State) :
    (gteSet n v s).cacheControl = s.cacheControl := rfl
@[simp] theorem gteSet_icache (n : GteReg) (v : Word) (s : State) : (gteSet n v s).icache = s.icache := rfl
@[simp] theorem gteSet_scratchpad (n : GteReg) (v : Word) (s : State) : (gteSet n v s).scratchpad = s.scratchpad := rfl
@[simp] theorem gteSet_timing (n : GteReg) (v : Word) (s : State) : (gteSet n v s).timing = s.timing := rfl
@[simp] theorem gteSet_flags (n : GteReg) (v : Word) (s : State) : (gteSet n v s).flags = s.flags := rfl
@[simp] theorem gteSet_gte (n : GteReg) (v : Word) (s : State) : (gteSet n v s).gte = Config.gteWrite s.gte n v := rfl
@[simp] theorem gteSet_refused (n : GteReg) (v : Word) (s : State) : (gteSet n v s).refused = s.refused := rfl
@[simp] theorem gteSet_bus (n : GteReg) (v : Word) (s : State) : (gteSet n v s).bus = s.bus := rfl
@[simp] theorem gteSet_draws (n : GteReg) (v : Word) (s : State) : (gteSet n v s).draws = s.draws := rfl

/-! ### gteIssue -/

@[simp] theorem gteIssue_regs (c : BitVec 25) (s : State) : (gteIssue c s).regs = s.regs := rfl
@[simp] theorem gteIssue_hi (c : BitVec 25) (s : State) : (gteIssue c s).hi = s.hi := rfl
@[simp] theorem gteIssue_lo (c : BitVec 25) (s : State) : (gteIssue c s).lo = s.lo := rfl
@[simp] theorem gteIssue_pipe (c : BitVec 25) (s : State) : (gteIssue c s).pipe = s.pipe := rfl
@[simp] theorem gteIssue_delay (c : BitVec 25) (s : State) : (gteIssue c s).delay = s.delay := rfl
@[simp] theorem gteIssue_cop0 (c : BitVec 25) (s : State) : (gteIssue c s).cop0 = s.cop0 := rfl
@[simp] theorem gteIssue_cacheControl (c : BitVec 25) (s : State) : (gteIssue c s).cacheControl = s.cacheControl := rfl
@[simp] theorem gteIssue_icache (c : BitVec 25) (s : State) : (gteIssue c s).icache = s.icache := rfl
@[simp] theorem gteIssue_scratchpad (c : BitVec 25) (s : State) : (gteIssue c s).scratchpad = s.scratchpad := rfl
@[simp] theorem gteIssue_timing (c : BitVec 25) (s : State) :
    (gteIssue c s).timing = { s.timing with gteCompletionTick := s.timing.pendingTicks + Config.gteLatency c } := rfl
@[simp] theorem gteIssue_flags (c : BitVec 25) (s : State) : (gteIssue c s).flags = s.flags := rfl
@[simp] theorem gteIssue_gte (c : BitVec 25) (s : State) : (gteIssue c s).gte = Config.gteExecute s.gte c := rfl
@[simp] theorem gteIssue_refused (c : BitVec 25) (s : State) : (gteIssue c s).refused = s.refused := rfl
@[simp] theorem gteIssue_bus (c : BitVec 25) (s : State) : (gteIssue c s).bus = s.bus := rfl
@[simp] theorem gteIssue_draws (c : BitVec 25) (s : State) : (gteIssue c s).draws = s.draws := rfl

/-! ### shiftSlots -/

@[simp] theorem shiftSlots_regs (s : State) : (shiftSlots s).regs = s.regs := rfl
@[simp] theorem shiftSlots_hi (s : State) : (shiftSlots s).hi = s.hi := rfl
@[simp] theorem shiftSlots_lo (s : State) : (shiftSlots s).lo = s.lo := rfl
@[simp] theorem shiftSlots_pipe (s : State) :
    (shiftSlots s).pipe = { s.pipe with currentInstruction := s.pipe.nextInstruction, currentInstructionPc := s.pipe.pc, currentInBranchDelaySlot := s.pipe.nextInstructionIsBranchDelaySlot, currentBranchWasTaken := s.pipe.branchWasTaken, nextInstructionIsBranchDelaySlot := false, branchWasTaken := false } := rfl
@[simp] theorem shiftSlots_delay (s : State) : (shiftSlots s).delay = s.delay := rfl
@[simp] theorem shiftSlots_cop0 (s : State) : (shiftSlots s).cop0 = s.cop0 := rfl
@[simp] theorem shiftSlots_cacheControl (s : State) : (shiftSlots s).cacheControl = s.cacheControl := rfl
@[simp] theorem shiftSlots_icache (s : State) : (shiftSlots s).icache = s.icache := rfl
@[simp] theorem shiftSlots_scratchpad (s : State) : (shiftSlots s).scratchpad = s.scratchpad := rfl
@[simp] theorem shiftSlots_timing (s : State) : (shiftSlots s).timing = s.timing := rfl
@[simp] theorem shiftSlots_flags (s : State) :
    (shiftSlots s).flags = { exceptionRaised := false, busError := false } := rfl
@[simp] theorem shiftSlots_gte (s : State) : (shiftSlots s).gte = s.gte := rfl
@[simp] theorem shiftSlots_refused (s : State) : (shiftSlots s).refused = s.refused := rfl
@[simp] theorem shiftSlots_bus (s : State) : (shiftSlots s).bus = s.bus := rfl
@[simp] theorem shiftSlots_draws (s : State) : (shiftSlots s).draws = s.draws := rfl

/-! ### placeNextWord -/

@[simp] theorem placeNextWord_regs (w : Word) (s : State) : (placeNextWord w s).regs = s.regs := rfl
@[simp] theorem placeNextWord_hi (w : Word) (s : State) : (placeNextWord w s).hi = s.hi := rfl
@[simp] theorem placeNextWord_lo (w : Word) (s : State) : (placeNextWord w s).lo = s.lo := rfl
@[simp] theorem placeNextWord_pipe (w : Word) (s : State) :
    (placeNextWord w s).pipe = { s.pipe with nextInstruction := .word w } := rfl
@[simp] theorem placeNextWord_delay (w : Word) (s : State) : (placeNextWord w s).delay = s.delay := rfl
@[simp] theorem placeNextWord_cop0 (w : Word) (s : State) : (placeNextWord w s).cop0 = s.cop0 := rfl
@[simp] theorem placeNextWord_cacheControl (w : Word) (s : State) :
    (placeNextWord w s).cacheControl = s.cacheControl := rfl
@[simp] theorem placeNextWord_icache (w : Word) (s : State) : (placeNextWord w s).icache = s.icache := rfl
@[simp] theorem placeNextWord_scratchpad (w : Word) (s : State) : (placeNextWord w s).scratchpad = s.scratchpad := rfl
@[simp] theorem placeNextWord_timing (w : Word) (s : State) : (placeNextWord w s).timing = s.timing := rfl
@[simp] theorem placeNextWord_flags (w : Word) (s : State) : (placeNextWord w s).flags = s.flags := rfl
@[simp] theorem placeNextWord_gte (w : Word) (s : State) : (placeNextWord w s).gte = s.gte := rfl
@[simp] theorem placeNextWord_refused (w : Word) (s : State) : (placeNextWord w s).refused = s.refused := rfl
@[simp] theorem placeNextWord_bus (w : Word) (s : State) : (placeNextWord w s).bus = s.bus := rfl
@[simp] theorem placeNextWord_draws (w : Word) (s : State) : (placeNextWord w s).draws = s.draws := rfl

/-! ### setCause -/

@[simp] theorem setCause_regs (c : Word) (s : State) : (setCause c s).regs = s.regs := rfl
@[simp] theorem setCause_hi (c : Word) (s : State) : (setCause c s).hi = s.hi := rfl
@[simp] theorem setCause_lo (c : Word) (s : State) : (setCause c s).lo = s.lo := rfl
@[simp] theorem setCause_pipe (c : Word) (s : State) : (setCause c s).pipe = s.pipe := rfl
@[simp] theorem setCause_delay (c : Word) (s : State) : (setCause c s).delay = s.delay := rfl
@[simp] theorem setCause_cop0 (c : Word) (s : State) : (setCause c s).cop0 = { s.cop0 with cause := c } := rfl
@[simp] theorem setCause_cacheControl (c : Word) (s : State) : (setCause c s).cacheControl = s.cacheControl := rfl
@[simp] theorem setCause_icache (c : Word) (s : State) : (setCause c s).icache = s.icache := rfl
@[simp] theorem setCause_scratchpad (c : Word) (s : State) : (setCause c s).scratchpad = s.scratchpad := rfl
@[simp] theorem setCause_timing (c : Word) (s : State) : (setCause c s).timing = s.timing := rfl
@[simp] theorem setCause_flags (c : Word) (s : State) : (setCause c s).flags = s.flags := rfl
@[simp] theorem setCause_gte (c : Word) (s : State) : (setCause c s).gte = s.gte := rfl
@[simp] theorem setCause_refused (c : Word) (s : State) : (setCause c s).refused = s.refused := rfl
@[simp] theorem setCause_bus (c : Word) (s : State) : (setCause c s).bus = s.bus := rfl
@[simp] theorem setCause_draws (c : Word) (s : State) : (setCause c s).draws = s.draws := rfl

/-! ### resetPendingTicks -/

@[simp] theorem resetPendingTicks_regs (s : State) : (resetPendingTicks s).regs = s.regs := rfl
@[simp] theorem resetPendingTicks_hi (s : State) : (resetPendingTicks s).hi = s.hi := rfl
@[simp] theorem resetPendingTicks_lo (s : State) : (resetPendingTicks s).lo = s.lo := rfl
@[simp] theorem resetPendingTicks_pipe (s : State) : (resetPendingTicks s).pipe = s.pipe := rfl
@[simp] theorem resetPendingTicks_delay (s : State) : (resetPendingTicks s).delay = s.delay := rfl
@[simp] theorem resetPendingTicks_cop0 (s : State) : (resetPendingTicks s).cop0 = s.cop0 := rfl
@[simp] theorem resetPendingTicks_cacheControl (s : State) : (resetPendingTicks s).cacheControl = s.cacheControl := rfl
@[simp] theorem resetPendingTicks_icache (s : State) : (resetPendingTicks s).icache = s.icache := rfl
@[simp] theorem resetPendingTicks_scratchpad (s : State) : (resetPendingTicks s).scratchpad = s.scratchpad := rfl
@[simp] theorem resetPendingTicks_timing (s : State) :
    (resetPendingTicks s).timing = { pendingTicks := 0, downcount := s.timing.downcount - s.timing.pendingTicks, gteCompletionTick := s.timing.gteCompletionTick - s.timing.pendingTicks } := rfl
@[simp] theorem resetPendingTicks_flags (s : State) : (resetPendingTicks s).flags = s.flags := rfl
@[simp] theorem resetPendingTicks_gte (s : State) : (resetPendingTicks s).gte = s.gte := rfl
@[simp] theorem resetPendingTicks_refused (s : State) : (resetPendingTicks s).refused = s.refused := rfl
@[simp] theorem resetPendingTicks_bus (s : State) : (resetPendingTicks s).bus = s.bus := rfl
@[simp] theorem resetPendingTicks_draws (s : State) : (resetPendingTicks s).draws = s.draws := rfl

/-! ### setDowncount -/

@[simp] theorem setDowncount_regs (d : Int) (s : State) : (setDowncount d s).regs = s.regs := rfl
@[simp] theorem setDowncount_hi (d : Int) (s : State) : (setDowncount d s).hi = s.hi := rfl
@[simp] theorem setDowncount_lo (d : Int) (s : State) : (setDowncount d s).lo = s.lo := rfl
@[simp] theorem setDowncount_pipe (d : Int) (s : State) : (setDowncount d s).pipe = s.pipe := rfl
@[simp] theorem setDowncount_delay (d : Int) (s : State) : (setDowncount d s).delay = s.delay := rfl
@[simp] theorem setDowncount_cop0 (d : Int) (s : State) : (setDowncount d s).cop0 = s.cop0 := rfl
@[simp] theorem setDowncount_cacheControl (d : Int) (s : State) :
    (setDowncount d s).cacheControl = s.cacheControl := rfl
@[simp] theorem setDowncount_icache (d : Int) (s : State) : (setDowncount d s).icache = s.icache := rfl
@[simp] theorem setDowncount_scratchpad (d : Int) (s : State) : (setDowncount d s).scratchpad = s.scratchpad := rfl
@[simp] theorem setDowncount_timing (d : Int) (s : State) :
    (setDowncount d s).timing = { s.timing with downcount := d } := rfl
@[simp] theorem setDowncount_flags (d : Int) (s : State) : (setDowncount d s).flags = s.flags := rfl
@[simp] theorem setDowncount_gte (d : Int) (s : State) : (setDowncount d s).gte = s.gte := rfl
@[simp] theorem setDowncount_refused (d : Int) (s : State) : (setDowncount d s).refused = s.refused := rfl
@[simp] theorem setDowncount_bus (d : Int) (s : State) : (setDowncount d s).bus = s.bus := rfl
@[simp] theorem setDowncount_draws (d : Int) (s : State) : (setDowncount d s).draws = s.draws := rfl

/-! ### withBusMemory -/

@[simp] theorem withBusMemory_regs (m : Memory) (s : State) : (withBusMemory m s).regs = s.regs := rfl
@[simp] theorem withBusMemory_hi (m : Memory) (s : State) : (withBusMemory m s).hi = s.hi := rfl
@[simp] theorem withBusMemory_lo (m : Memory) (s : State) : (withBusMemory m s).lo = s.lo := rfl
@[simp] theorem withBusMemory_pipe (m : Memory) (s : State) : (withBusMemory m s).pipe = s.pipe := rfl
@[simp] theorem withBusMemory_delay (m : Memory) (s : State) : (withBusMemory m s).delay = s.delay := rfl
@[simp] theorem withBusMemory_cop0 (m : Memory) (s : State) : (withBusMemory m s).cop0 = s.cop0 := rfl
@[simp] theorem withBusMemory_cacheControl (m : Memory) (s : State) :
    (withBusMemory m s).cacheControl = s.cacheControl := rfl
@[simp] theorem withBusMemory_icache (m : Memory) (s : State) : (withBusMemory m s).icache = s.icache := rfl
@[simp] theorem withBusMemory_scratchpad (m : Memory) (s : State) :
    (withBusMemory m s).scratchpad = s.scratchpad := rfl
@[simp] theorem withBusMemory_timing (m : Memory) (s : State) : (withBusMemory m s).timing = s.timing := rfl
@[simp] theorem withBusMemory_flags (m : Memory) (s : State) : (withBusMemory m s).flags = s.flags := rfl
@[simp] theorem withBusMemory_gte (m : Memory) (s : State) : (withBusMemory m s).gte = s.gte := rfl
@[simp] theorem withBusMemory_refused (m : Memory) (s : State) : (withBusMemory m s).refused = s.refused := rfl
@[simp] theorem withBusMemory_bus (m : Memory) (s : State) : (withBusMemory m s).bus = { s.bus with mem := m } := rfl
@[simp] theorem withBusMemory_draws (m : Memory) (s : State) : (withBusMemory m s).draws = s.draws := rfl

/-! ### setReg -/

@[simp] theorem setReg_regs (i : RegNum) (v : Word) (s : State) :
    (setReg i v s).regs = if i = 0#5 then s.regs else s.regs.write i v := by
  unfold setReg; split <;> rfl
@[simp] theorem setReg_hi (i : RegNum) (v : Word) (s : State) : (setReg i v s).hi = s.hi := by
  unfold setReg; split <;> rfl
@[simp] theorem setReg_lo (i : RegNum) (v : Word) (s : State) : (setReg i v s).lo = s.lo := by
  unfold setReg; split <;> rfl
@[simp] theorem setReg_pipe (i : RegNum) (v : Word) (s : State) : (setReg i v s).pipe = s.pipe := by
  unfold setReg; split <;> rfl
@[simp] theorem setReg_delay (i : RegNum) (v : Word) (s : State) : (setReg i v s).delay = s.delay := by
  unfold setReg; split <;> rfl
@[simp] theorem setReg_cop0 (i : RegNum) (v : Word) (s : State) : (setReg i v s).cop0 = s.cop0 := by
  unfold setReg; split <;> rfl
@[simp] theorem setReg_cacheControl (i : RegNum) (v : Word) (s : State) :
    (setReg i v s).cacheControl = s.cacheControl := by
  unfold setReg; split <;> rfl
@[simp] theorem setReg_icache (i : RegNum) (v : Word) (s : State) : (setReg i v s).icache = s.icache := by
  unfold setReg; split <;> rfl
@[simp] theorem setReg_scratchpad (i : RegNum) (v : Word) (s : State) : (setReg i v s).scratchpad = s.scratchpad := by
  unfold setReg; split <;> rfl
@[simp] theorem setReg_timing (i : RegNum) (v : Word) (s : State) : (setReg i v s).timing = s.timing := by
  unfold setReg; split <;> rfl
@[simp] theorem setReg_flags (i : RegNum) (v : Word) (s : State) : (setReg i v s).flags = s.flags := by
  unfold setReg; split <;> rfl
@[simp] theorem setReg_gte (i : RegNum) (v : Word) (s : State) : (setReg i v s).gte = s.gte := by
  unfold setReg; split <;> rfl
@[simp] theorem setReg_refused (i : RegNum) (v : Word) (s : State) : (setReg i v s).refused = s.refused := by
  unfold setReg; split <;> rfl
@[simp] theorem setReg_bus (i : RegNum) (v : Word) (s : State) : (setReg i v s).bus = s.bus := by
  unfold setReg; split <;> rfl
@[simp] theorem setReg_draws (i : RegNum) (v : Word) (s : State) : (setReg i v s).draws = s.draws := by
  unfold setReg; split <;> rfl

/-! ### cancelPending -/

@[simp] theorem cancelPending_regs (i : RegNum) (s : State) : (cancelPending i s).regs = s.regs := by
  unfold cancelPending; split <;> rfl
@[simp] theorem cancelPending_hi (i : RegNum) (s : State) : (cancelPending i s).hi = s.hi := by
  unfold cancelPending; split <;> rfl
@[simp] theorem cancelPending_lo (i : RegNum) (s : State) : (cancelPending i s).lo = s.lo := by
  unfold cancelPending; split <;> rfl
@[simp] theorem cancelPending_pipe (i : RegNum) (s : State) : (cancelPending i s).pipe = s.pipe := by
  unfold cancelPending; split <;> rfl
@[simp] theorem cancelPending_delay (i : RegNum) (s : State) :
    (cancelPending i s).delay = if s.delay.reg = some i then { s.delay with reg := none } else s.delay := by
  unfold cancelPending; split <;> rfl
@[simp] theorem cancelPending_cop0 (i : RegNum) (s : State) : (cancelPending i s).cop0 = s.cop0 := by
  unfold cancelPending; split <;> rfl
@[simp] theorem cancelPending_cacheControl (i : RegNum) (s : State) :
    (cancelPending i s).cacheControl = s.cacheControl := by
  unfold cancelPending; split <;> rfl
@[simp] theorem cancelPending_icache (i : RegNum) (s : State) : (cancelPending i s).icache = s.icache := by
  unfold cancelPending; split <;> rfl
@[simp] theorem cancelPending_scratchpad (i : RegNum) (s : State) :
    (cancelPending i s).scratchpad = s.scratchpad := by
  unfold cancelPending; split <;> rfl
@[simp] theorem cancelPending_timing (i : RegNum) (s : State) : (cancelPending i s).timing = s.timing := by
  unfold cancelPending; split <;> rfl
@[simp] theorem cancelPending_flags (i : RegNum) (s : State) : (cancelPending i s).flags = s.flags := by
  unfold cancelPending; split <;> rfl
@[simp] theorem cancelPending_gte (i : RegNum) (s : State) : (cancelPending i s).gte = s.gte := by
  unfold cancelPending; split <;> rfl
@[simp] theorem cancelPending_refused (i : RegNum) (s : State) : (cancelPending i s).refused = s.refused := by
  unfold cancelPending; split <;> rfl
@[simp] theorem cancelPending_bus (i : RegNum) (s : State) : (cancelPending i s).bus = s.bus := by
  unfold cancelPending; split <;> rfl
@[simp] theorem cancelPending_draws (i : RegNum) (s : State) : (cancelPending i s).draws = s.draws := by
  unfold cancelPending; split <;> rfl

/-! ### writeReg -/

@[simp] theorem writeReg_regs (i : RegNum) (v : Word) (s : State) :
    (writeReg i v s).regs = if i = 0#5 then s.regs else s.regs.write i v := by
  simp [writeReg]
@[simp] theorem writeReg_hi (i : RegNum) (v : Word) (s : State) : (writeReg i v s).hi = s.hi := by
  simp [writeReg]
@[simp] theorem writeReg_lo (i : RegNum) (v : Word) (s : State) : (writeReg i v s).lo = s.lo := by
  simp [writeReg]
@[simp] theorem writeReg_pipe (i : RegNum) (v : Word) (s : State) : (writeReg i v s).pipe = s.pipe := by
  simp [writeReg]
@[simp] theorem writeReg_delay (i : RegNum) (v : Word) (s : State) :
    (writeReg i v s).delay = if s.delay.reg = some i then { s.delay with reg := none } else s.delay := by
  simp [writeReg]
@[simp] theorem writeReg_cop0 (i : RegNum) (v : Word) (s : State) : (writeReg i v s).cop0 = s.cop0 := by
  simp [writeReg]
@[simp] theorem writeReg_cacheControl (i : RegNum) (v : Word) (s : State) :
    (writeReg i v s).cacheControl = s.cacheControl := by
  simp [writeReg]
@[simp] theorem writeReg_icache (i : RegNum) (v : Word) (s : State) : (writeReg i v s).icache = s.icache := by
  simp [writeReg]
@[simp] theorem writeReg_scratchpad (i : RegNum) (v : Word) (s : State) :
    (writeReg i v s).scratchpad = s.scratchpad := by
  simp [writeReg]
@[simp] theorem writeReg_timing (i : RegNum) (v : Word) (s : State) : (writeReg i v s).timing = s.timing := by
  simp [writeReg]
@[simp] theorem writeReg_flags (i : RegNum) (v : Word) (s : State) : (writeReg i v s).flags = s.flags := by
  simp [writeReg]
@[simp] theorem writeReg_gte (i : RegNum) (v : Word) (s : State) : (writeReg i v s).gte = s.gte := by
  simp [writeReg]
@[simp] theorem writeReg_refused (i : RegNum) (v : Word) (s : State) : (writeReg i v s).refused = s.refused := by
  simp [writeReg]
@[simp] theorem writeReg_bus (i : RegNum) (v : Word) (s : State) : (writeReg i v s).bus = s.bus := by
  simp [writeReg]
@[simp] theorem writeReg_draws (i : RegNum) (v : Word) (s : State) : (writeReg i v s).draws = s.draws := by
  simp [writeReg]

/-! ### writeRegDelayed -/

@[simp] theorem writeRegDelayed_regs (i : RegNum) (v : Word) (s : State) : (writeRegDelayed i v s).regs = s.regs := by
  unfold writeRegDelayed; split <;> simp
@[simp] theorem writeRegDelayed_hi (i : RegNum) (v : Word) (s : State) : (writeRegDelayed i v s).hi = s.hi := by
  unfold writeRegDelayed; split <;> simp
@[simp] theorem writeRegDelayed_lo (i : RegNum) (v : Word) (s : State) : (writeRegDelayed i v s).lo = s.lo := by
  unfold writeRegDelayed; split <;> simp
@[simp] theorem writeRegDelayed_pipe (i : RegNum) (v : Word) (s : State) : (writeRegDelayed i v s).pipe = s.pipe := by
  unfold writeRegDelayed; split <;> simp
@[simp] theorem writeRegDelayed_delay (i : RegNum) (v : Word) (s : State) :
    (writeRegDelayed i v s).delay = if i = 0#5 then s.delay else { reg := if s.delay.reg = some i then none else s.delay.reg, value := s.delay.value, nextReg := some i, nextValue := v } := by
  unfold writeRegDelayed; split
  · rfl
  · simp only [cancelPending_delay]; split <;> rfl
@[simp] theorem writeRegDelayed_cop0 (i : RegNum) (v : Word) (s : State) : (writeRegDelayed i v s).cop0 = s.cop0 := by
  unfold writeRegDelayed; split <;> simp
@[simp] theorem writeRegDelayed_cacheControl (i : RegNum) (v : Word) (s : State) :
    (writeRegDelayed i v s).cacheControl = s.cacheControl := by
  unfold writeRegDelayed; split <;> simp
@[simp] theorem writeRegDelayed_icache (i : RegNum) (v : Word) (s : State) :
    (writeRegDelayed i v s).icache = s.icache := by
  unfold writeRegDelayed; split <;> simp
@[simp] theorem writeRegDelayed_scratchpad (i : RegNum) (v : Word) (s : State) :
    (writeRegDelayed i v s).scratchpad = s.scratchpad := by
  unfold writeRegDelayed; split <;> simp
@[simp] theorem writeRegDelayed_timing (i : RegNum) (v : Word) (s : State) :
    (writeRegDelayed i v s).timing = s.timing := by
  unfold writeRegDelayed; split <;> simp
@[simp] theorem writeRegDelayed_flags (i : RegNum) (v : Word) (s : State) :
    (writeRegDelayed i v s).flags = s.flags := by
  unfold writeRegDelayed; split <;> simp
@[simp] theorem writeRegDelayed_gte (i : RegNum) (v : Word) (s : State) : (writeRegDelayed i v s).gte = s.gte := by
  unfold writeRegDelayed; split <;> simp
@[simp] theorem writeRegDelayed_refused (i : RegNum) (v : Word) (s : State) :
    (writeRegDelayed i v s).refused = s.refused := by
  unfold writeRegDelayed; split <;> simp
@[simp] theorem writeRegDelayed_bus (i : RegNum) (v : Word) (s : State) : (writeRegDelayed i v s).bus = s.bus := by
  unfold writeRegDelayed; split <;> simp
@[simp] theorem writeRegDelayed_draws (i : RegNum) (v : Word) (s : State) :
    (writeRegDelayed i v s).draws = s.draws := by
  unfold writeRegDelayed; split <;> simp

/-! ### commitPending -/

@[simp] theorem commitPending_hi (s : State) : (commitPending s).hi = s.hi := by
  unfold commitPending; split <;> simp_all
@[simp] theorem commitPending_lo (s : State) : (commitPending s).lo = s.lo := by
  unfold commitPending; split <;> simp_all
@[simp] theorem commitPending_pipe (s : State) : (commitPending s).pipe = s.pipe := by
  unfold commitPending; split <;> simp_all
@[simp] theorem commitPending_delay (s : State) : (commitPending s).delay = s.delay := by
  unfold commitPending; split <;> simp_all
@[simp] theorem commitPending_cop0 (s : State) : (commitPending s).cop0 = s.cop0 := by
  unfold commitPending; split <;> simp_all
@[simp] theorem commitPending_cacheControl (s : State) : (commitPending s).cacheControl = s.cacheControl := by
  unfold commitPending; split <;> simp_all
@[simp] theorem commitPending_icache (s : State) : (commitPending s).icache = s.icache := by
  unfold commitPending; split <;> simp_all
@[simp] theorem commitPending_scratchpad (s : State) : (commitPending s).scratchpad = s.scratchpad := by
  unfold commitPending; split <;> simp_all
@[simp] theorem commitPending_timing (s : State) : (commitPending s).timing = s.timing := by
  unfold commitPending; split <;> simp_all
@[simp] theorem commitPending_flags (s : State) : (commitPending s).flags = s.flags := by
  unfold commitPending; split <;> simp_all
@[simp] theorem commitPending_gte (s : State) : (commitPending s).gte = s.gte := by
  unfold commitPending; split <;> simp_all
@[simp] theorem commitPending_refused (s : State) : (commitPending s).refused = s.refused := by
  unfold commitPending; split <;> simp_all
@[simp] theorem commitPending_bus (s : State) : (commitPending s).bus = s.bus := by
  unfold commitPending; split <;> simp_all
@[simp] theorem commitPending_draws (s : State) : (commitPending s).draws = s.draws := by
  unfold commitPending; split <;> simp_all

/-! ### updateLoadDelay -/

@[simp] theorem updateLoadDelay_regs (s : State) : (updateLoadDelay s).regs = (commitPending s).regs := by
  simp [updateLoadDelay]
@[simp] theorem updateLoadDelay_hi (s : State) : (updateLoadDelay s).hi = s.hi := by
  simp [updateLoadDelay]
@[simp] theorem updateLoadDelay_lo (s : State) : (updateLoadDelay s).lo = s.lo := by
  simp [updateLoadDelay]
@[simp] theorem updateLoadDelay_pipe (s : State) : (updateLoadDelay s).pipe = s.pipe := by
  simp [updateLoadDelay]
@[simp] theorem updateLoadDelay_delay (s : State) :
    (updateLoadDelay s).delay = { reg := s.delay.nextReg, value := s.delay.nextValue, nextReg := none, nextValue := s.delay.nextValue } := by
  simp [updateLoadDelay]
@[simp] theorem updateLoadDelay_cop0 (s : State) : (updateLoadDelay s).cop0 = s.cop0 := by
  simp [updateLoadDelay]
@[simp] theorem updateLoadDelay_cacheControl (s : State) : (updateLoadDelay s).cacheControl = s.cacheControl := by
  simp [updateLoadDelay]
@[simp] theorem updateLoadDelay_icache (s : State) : (updateLoadDelay s).icache = s.icache := by
  simp [updateLoadDelay]
@[simp] theorem updateLoadDelay_scratchpad (s : State) : (updateLoadDelay s).scratchpad = s.scratchpad := by
  simp [updateLoadDelay]
@[simp] theorem updateLoadDelay_timing (s : State) : (updateLoadDelay s).timing = s.timing := by
  simp [updateLoadDelay]
@[simp] theorem updateLoadDelay_flags (s : State) : (updateLoadDelay s).flags = s.flags := by
  simp [updateLoadDelay]
@[simp] theorem updateLoadDelay_gte (s : State) : (updateLoadDelay s).gte = s.gte := by
  simp [updateLoadDelay]
@[simp] theorem updateLoadDelay_refused (s : State) : (updateLoadDelay s).refused = s.refused := by
  simp [updateLoadDelay]
@[simp] theorem updateLoadDelay_bus (s : State) : (updateLoadDelay s).bus = s.bus := by
  simp [updateLoadDelay]
@[simp] theorem updateLoadDelay_draws (s : State) : (updateLoadDelay s).draws = s.draws := by
  simp [updateLoadDelay]

/-! ### flushHazards -/

@[simp] theorem flushHazards_regs (s : State) : (flushHazards s).regs = (commitPending s).regs := by
  simp [flushHazards]
@[simp] theorem flushHazards_hi (s : State) : (flushHazards s).hi = s.hi := by
  simp [flushHazards]
@[simp] theorem flushHazards_lo (s : State) : (flushHazards s).lo = s.lo := by
  simp [flushHazards]
@[simp] theorem flushHazards_pipe (s : State) :
    (flushHazards s).pipe = { s.pipe with nextInstructionIsBranchDelaySlot := false, branchWasTaken := false } := by
  simp [flushHazards]
@[simp] theorem flushHazards_delay (s : State) :
    (flushHazards s).delay = { s.delay with reg := none, nextReg := none } := by
  simp [flushHazards]
@[simp] theorem flushHazards_cop0 (s : State) : (flushHazards s).cop0 = s.cop0 := by
  simp [flushHazards]
@[simp] theorem flushHazards_cacheControl (s : State) : (flushHazards s).cacheControl = s.cacheControl := by
  simp [flushHazards]
@[simp] theorem flushHazards_icache (s : State) : (flushHazards s).icache = s.icache := by
  simp [flushHazards]
@[simp] theorem flushHazards_scratchpad (s : State) : (flushHazards s).scratchpad = s.scratchpad := by
  simp [flushHazards]
@[simp] theorem flushHazards_timing (s : State) : (flushHazards s).timing = s.timing := by
  simp [flushHazards]
@[simp] theorem flushHazards_flags (s : State) : (flushHazards s).flags = s.flags := by
  simp [flushHazards]
@[simp] theorem flushHazards_gte (s : State) : (flushHazards s).gte = s.gte := by
  simp [flushHazards]
@[simp] theorem flushHazards_refused (s : State) : (flushHazards s).refused = s.refused := by
  simp [flushHazards]
@[simp] theorem flushHazards_bus (s : State) : (flushHazards s).bus = s.bus := by
  simp [flushHazards]
@[simp] theorem flushHazards_draws (s : State) : (flushHazards s).draws = s.draws := by
  simp [flushHazards]

/-! ### branchIf -/

@[simp] theorem branchIf_regs (c : Bool) (a : Word) (s : State) : (branchIf c a s).regs = s.regs := by
  unfold branchIf; cases c <;> rfl
@[simp] theorem branchIf_hi (c : Bool) (a : Word) (s : State) : (branchIf c a s).hi = s.hi := by
  unfold branchIf; cases c <;> rfl
@[simp] theorem branchIf_lo (c : Bool) (a : Word) (s : State) : (branchIf c a s).lo = s.lo := by
  unfold branchIf; cases c <;> rfl
@[simp] theorem branchIf_pipe (c : Bool) (a : Word) (s : State) :
    (branchIf c a s).pipe = { s.pipe with nextInstructionIsBranchDelaySlot := true, npc := if c then a else s.pipe.npc, branchWasTaken := c || s.pipe.branchWasTaken } := by
  unfold branchIf; cases c <;> rfl
@[simp] theorem branchIf_delay (c : Bool) (a : Word) (s : State) : (branchIf c a s).delay = s.delay := by
  unfold branchIf; cases c <;> rfl
@[simp] theorem branchIf_cop0 (c : Bool) (a : Word) (s : State) : (branchIf c a s).cop0 = s.cop0 := by
  unfold branchIf; cases c <;> rfl
@[simp] theorem branchIf_cacheControl (c : Bool) (a : Word) (s : State) :
    (branchIf c a s).cacheControl = s.cacheControl := by
  unfold branchIf; cases c <;> rfl
@[simp] theorem branchIf_icache (c : Bool) (a : Word) (s : State) : (branchIf c a s).icache = s.icache := by
  unfold branchIf; cases c <;> rfl
@[simp] theorem branchIf_scratchpad (c : Bool) (a : Word) (s : State) :
    (branchIf c a s).scratchpad = s.scratchpad := by
  unfold branchIf; cases c <;> rfl
@[simp] theorem branchIf_timing (c : Bool) (a : Word) (s : State) : (branchIf c a s).timing = s.timing := by
  unfold branchIf; cases c <;> rfl
@[simp] theorem branchIf_flags (c : Bool) (a : Word) (s : State) : (branchIf c a s).flags = s.flags := by
  unfold branchIf; cases c <;> rfl
@[simp] theorem branchIf_gte (c : Bool) (a : Word) (s : State) : (branchIf c a s).gte = s.gte := by
  unfold branchIf; cases c <;> rfl
@[simp] theorem branchIf_refused (c : Bool) (a : Word) (s : State) : (branchIf c a s).refused = s.refused := by
  unfold branchIf; cases c <;> rfl
@[simp] theorem branchIf_bus (c : Bool) (a : Word) (s : State) : (branchIf c a s).bus = s.bus := by
  unfold branchIf; cases c <;> rfl
@[simp] theorem branchIf_draws (c : Bool) (a : Word) (s : State) : (branchIf c a s).draws = s.draws := by
  unfold branchIf; cases c <;> rfl

/-! ### writeCacheControl -/

@[simp] theorem writeCacheControl_regs (v : Word) (s : State) : (writeCacheControl v s).regs = s.regs := by
  unfold writeCacheControl; dsimp only; split <;> rfl
@[simp] theorem writeCacheControl_hi (v : Word) (s : State) : (writeCacheControl v s).hi = s.hi := by
  unfold writeCacheControl; dsimp only; split <;> rfl
@[simp] theorem writeCacheControl_lo (v : Word) (s : State) : (writeCacheControl v s).lo = s.lo := by
  unfold writeCacheControl; dsimp only; split <;> rfl
@[simp] theorem writeCacheControl_pipe (v : Word) (s : State) : (writeCacheControl v s).pipe = s.pipe := by
  unfold writeCacheControl; dsimp only; split <;> rfl
@[simp] theorem writeCacheControl_delay (v : Word) (s : State) : (writeCacheControl v s).delay = s.delay := by
  unfold writeCacheControl; dsimp only; split <;> rfl
@[simp] theorem writeCacheControl_cop0 (v : Word) (s : State) : (writeCacheControl v s).cop0 = s.cop0 := by
  unfold writeCacheControl; dsimp only; split <;> rfl
@[simp] theorem writeCacheControl_cacheControl (v : Word) (s : State) : (writeCacheControl v s).cacheControl = v := by
  unfold writeCacheControl; dsimp only; split <;> rfl
@[simp] theorem writeCacheControl_icache (v : Word) (s : State) :
    (writeCacheControl v s).icache = if icacheEnable s.cacheControl && !icacheEnable v then { s.icache with tags := Vector.replicate (2 ^ 8) Config.invalidTag } else s.icache := by
  unfold writeCacheControl; dsimp only; split <;> rfl
@[simp] theorem writeCacheControl_scratchpad (v : Word) (s : State) :
    (writeCacheControl v s).scratchpad = s.scratchpad := by
  unfold writeCacheControl; dsimp only; split <;> rfl
@[simp] theorem writeCacheControl_timing (v : Word) (s : State) : (writeCacheControl v s).timing = s.timing := by
  unfold writeCacheControl; dsimp only; split <;> rfl
@[simp] theorem writeCacheControl_flags (v : Word) (s : State) : (writeCacheControl v s).flags = s.flags := by
  unfold writeCacheControl; dsimp only; split <;> rfl
@[simp] theorem writeCacheControl_gte (v : Word) (s : State) : (writeCacheControl v s).gte = s.gte := by
  unfold writeCacheControl; dsimp only; split <;> rfl
@[simp] theorem writeCacheControl_refused (v : Word) (s : State) : (writeCacheControl v s).refused = s.refused := by
  unfold writeCacheControl; dsimp only; split <;> rfl
@[simp] theorem writeCacheControl_bus (v : Word) (s : State) : (writeCacheControl v s).bus = s.bus := by
  unfold writeCacheControl; dsimp only; split <;> rfl
@[simp] theorem writeCacheControl_draws (v : Word) (s : State) : (writeCacheControl v s).draws = s.draws := by
  unfold writeCacheControl; dsimp only; split <;> rfl

/-! ### isolatedStore -/

@[simp] theorem isolatedStore_regs (a : Word) (m : BitVec 4) (v : Word) (s : State) :
    (isolatedStore a m v s).regs = s.regs := by
  unfold isolatedStore; dsimp only; split <;> rfl
@[simp] theorem isolatedStore_hi (a : Word) (m : BitVec 4) (v : Word) (s : State) :
    (isolatedStore a m v s).hi = s.hi := by
  unfold isolatedStore; dsimp only; split <;> rfl
@[simp] theorem isolatedStore_lo (a : Word) (m : BitVec 4) (v : Word) (s : State) :
    (isolatedStore a m v s).lo = s.lo := by
  unfold isolatedStore; dsimp only; split <;> rfl
@[simp] theorem isolatedStore_pipe (a : Word) (m : BitVec 4) (v : Word) (s : State) :
    (isolatedStore a m v s).pipe = s.pipe := by
  unfold isolatedStore; dsimp only; split <;> rfl
@[simp] theorem isolatedStore_delay (a : Word) (m : BitVec 4) (v : Word) (s : State) :
    (isolatedStore a m v s).delay = s.delay := by
  unfold isolatedStore; dsimp only; split <;> rfl
@[simp] theorem isolatedStore_cop0 (a : Word) (m : BitVec 4) (v : Word) (s : State) :
    (isolatedStore a m v s).cop0 = s.cop0 := by
  unfold isolatedStore; dsimp only; split <;> rfl
@[simp] theorem isolatedStore_cacheControl (a : Word) (m : BitVec 4) (v : Word) (s : State) :
    (isolatedStore a m v s).cacheControl = s.cacheControl := by
  unfold isolatedStore; dsimp only; split <;> rfl
@[simp] theorem isolatedStore_icache (a : Word) (m : BitVec 4) (v : Word) (s : State) :
    (isolatedStore a m v s).icache = { tags := s.icache.tags.write (cacheLine a) (tagAddress (physical a) ||| Config.invalidTag), data := s.icache.data.write (cacheIndex (cacheLine a) (cacheWord a)) (if m = 0b1111#4 then v else drawn s) } := by
  unfold isolatedStore; dsimp only; split <;> rfl
@[simp] theorem isolatedStore_scratchpad (a : Word) (m : BitVec 4) (v : Word) (s : State) :
    (isolatedStore a m v s).scratchpad = s.scratchpad := by
  unfold isolatedStore; dsimp only; split <;> rfl
@[simp] theorem isolatedStore_timing (a : Word) (m : BitVec 4) (v : Word) (s : State) :
    (isolatedStore a m v s).timing = s.timing := by
  unfold isolatedStore; dsimp only; split <;> rfl
@[simp] theorem isolatedStore_flags (a : Word) (m : BitVec 4) (v : Word) (s : State) :
    (isolatedStore a m v s).flags = s.flags := by
  unfold isolatedStore; dsimp only; split <;> rfl
@[simp] theorem isolatedStore_gte (a : Word) (m : BitVec 4) (v : Word) (s : State) :
    (isolatedStore a m v s).gte = s.gte := by
  unfold isolatedStore; dsimp only; split <;> rfl
@[simp] theorem isolatedStore_refused (a : Word) (m : BitVec 4) (v : Word) (s : State) :
    (isolatedStore a m v s).refused = s.refused := by
  unfold isolatedStore; dsimp only; split <;> rfl
@[simp] theorem isolatedStore_bus (a : Word) (m : BitVec 4) (v : Word) (s : State) :
    (isolatedStore a m v s).bus = s.bus := by
  unfold isolatedStore; dsimp only; split <;> rfl
@[simp] theorem isolatedStore_draws (a : Word) (m : BitVec 4) (v : Word) (s : State) :
    (isolatedStore a m v s).draws = if m = 0b1111#4 then s.draws else s.draws + 1 := by
  unfold isolatedStore; dsimp only; split <;> rfl

/-! ### setExternalInterrupt -/

@[simp] theorem setExternalInterrupt_regs (b : Nat) (s : State) : (setExternalInterrupt b s).regs = s.regs := by
  unfold setExternalInterrupt; split <;> rfl
@[simp] theorem setExternalInterrupt_hi (b : Nat) (s : State) : (setExternalInterrupt b s).hi = s.hi := by
  unfold setExternalInterrupt; split <;> rfl
@[simp] theorem setExternalInterrupt_lo (b : Nat) (s : State) : (setExternalInterrupt b s).lo = s.lo := by
  unfold setExternalInterrupt; split <;> rfl
@[simp] theorem setExternalInterrupt_pipe (b : Nat) (s : State) : (setExternalInterrupt b s).pipe = s.pipe := by
  unfold setExternalInterrupt; split <;> rfl
@[simp] theorem setExternalInterrupt_delay (b : Nat) (s : State) : (setExternalInterrupt b s).delay = s.delay := by
  unfold setExternalInterrupt; split <;> rfl
@[simp] theorem setExternalInterrupt_cop0 (b : Nat) (s : State) :
    (setExternalInterrupt b s).cop0 = if b < 8 then { s.cop0 with cause := s.cop0.cause ||| lineBit b } else s.cop0 := by
  unfold setExternalInterrupt; split <;> rfl
@[simp] theorem setExternalInterrupt_cacheControl (b : Nat) (s : State) :
    (setExternalInterrupt b s).cacheControl = s.cacheControl := by
  unfold setExternalInterrupt; split <;> rfl
@[simp] theorem setExternalInterrupt_icache (b : Nat) (s : State) : (setExternalInterrupt b s).icache = s.icache := by
  unfold setExternalInterrupt; split <;> rfl
@[simp] theorem setExternalInterrupt_scratchpad (b : Nat) (s : State) :
    (setExternalInterrupt b s).scratchpad = s.scratchpad := by
  unfold setExternalInterrupt; split <;> rfl
@[simp] theorem setExternalInterrupt_timing (b : Nat) (s : State) : (setExternalInterrupt b s).timing = s.timing := by
  unfold setExternalInterrupt; split <;> rfl
@[simp] theorem setExternalInterrupt_flags (b : Nat) (s : State) : (setExternalInterrupt b s).flags = s.flags := by
  unfold setExternalInterrupt; split <;> rfl
@[simp] theorem setExternalInterrupt_gte (b : Nat) (s : State) : (setExternalInterrupt b s).gte = s.gte := by
  unfold setExternalInterrupt; split <;> rfl
@[simp] theorem setExternalInterrupt_refused (b : Nat) (s : State) :
    (setExternalInterrupt b s).refused = s.refused := by
  unfold setExternalInterrupt; split <;> rfl
@[simp] theorem setExternalInterrupt_bus (b : Nat) (s : State) : (setExternalInterrupt b s).bus = s.bus := by
  unfold setExternalInterrupt; split <;> rfl
@[simp] theorem setExternalInterrupt_draws (b : Nat) (s : State) : (setExternalInterrupt b s).draws = s.draws := by
  unfold setExternalInterrupt; split <;> rfl

/-! ### clearExternalInterrupt -/

@[simp] theorem clearExternalInterrupt_regs (b : Nat) (s : State) : (clearExternalInterrupt b s).regs = s.regs := by
  unfold clearExternalInterrupt; split <;> rfl
@[simp] theorem clearExternalInterrupt_hi (b : Nat) (s : State) : (clearExternalInterrupt b s).hi = s.hi := by
  unfold clearExternalInterrupt; split <;> rfl
@[simp] theorem clearExternalInterrupt_lo (b : Nat) (s : State) : (clearExternalInterrupt b s).lo = s.lo := by
  unfold clearExternalInterrupt; split <;> rfl
@[simp] theorem clearExternalInterrupt_pipe (b : Nat) (s : State) : (clearExternalInterrupt b s).pipe = s.pipe := by
  unfold clearExternalInterrupt; split <;> rfl
@[simp] theorem clearExternalInterrupt_delay (b : Nat) (s : State) :
    (clearExternalInterrupt b s).delay = s.delay := by
  unfold clearExternalInterrupt; split <;> rfl
@[simp] theorem clearExternalInterrupt_cop0 (b : Nat) (s : State) :
    (clearExternalInterrupt b s).cop0 = if b < 8 then { s.cop0 with cause := s.cop0.cause &&& ~~~lineBit b } else s.cop0 := by
  unfold clearExternalInterrupt; split <;> rfl
@[simp] theorem clearExternalInterrupt_cacheControl (b : Nat) (s : State) :
    (clearExternalInterrupt b s).cacheControl = s.cacheControl := by
  unfold clearExternalInterrupt; split <;> rfl
@[simp] theorem clearExternalInterrupt_icache (b : Nat) (s : State) :
    (clearExternalInterrupt b s).icache = s.icache := by
  unfold clearExternalInterrupt; split <;> rfl
@[simp] theorem clearExternalInterrupt_scratchpad (b : Nat) (s : State) :
    (clearExternalInterrupt b s).scratchpad = s.scratchpad := by
  unfold clearExternalInterrupt; split <;> rfl
@[simp] theorem clearExternalInterrupt_timing (b : Nat) (s : State) :
    (clearExternalInterrupt b s).timing = s.timing := by
  unfold clearExternalInterrupt; split <;> rfl
@[simp] theorem clearExternalInterrupt_flags (b : Nat) (s : State) :
    (clearExternalInterrupt b s).flags = s.flags := by
  unfold clearExternalInterrupt; split <;> rfl
@[simp] theorem clearExternalInterrupt_gte (b : Nat) (s : State) : (clearExternalInterrupt b s).gte = s.gte := by
  unfold clearExternalInterrupt; split <;> rfl
@[simp] theorem clearExternalInterrupt_refused (b : Nat) (s : State) :
    (clearExternalInterrupt b s).refused = s.refused := by
  unfold clearExternalInterrupt; split <;> rfl
@[simp] theorem clearExternalInterrupt_bus (b : Nat) (s : State) : (clearExternalInterrupt b s).bus = s.bus := by
  unfold clearExternalInterrupt; split <;> rfl
@[simp] theorem clearExternalInterrupt_draws (b : Nat) (s : State) :
    (clearExternalInterrupt b s).draws = s.draws := by
  unfold clearExternalInterrupt; split <;> rfl

end Sys2Proof.Machine
end

