-- ==== Sys2Proof/Laws/Outcome.lean ====
section
/-! SUPPORT. Sequencing: what it takes for a sequence of effects to answer a next state. -/

namespace Sys2Proof.Machine

@[simp] theorem andThen_next {α β : Type} (a : α) (f : α → Host.Outcome β Fault Refusal) : andThen (.next a) f = f a := rfl
@[simp] theorem andThen_fault {α β : Type} (r : Fault) (f : α → Host.Outcome β Fault Refusal) :
    andThen (.fault r) f = .fault r := rfl
@[simp] theorem andThen_refused {α β : Type} (r : Refusal) (f : α → Host.Outcome β Fault Refusal) :
    andThen (.refused r) f = .refused r := rfl

/-- A sequence answers a next state exactly when both parts do. -/
theorem andThen_eq_next {α β : Type} {m : Host.Outcome α Fault Refusal} {f : α → Host.Outcome β Fault Refusal} {b : β} :
    andThen m f = .next b ↔ ∃ a, m = .next a ∧ f a = .next b := by
  cases m <;> simp

/-- A sequence is refused exactly when one part is. -/
theorem andThen_eq_refused {α β : Type} {m : Host.Outcome α Fault Refusal} {f : α → Host.Outcome β Fault Refusal}
    {r : Refusal} : andThen m f = .refused r ↔ m = .refused r ∨ ∃ a, m = .next a ∧ f a = .refused r := by
  cases m <;> simp

/-- An access that is done goes on with its value. -/
@[simp] theorem onDone_done {α : Type} (a : α) (s : State) (k : α → State → Res) : onDone (.next (.done a, s)) k = k a s := rfl
/-- An access that raises ends in the exception. -/
@[simp] theorem onDone_raised {α : Type} (c : ExcCode) (s : State) (k : α → State → Res) :
    onDone (.next (.raised c, s)) k = raiseException c s := rfl
@[simp] theorem onDone_refused {α : Type} (r : Refusal) (k : α → State → Res) : onDone (.refused r) k = .refused r := rfl
@[simp] theorem onDone_fault {α : Type} (r : Fault) (k : α → State → Res) : onDone (.fault r) k = .fault r := rfl

/-- An access leads to a next state in two ways: it is done and the rest goes on, or it raises and the exception is entered. -/
theorem onDone_eq_next {α : Type} {m : Eff (Reply α)} {k : α → State → Res} {t : State} :
    onDone m k = .next t ↔
      (∃ a s, m = .next (.done a, s) ∧ k a s = .next t) ∨ (∃ c s, m = .next (.raised c, s) ∧ raiseException c s = .next t) := by
  unfold onDone
  rw [andThen_eq_next]
  constructor
  · rintro ⟨⟨r, s⟩, hm, hk⟩
    cases r with
    | done a => exact .inl ⟨a, s, hm, hk⟩
    | raised c => exact .inr ⟨c, s, hm, hk⟩
  · rintro (⟨a, s, hm, hk⟩ | ⟨c, s, hm, hk⟩)
    · exact ⟨_, hm, hk⟩
    · exact ⟨_, hm, hk⟩

/-- A usable coprocessor's instruction goes on. -/
theorem withCop_usable {z : BitVec 2} {s : State} {k : State → Res} (h : copUsable z s = true) : withCop z s k = k s := by
  simp [withCop, h]

/-- An unusable coprocessor's instruction raises CpU (44_system.md R330). -/
theorem withCop_unusable {z : BitVec 2} {s : State} {k : State → Res} (h : copUsable z s = false) :
    withCop z s k = raiseWithCe .cpu z s := by
  simp [withCop, h]

/-- A coprocessor instruction leads to a next state in two ways. -/
theorem withCop_eq_next {z : BitVec 2} {s t : State} {k : State → Res} (h : withCop z s k = .next t) :
    (copUsable z s = true ∧ k s = .next t) ∨ (copUsable z s = false ∧ raiseWithCe .cpu z s = .next t) := by
  unfold withCop at h
  split at h
  · next hc => exact .inl ⟨hc, h⟩
  · next hc => exact .inr ⟨by simpa using hc, h⟩

end Sys2Proof.Machine
end

