-- ==== Sys2Proof/Laws/Bus.lean ====
section
/-! SUPPORT. The bus calls: what each does when it answers, and that it answers when the oracle does (20_memory.md R104). -/

namespace Sys2Proof.Machine

/-- A bus that answers every call answers the next one. -/
theorem BusReplies.next_ne_silent {s : State} (h : BusReplies s) : nextAnswer s ≠ .silent := by
  unfold nextAnswer
  cases hl : s.bus.answers with
  | nil => simp
  | cons a as => exact h a (by simp [hl])

/-- Answers that are left over still answer. -/
theorem BusReplies.of_suffix {s t : State} (h : BusReplies s) (k : Nat) (ht : t.bus.answers = s.bus.answers.drop k) :
    BusReplies t := fun a ha => h a (List.mem_of_mem_drop (ht ▸ ha))

theorem BusReplies.congr {s t : State} (h : BusReplies s) (ht : t.bus.answers = s.bus.answers) : BusReplies t :=
  h.of_suffix 0 ht

/-- Everything a bus read does. -/
structure ReadDone (kind : ReadKind) (p : Word) (n : Width) (r : Option Word) (s t : State) : Prop where
  mem : t.bus.mem = s.bus.mem
  answers : t.bus.answers = s.bus.answers.tail
  log : t.bus.log = .read kind p n r :: s.bus.log
  flags : t.flags = if r.isSome then s.flags else { s.flags with busError := true }
  frame : t = { s with bus := t.bus, flags := t.flags }

theorem busRead_done {kind : ReadKind} {p : Word} {n : Width} {s t : State} {r : Option Word}
    (h : busRead kind p n s = .next (r, t)) : ReadDone kind p n r s t := by
  unfold busRead at h
  split at h
  · cases h; exact ⟨rfl, rfl, rfl, rfl, rfl⟩
  · cases h; exact ⟨rfl, rfl, rfl, rfl, rfl⟩
  · cases h; exact ⟨rfl, rfl, rfl, rfl, rfl⟩
  · cases h

theorem busRead_completes {s : State} (kind : ReadKind) (p : Word) (n : Width) (h : BusReplies s) :
    ∃ r t, busRead kind p n s = .next (r, t) := by
  have hs := h.next_ne_silent
  unfold busRead
  split
  · exact ⟨_, _, rfl⟩
  · exact ⟨_, _, rfl⟩
  · exact ⟨_, _, rfl⟩
  · next e => exact absurd e hs

theorem busRead_not_refused (kind : ReadKind) (p : Word) (n : Width) (s : State) (r : Refusal) :
    busRead kind p n s ≠ .refused r := by
  unfold busRead; split <;> simp

/-- Everything the bus call of a store does. -/
structure WriteDone (f : StoreForm) (p : Word) (v : Word) (ok : Bool) (s t : State) : Prop where
  mem : t.bus.mem = s.bus.mem ∨ (ok = true ∧ ∃ v', t.bus.mem = writeMaskedBytes s.bus.mem p.toNat f.mask v')
  answers : t.bus.answers = s.bus.answers.tail
  flags : t.flags = if ok then s.flags else { s.flags with busError := true }
  failed : ok = false → t.bus.mem = s.bus.mem
  frame : t = { s with bus := t.bus, flags := t.flags }

theorem busStore_done {f : StoreForm} {p v : Word} {s t : State} {ok : Bool} (h : busStore f p v s = .next (ok, t)) :
    WriteDone f p v ok s t := by
  cases f with
  | whole n =>
    simp only [busStore] at h
    unfold busWrite at h
    split at h
    · cases h; exact ⟨.inr ⟨rfl, _, rfl⟩, rfl, rfl, by simp, rfl⟩
    · cases h; exact ⟨.inl rfl, rfl, rfl, by simp, rfl⟩
    · cases h; exact ⟨.inl rfl, rfl, rfl, fun _ => rfl, rfl⟩
    · cases h
  | masked m =>
    simp only [busStore] at h
    unfold busWriteMasked at h
    split at h
    · cases h; exact ⟨.inr ⟨rfl, _, rfl⟩, rfl, rfl, by simp, rfl⟩
    · cases h; exact ⟨.inl rfl, rfl, rfl, by simp, rfl⟩
    · cases h; exact ⟨.inl rfl, rfl, rfl, fun _ => rfl, rfl⟩
    · cases h

theorem busStore_completes {s : State} (f : StoreForm) (p v : Word) (h : BusReplies s) :
    ∃ ok t, busStore f p v s = .next (ok, t) := by
  have hs := h.next_ne_silent
  cases f with
  | whole n =>
    simp only [busStore, busWrite]
    split
    · exact ⟨_, _, rfl⟩
    · exact ⟨_, _, rfl⟩
    · exact ⟨_, _, rfl⟩
    · next e => exact absurd e hs
  | masked m =>
    simp only [busStore, busWriteMasked]
    split
    · exact ⟨_, _, rfl⟩
    · exact ⟨_, _, rfl⟩
    · exact ⟨_, _, rfl⟩
    · next e => exact absurd e hs

theorem busStore_not_refused (f : StoreForm) (p v : Word) (s : State) (r : Refusal) : busStore f p v s ≠ .refused r := by
  cases f
  · simp only [busStore, busWrite]; split <;> simp
  · simp only [busStore, busWriteMasked]; split <;> simp

end Sys2Proof.Machine
end

