-- ==== Sys2Proof/Laws/Fetch.lean ====
section
/-! SUPPORT. Instruction fetch: what a fetch may change, what it returns, and that it returns (20_memory.md R150 to R155). -/

namespace Sys2Proof.Machine

/-- Everything a fetch may change: the cache, ticks, the bus-error flag, and calls that change no memory. -/
structure Fetched (s t : State) : Prop where
  mem : t.bus.mem = s.bus.mem
  answers : ∃ k, t.bus.answers = s.bus.answers.drop k
  raised : t.flags.exceptionRaised = s.flags.exceptionRaised
  timing : t.timing = { s.timing with pendingTicks := t.timing.pendingTicks }
  ticks : s.timing.pendingTicks ≤ t.timing.pendingTicks
  frame : t = { s with icache := t.icache, timing := t.timing, flags := t.flags, bus := t.bus }

theorem Fetched.refl (s : State) : Fetched s s := ⟨rfl, ⟨0, rfl⟩, rfl, rfl, Nat.le_refl _, rfl⟩

theorem Fetched.trans {s t u : State} (h : Fetched s t) (k : Fetched t u) : Fetched s u := by
  obtain ⟨i, hi⟩ := h.answers
  obtain ⟨j, hj⟩ := k.answers
  refine ⟨k.mem.trans h.mem, ⟨i + j, ?_⟩, k.raised.trans h.raised, ?_, Nat.le_trans h.ticks k.ticks, ?_⟩
  · rw [hj, hi, List.drop_drop]
  · have e := h.timing; have f := k.timing
    rw [e] at f; exact f
  · have e := h.frame; have f := k.frame
    rw [e] at f; exact f

theorem Fetched.charge (n : Nat) (s : State) : Fetched s (charge n s) :=
  ⟨rfl, ⟨0, rfl⟩, rfl, rfl, Nat.le_add_right _ _, rfl⟩

theorem Fetched.setTag (l : BitVec 8) (w : Word) (s : State) : Fetched s (setTag l w s) :=
  ⟨rfl, ⟨0, rfl⟩, rfl, rfl, Nat.le_refl _, rfl⟩

theorem Fetched.of_read {kind : ReadKind} {p : Word} {n : Width} {r : Option Word} {s t : State}
    (h : ReadDone kind p n r s t) : Fetched s t := by
  have ht : t.timing = s.timing := by rw [h.frame]
  refine ⟨h.mem, ⟨1, by simp [h.answers]⟩, ?_, by rw [ht], by rw [ht], ?_⟩
  · rw [h.flags]; split <;> rfl
  · rw [h.frame]

theorem Fetched.of_storeFill (l : BitVec 8) (rs : List (BitVec 2 × Option Word)) (s : State) :
    Fetched s (storeFill l rs s) := by
  induction rs generalizing s with
  | nil => exact .refl s
  | cons r rs ih =>
    obtain ⟨k, o⟩ := r
    cases o with
    | none => exact ih s
    | some v =>
      have one : Fetched s (setCacheWord l k v s) := ⟨rfl, ⟨0, rfl⟩, rfl, rfl, Nat.le_refl _, rfl⟩
      exact Fetched.trans one (ih (setCacheWord l k v s))

/-- The reads of a fill change nothing but the bus and the bus-error flag. -/
theorem fillReads_done {ta : Word} {ks : List (BitVec 2)} {s t : State} {rs : List (BitVec 2 × Option Word)}
    (h : fillReads ta ks s = .next (rs, t)) : Fetched s t ∧ t.icache = s.icache ∧ t.timing = s.timing ∧ rs.map Prod.fst = ks := by
  induction ks generalizing s rs with
  | nil => cases h; exact ⟨.refl _, rfl, rfl, rfl⟩
  | cons k ks ih =>
    simp only [fillReads, andThen_eq_next] at h
    obtain ⟨⟨r, s1⟩, h1, ⟨rs', s2⟩, h2, h3⟩ := h
    cases h3
    have d := busRead_done h1
    obtain ⟨f, hc, ht, hk⟩ := ih h2
    refine ⟨(Fetched.of_read d).trans f, ?_, ?_, by simp [hk]⟩
    · rw [hc, d.frame]
    · rw [ht, d.frame]

theorem storeFill_tags (l : BitVec 8) (rs : List (BitVec 2 × Option Word)) (s : State) :
    (storeFill l rs s).icache.tags = s.icache.tags := by
  induction rs generalizing s with
  | nil => rfl
  | cons r rs ih =>
    obtain ⟨k, o⟩ := r
    cases o with
    | none => exact ih s
    | some v => simpa [storeFill] using ih (setCacheWord l k v s)

/-- What a fetch did to the tags: nothing, or one line got the address of the fetch (R155). -/
def TagsAfterFetch (vaddr : Word) (s t : State) : Prop :=
  t.icache.tags = s.icache.tags ∨
    ∃ m : Word, m &&& 0xF#32 = m ∧ t.icache.tags = s.icache.tags.write (cacheLine vaddr) (tagAddress (physical vaddr) ||| m)

/-- Everything a fill does (R155). -/
theorem fillLine_done {vaddr : Word} {x : Slot} {s t : State} (h : fillLine vaddr (physical vaddr) s = .next (x, t)) :
    Fetched s t ∧ TagsAfterFetch vaddr s t ∧ ∀ c a, x = .fetchFault c a → a = vaddr := by
  simp only [fillLine, andThen_eq_next] at h
  obtain ⟨⟨rs, s1⟩, h1, h2⟩ := h
  obtain ⟨f, hc, ht, hk⟩ := fillReads_done h1
  dsimp only at h2
  split at h2
  · cases h2
    refine ⟨(f.trans (.charge _ _)).trans (.setTag _ _ _), .inr ⟨Config.invalidTag, by decide, ?_⟩, ?_⟩
    · simp [hc]
    · intro c a e; cases e; rfl
  · cases h2
    refine ⟨((f.trans (.charge _ _)).trans (.of_storeFill _ _ _)).trans (.setTag _ _ _), .inr ⟨invalidBelow (cacheWord vaddr), ?_, ?_⟩, ?_⟩
    · unfold invalidBelow; split <;> decide
    · simp [storeFill_tags, hc]
    · intro c a e; cases e

/-- Everything an uncached fetch does. -/
theorem uncachedFetch_done {vaddr p : Word} {x : Slot} {s t : State} (h : uncachedFetch vaddr p s = .next (x, t)) :
    Fetched s t ∧ t.icache = s.icache ∧ ∀ c a, x = .fetchFault c a → a = vaddr := by
  simp only [uncachedFetch, andThen_eq_next] at h
  obtain ⟨⟨r, s1⟩, h1, h2⟩ := h
  have d := busRead_done h1
  have hc : (charge (Config.tFetchUncached p) s1).icache = s.icache := by simp; rw [d.frame]
  cases r with
  | some v =>
    cases h2
    exact ⟨(Fetched.of_read d).trans (.charge _ _), hc, by simp⟩
  | none =>
    cases h2
    refine ⟨(Fetched.of_read d).trans (.charge _ _), hc, ?_⟩
    intro c a e; cases e; rfl

/-- Everything a fetch does: its frame, its effect on the tags (none with the cache disabled), and what it returns. -/
structure FetchDone (vaddr : Word) (x : Slot) (s t : State) : Prop where
  fetched : Fetched s t
  tags : TagsAfterFetch vaddr s t
  bypass : icacheEnable s.cacheControl = false → t.icache = s.icache
  aligned : ∀ w, x = .word w → vaddr.toNat % 4 = 0
  marker : ∀ c a, x = .fetchFault c a → a = vaddr

theorem fetch_done {vaddr : Word} {x : Slot} {s t : State} (h : fetch vaddr s = .next (x, t)) : FetchDone vaddr x s t := by
  unfold fetch at h
  split at h
  · cases h
    exact ⟨.refl s, .inl rfl, fun _ => rfl, by simp, by intro c a e; cases e; rfl⟩
  · next ha =>
    have al : vaddr.toNat % 4 = 0 := by
      have := congrArg BitVec.toNat (Classical.not_not.mp ha)
      simpa [BitVec.extractLsb'] using this
    split at h
    · cases h
      exact ⟨.refl s, .inl rfl, fun _ => rfl, by simp, by intro c a e; cases e; rfl⟩
    · have marked : ∀ {c}, (Host.Outcome.next (Slot.fetchFault c vaddr, s) : Eff Slot) = .next (x, t) → FetchDone vaddr x s t := by
        intro c e; cases e
        exact ⟨.refl s, .inl rfl, fun _ => rfl, by simp, by intro c a e; cases e; rfl⟩
      have uncached : uncachedFetch vaddr (physical vaddr) s = .next (x, t) → FetchDone vaddr x s t := by
        intro e
        obtain ⟨f, hc, hm⟩ := uncachedFetch_done e
        exact ⟨f, .inl (by rw [hc]), fun _ => hc, fun _ _ => al, hm⟩
      have cached : icacheEnable s.cacheControl = true → cachedFetch vaddr (physical vaddr) s = .next (x, t) →
          FetchDone vaddr x s t := by
        intro en e
        unfold cachedFetch at e
        split at e
        · cases e
          exact ⟨.charge _ _, .inl rfl, fun _ => rfl, fun _ _ => al, by simp⟩
        · obtain ⟨f, ht, hm⟩ := fillLine_done e
          exact ⟨f, ht, fun hn => by simp [en] at hn, fun _ _ => al, hm⟩
      split at h
      · exact marked h
      · exact marked h
      · exact uncached h
      · split at h
        · next en => exact cached en h
        · exact uncached h
      · split at h
        · next en => exact cached en h
        · exact uncached h

theorem fillReads_completes (ta : Word) (ks : List (BitVec 2)) {s : State} (h : BusReplies s) :
    ∃ rs t, fillReads ta ks s = .next (rs, t) := by
  induction ks generalizing s with
  | nil => exact ⟨_, _, rfl⟩
  | cons k ks ih =>
    obtain ⟨r, s1, h1⟩ := busRead_completes .fetch (ta + 4#32 * k.setWidth 32) .word h
    have h' : BusReplies s1 := h.of_suffix 1 (by simp [(busRead_done h1).answers])
    obtain ⟨rs, s2, h2⟩ := ih h'
    exact ⟨(k, r) :: rs, s2, by simp only [fillReads, h1, andThen_next, h2]⟩

/-- A fetch returns when the bus answers. -/
theorem fetch_completes (vaddr : Word) {s : State} (h : BusReplies s) : ∃ x t, fetch vaddr s = .next (x, t) := by
  have unc : ∀ p, ∃ x t, uncachedFetch vaddr p s = .next (x, t) := by
    intro p
    obtain ⟨r, s1, h1⟩ := busRead_completes .fetch p .word h
    simp only [uncachedFetch, h1, andThen_next]
    cases r <;> exact ⟨_, _, rfl⟩
  have cac : ∀ p, ∃ x t, cachedFetch vaddr p s = .next (x, t) := by
    intro p
    unfold cachedFetch
    split
    · exact ⟨_, _, rfl⟩
    · obtain ⟨rs, s1, h1⟩ := fillReads_completes (tagAddress p) (fillWords (cacheWord vaddr)) h
      simp only [fillLine, h1, andThen_next]
      split <;> exact ⟨_, _, rfl⟩
  unfold fetch
  split
  · exact ⟨_, _, rfl⟩
  split
  · exact ⟨_, _, rfl⟩
  split
  · exact ⟨_, _, rfl⟩
  · exact ⟨_, _, rfl⟩
  · exact unc _
  · split
    · exact cac _
    · exact unc _
  · split
    · exact cac _
    · exact unc _

end Sys2Proof.Machine
end

