-- ==== Sys2Proof/Laws/Registers.lean ====
section
/-! SUPPORT. The register primitives and the branch: one lemma per operation that says everything it does
(70_reset_and_hazards.md R506 to R510, R520). -/

namespace Sys2Proof.Machine

@[simp] theorem readReg_zero (s : State) : readReg 0#5 s = 0#32 := rfl

/-- Reading a register looks at the register file only. -/
theorem readReg_congr {s t : State} (h : t.regs = s.regs) (i : RegNum) : readReg i t = readReg i s := by
  simp [readReg, h]

/-- A register after a register is set: r0 discards the write. -/
theorem readReg_setReg (i r : RegNum) (v : Word) (s : State) :
    readReg r (setReg i v s) = if r = i ∧ i ≠ 0#5 then v else readReg r s := by
  by_cases hi : i = 0#5
  · simp [readReg, hi]
  · by_cases hr : r = i
    · subst hr; simp [readReg, hi]
    · have : i ≠ r := fun e => hr e.symm
      simp [readReg, hi, hr, Bank.read_write_ne _ _ this]

theorem readReg_writeReg (i r : RegNum) (v : Word) (s : State) :
    readReg r (writeReg i v s) = if r = i ∧ i ≠ 0#5 then v else readReg r s := by
  rw [← readReg_setReg]
  exact readReg_congr (by simp) r

/-- `WriteReg` does what R507 says, and nothing else. -/
theorem writeReg_wrote (i : RegNum) (v : Word) (s : State) : WroteReg i v s (writeReg i v s) where
  value := by
    by_cases h : i = 0#5
    · simp [h]
    · simp [readReg_writeReg, h]
  others r hr := by simp [readReg_writeReg, hr]
  cancelled h := by simp [h]
  kept h := by simp [h]
  frame := by ext1 <;> simp

/-- `WriteRegDelayed` does what R508 says, after a read that took only ticks, bus calls and draws. -/
theorem writeRegDelayed_loaded (i : RegNum) (v : Word) (s u : State)
    (hu : u = { s with bus := u.bus, timing := u.timing, draws := u.draws }) (hm : u.bus.mem = s.bus.mem)
    (ht : u.timing = { s.timing with pendingTicks := u.timing.pendingTicks }) : Loaded i v s (writeRegDelayed i v u) := by
  have hd : u.delay = s.delay := by rw [hu]
  refine ⟨?_, ?_, ?_, ?_, ?_⟩
  · intro h; simp [h, hd]
  · intro h; simp [h, hd]
  · simpa using hm
  · simpa using ht
  · rw [hu]; ext1 <;> simp

/-- The pending load reaches its register. -/
theorem readReg_commitPending (r : RegNum) (s : State) :
    readReg r (commitPending s) = if r ≠ 0#5 ∧ s.delay.reg = some r then s.delay.value else readReg r s := by
  unfold commitPending
  split
  · next q hq =>
    rw [readReg_setReg, hq]
    by_cases h : r = q <;> by_cases h0 : r = 0#5 <;> simp_all
    exact fun e => absurd e.symm h
  · next hq => simp [hq]

theorem readReg_updateLoadDelay (r : RegNum) (s : State) :
    readReg r (updateLoadDelay s) = if r ≠ 0#5 ∧ s.delay.reg = some r then s.delay.value else readReg r s := by
  rw [← readReg_commitPending]
  exact readReg_congr (by simp) r

theorem readReg_flushHazards (r : RegNum) (s : State) :
    readReg r (flushHazards s) = if r ≠ 0#5 ∧ s.delay.reg = some r then s.delay.value else readReg r s := by
  rw [← readReg_commitPending]
  exact readReg_congr (by simp) r

/-- The end of every branch and jump (R520, R521). -/
theorem branchIf_branched (cond : Bool) (target : Word) (s : State) : Branched cond target s (branchIf cond target s) := by
  cases cond
  · exact ⟨rfl, by simp, fun _ => ⟨rfl, rfl⟩, rfl, rfl⟩
  · exact ⟨rfl, fun _ => ⟨rfl, rfl⟩, by simp, rfl, rfl⟩

end Sys2Proof.Machine
end

