-- ==== Sys2Proof/Laws/Exception.lean ====
section
/-! SUPPORT. Exception entry: everything it does, and that it is done when the bus answers (60_exceptions.md R420 to R423). -/

namespace Sys2Proof.Machine

/-- Everything a refill of the pipeline does. -/
theorem refill_eq_next {v : Word} {s t : State} :
    refill v s = .next t ↔ ∃ x u, fetch v s = .next (x, u) ∧
      t = charge Config.tFlush { u with pipe := { u.pipe with nextInstruction := x, pc := v, npc := v + 4#32, currentInstructionPc := v } } := by
  unfold refill
  rw [andThen_eq_next]
  constructor
  · rintro ⟨⟨x, u⟩, h, e⟩; cases e; exact ⟨x, u, h, rfl⟩
  · rintro ⟨x, u, h, rfl⟩; exact ⟨(x, u), h, rfl⟩

theorem refill_completes (v : Word) {s : State} (h : BusReplies s) : ∃ t, refill v s = .next t := by
  obtain ⟨x, u, hf⟩ := fetch_completes v h
  exact ⟨_, refill_eq_next.mpr ⟨x, u, hf, rfl⟩⟩

/-- The bits exception entry writes into CAUSE, field by field (10_state.md R43). -/
theorem causeEntryBits_fields (code : ExcCode) (bd bt : Bool) (ce : BitVec 2) :
    (causeEntryBits code bd bt ce).getLsbD 31 = bd ∧ (causeEntryBits code bd bt ce).getLsbD 30 = bt ∧
    (causeEntryBits code bd bt ce).extractLsb' 28 2 = ce ∧ (causeEntryBits code bd bt ce).extractLsb' 2 5 = excCodeBits code ∧
    (causeEntryBits code bd bt ce) &&& ~~~Config.causeEntryMask = 0#32 := by
  revert code bd bt ce
  intro code
  cases code <;> decide

/-- CAUSE after exception entry, field by field. -/
theorem cause_after_entry (c : Word) (e : Word) (he : e &&& ~~~Config.causeEntryMask = 0#32) :
    let c' := (c &&& ~~~Config.causeEntryMask) ||| e
    c'.getLsbD 31 = e.getLsbD 31 ∧ c'.getLsbD 30 = e.getLsbD 30 ∧ c'.extractLsb' 28 2 = e.extractLsb' 28 2 ∧
    c'.extractLsb' 2 5 = e.extractLsb' 2 5 ∧ c'.extractLsb' 7 21 = c.extractLsb' 7 21 ∧
    c'.extractLsb' 0 2 = c.extractLsb' 0 2 := by
  have bit : ∀ k, k < 32 → e.getLsbD k = (e.getLsbD k && Config.causeEntryMask.getLsbD k) := by
    intro k hk
    have h := congrArg (fun x : Word => x.getLsbD k) he
    simp [hk] at h
    cases hb : e.getLsbD k <;> simp_all
  refine ⟨?_, ?_, ?_, ?_, ?_, ?_⟩
  · simp [Config.causeEntryMask]
  · simp [Config.causeEntryMask]
  · apply BitVec.eq_of_getLsbD_eq
    intro k hk
    interval_cases k <;> simp [Config.causeEntryMask]
  · apply BitVec.eq_of_getLsbD_eq
    intro k hk
    interval_cases k <;> simp [Config.causeEntryMask]
  · apply BitVec.eq_of_getLsbD_eq
    intro k hk
    have := bit (7 + k) (by omega)
    interval_cases k <;> simp_all [Config.causeEntryMask]
  · apply BitVec.eq_of_getLsbD_eq
    intro k hk
    have := bit k (by omega)
    interval_cases k <;> simp_all [Config.causeEntryMask]

/-- The mode stack after a push (R420): every other bit of SR stays. -/
theorem pushModeStack_fields (sr : Word) :
    (pushModeStack sr).extractLsb' 0 6 = sr.extractLsb' 0 4 ++ 0#2 ∧ (pushModeStack sr).extractLsb' 6 26 = sr.extractLsb' 6 26 := by
  constructor
  · apply BitVec.eq_of_getLsbD_eq
    intro k hk
    rw [BitVec.getLsbD_append]
    interval_cases k <;> simp [pushModeStack]
  · apply BitVec.eq_of_getLsbD_eq
    intro k hk
    interval_cases k <;> simp [pushModeStack]

/-- The push does not change BEV, so the vector is the one SR selected before (R420, R422). -/
theorem exceptionVector_recordException (code : ExcCode) (a : Word) (bd bt : Bool) (ce : BitVec 2) (dest : Word) (s : State) :
    exceptionVector (recordException code a bd bt ce dest s) = vectorOf s := by
  have h : (pushModeStack s.cop0.sr).getLsbD 22 = s.cop0.sr.getLsbD 22 := by
    have := congrArg (fun x : BitVec 26 => x.getLsbD 16) (pushModeStack_fields s.cop0.sr).2
    simpa using this
  simp only [exceptionVector, vectorOf, bootVectors, recordException, h]
  rfl

/-- The exception codes (R401). -/
theorem excCodeBits_toNat (code : ExcCode) :
    (excCodeBits code).toNat =
      match code with
      | .int => 0 | .adel => 4 | .ades => 5 | .ibe => 6 | .dbe => 7 | .sys => 8 | .bp => 9 | .ri => 10 | .cpu => 11 | .ov => 12 := by
  cases code <;> rfl

/-- Exception entry that answers a next state has done everything R420 lists, and nothing else. -/
theorem enterException_entered {code : ExcCode} {a : Word} {bd bt : Bool} {ce : BitVec 2} {dest : Word} {s t : State}
    (h : enterException code a bd bt ce dest s = .next t) : Entered (excCodeBits code).toNat a bd bt ce dest s t := by
  simp only [enterException, exceptionVector_recordException, refill_eq_next] at h
  obtain ⟨x, u, hf, rfl⟩ := h
  have d := (fetch_done hf).fetched
  have hfr := d.frame
  have hc := causeEntryBits_fields code bd bt ce
  have hb := cause_after_entry s.cop0.cause _ hc.2.2.2.2
  have hm := pushModeStack_fields s.cop0.sr
  have hcop : u.cop0 = (recordException code a bd bt ce dest s).cop0 := by rw [hfr]; simp
  have hpipe : u.pipe = { s.pipe with nextInstructionIsBranchDelaySlot := false, branchWasTaken := false } := by
    rw [hfr]; simp
  have hdelay : u.delay = { s.delay with reg := none, nextReg := none } := by rw [hfr]; simp
  have hregs : u.regs = (flushHazards (recordException code a bd bt ce dest s)).regs := by rw [hfr]
  have htim : u.timing = { s.timing with pendingTicks := u.timing.pendingTicks } := by simpa using d.timing
  have htick : s.timing.pendingTicks ≤ u.timing.pendingTicks := by simpa using d.ticks
  have hmem : u.bus.mem = s.bus.mem := by simpa using d.mem
  have hflag : u.flags.exceptionRaised = true := by simpa using d.raised
  refine ⟨?_, ?_, ?_, ?_, ?_, ?_, ?_, ?_, ?_, ?_, ?_, ?_, ?_, ?_, ?_, ?_, ?_, ?_, ?_, ?_, ?_⟩
  · simp [hcop, recordException]
  · simp only [charge_cop0, hcop, recordException]; rw [hb.1, hc.1]
  · simp only [charge_cop0, hcop, recordException]; rw [hb.2.1, hc.2.1]
  · simp only [charge_cop0, hcop, recordException]; rw [hb.2.2.1, hc.2.2.1]
  · simp only [charge_cop0, hcop, recordException]; rw [hb.2.2.2.1, hc.2.2.2.1]
  · simp only [charge_cop0, hcop, recordException]; exact hb.2.2.2.2
  · simp [hcop, recordException]
  · simp only [charge_cop0, hcop, recordException]; exact hm.1
  · simp only [charge_cop0, hcop, recordException]; exact hm.2
  · simp [hcop, recordException]
  · simpa using hflag
  · simp
  · simp [hpipe]
  · simp [hpipe]
  · intro r hr
    have e : ∀ q : State, q.regs = u.regs → readReg r q = readReg r (flushHazards (recordException code a bd bt ce dest s)) :=
      fun q hq => readReg_congr (hq.trans hregs) r
    rw [e _ (by simp), readReg_flushHazards]
    simp [hr]
    exact if_congr Iff.rfl rfl (readReg_congr (by simp) r)
  · simpa using hdelay
  · simpa using hmem
  · simp only [charge_timing]; rw [htim]
  · simp only [charge_timing, Config.tFlush]; omega
  · refine ⟨x, u, ?_, rfl⟩
    rw [← hf]
    congr 1
    ext1 <;> simp [flushed, hregs, hcop, hdelay]
  · rw [hfr]; ext1 <;> simp

/-- Exception entry is done when the bus answers. -/
theorem enterException_completes (code : ExcCode) (a : Word) (bd bt : Bool) (ce : BitVec 2) (dest : Word) {s : State}
    (h : BusReplies s) : ∃ t, enterException code a bd bt ce dest s = .next t :=
  refill_completes _ (h.congr (by simp))

/-- The CE of R421, by arithmetic. -/
theorem reportedCop_eq (s : State) : slotCopNumber s.pipe.currentInstruction = reportedCop s := by
  unfold reportedCop slotCopNumber
  split <;> simp_all
  apply BitVec.eq_of_toNat_eq
  simp [fieldCopNumber, BitVec.extractLsb', Nat.shiftRight_eq_div_pow]

/-- An exception of the current instruction, with the CE given (R420). -/
theorem raiseWithCe_raised {code : ExcCode} {ce : BitVec 2} {s t : State} (h : raiseWithCe code ce s = .next t) :
    Raised (excCodeBits code).toNat ce s t := enterException_entered h

/-- An exception of the current instruction (R420, R421). -/
theorem raiseException_raised {code : ExcCode} {s t : State} (h : raiseException code s = .next t) :
    Raised (excCodeBits code).toNat (reportedCop s) s t := by
  have := raiseWithCe_raised h
  rwa [reportedCop_eq] at this

theorem raiseWithCe_completes (code : ExcCode) (ce : BitVec 2) {s : State} (h : BusReplies s) :
    ∃ t, raiseWithCe code ce s = .next t ∧ Raised (excCodeBits code).toNat ce s t := by
  obtain ⟨t, ht⟩ := enterException_completes code s.pipe.currentInstructionPc s.pipe.currentInBranchDelaySlot
    s.pipe.currentBranchWasTaken ce s.pipe.pc h
  exact ⟨t, ht, raiseWithCe_raised ht⟩

theorem raiseException_completes (code : ExcCode) {s : State} (h : BusReplies s) :
    ∃ t, raiseException code s = .next t ∧ Raised (excCodeBits code).toNat (reportedCop s) s t := by
  obtain ⟨t, ht, _⟩ := raiseWithCe_completes code (slotCopNumber s.pipe.currentInstruction) h
  exact ⟨t, ht, raiseException_raised ht⟩

end Sys2Proof.Machine
end

