-- ==== Sys2Proof/Laws/Access.lean ====
section
/-! SUPPORT. Data accesses: where they go, and everything a load or a store can do (20_memory.md R130 to R132). -/

namespace Sys2Proof.Machine

/-! ### Addresses -/

theorem physical_toNat (v : Word) : (physical v).toNat = v.toNat % 2 ^ 29 := by
  rw [physical, BitVec.toNat_and]
  exact Nat.and_two_pow_sub_one_eq_mod v.toNat 29

/-- Alignment is divisibility (R112). -/
theorem misaligned_eq_false {v : Word} {n : Width} : misaligned v n = false ↔ v.toNat % n.bytes = 0 := by
  cases n
  · simp [misaligned, Width.bytes]
    omega
  · simp [misaligned, Width.bytes, ← BitVec.toNat_inj, BitVec.extractLsb']
  · simp [misaligned, Width.bytes, ← BitVec.toNat_inj, BitVec.extractLsb']

/-- An access that goes to the bus is aligned and goes to the physical address (R101, R112). -/
theorem dataTarget_bus {v : Word} {n : Width} {s : State} {p : Word} (h : dataTarget v n s = .bus p) :
    v.toNat % n.bytes = 0 ∧ p = physical v := by
  unfold dataTarget at h
  split at h
  · cases h
  next ha =>
  refine ⟨misaligned_eq_false.mp (by simpa using ha), ?_⟩
  split at h
  · cases h
  split at h
  · repeat' split at h
    all_goals cases h
  · cases h
  all_goals
    simp only [unlessIsolated, cachedSegmentTarget] at h
    repeat' split at h
    all_goals first | (cases h; rfl) | cases h

/-- The bytes of an aligned access lie in the physical space (R100). -/
theorem bus_in_range {v : Word} {n : Width} {s : State} {p : Word} (h : dataTarget v n s = .bus p) :
    p.toNat % n.bytes = 0 ∧ p.toNat + n.bytes ≤ 2 ^ 29 := by
  obtain ⟨ha, rfl⟩ := dataTarget_bus h
  rw [physical_toNat]
  cases n <;> simp only [Width.bytes] at * <;> omega

/-- The bytes a store form enables lie in its width. -/
theorem storeForm_mask {f : StoreForm} {i : Nat} (h : f.mask.getLsbD i = true) : i < f.width.bytes := by
  cases f with
  | whole n =>
    have hi : i < 4 := BitVec.lt_of_getLsbD h
    cases n <;> interval_cases i <;> simp_all [StoreForm.mask, fullMask, StoreForm.width, Width.bytes]
  | masked m => exact BitVec.lt_of_getLsbD h

/-! ### Loads -/

/-- A load that is done read the value `readableValue` names, at the cost `readCost` names, and changed nothing else. -/
theorem memRead_done {vaddr : Word} {n : Width} {s t : State} {v : Word} (h : memRead vaddr n s = .next (.done v, t)) :
    readableValue vaddr n s = some v ∧ t.bus.mem = s.bus.mem ∧
    t.timing = { s.timing with pendingTicks := s.timing.pendingTicks + readCost vaddr n s } ∧
    t = { s with bus := t.bus, timing := t.timing, draws := t.draws } := by
  unfold memRead at h
  unfold readableValue readCost
  split at h
  · cases h
  · cases h
  · cases h; simp_all; rfl
  · cases h
  · cases h
  · cases h; simp_all; exact ⟨rfl, rfl⟩
  · cases h; simp_all [Config.tScratchpad]; exact rfl
  · next p hp =>
    rw [andThen_eq_next] at h
    obtain ⟨⟨r, s1⟩, h1, h2⟩ := h
    unfold busRead at h1
    split at h1
    · cases h1; cases h2; simp_all [busCost, trueCacheMode]; exact rfl
    · cases h1; cases h2; simp_all [busCost, trueCacheMode]; exact rfl
    · cases h1; cases h2
    · cases h1

/-- A load uses up answers of the bus from the front. -/
theorem memRead_answers {vaddr : Word} {n : Width} {s t : State} {r : Reply Word} (h : memRead vaddr n s = .next (r, t)) :
    ∃ k, t.bus.answers = s.bus.answers.drop k := by
  unfold memRead at h
  split at h
  · cases h; exact ⟨0, rfl⟩
  · cases h; exact ⟨0, rfl⟩
  · cases h; exact ⟨0, rfl⟩
  · cases h
  · cases h
  · cases h; exact ⟨0, rfl⟩
  · cases h; exact ⟨0, rfl⟩
  · rw [andThen_eq_next] at h
    obtain ⟨⟨o, s1⟩, h1, h2⟩ := h
    have d := busRead_done h1
    cases o <;> cases h2 <;> exact ⟨1, by simp [d.answers]⟩

/-- A load whose value can be read is done. -/
theorem memRead_of_readable {vaddr : Word} {n : Width} {s : State} {v : Word} (h : readableValue vaddr n s = some v) :
    ∃ t, memRead vaddr n s = .next (.done v, t) := by
  unfold readableValue at h
  unfold memRead
  split at h
  · next hp => cases h; rw [hp]; exact ⟨_, rfl⟩
  · next hp => cases h; rw [hp]; exact ⟨_, rfl⟩
  · next hp => cases h; rw [hp]; exact ⟨_, rfl⟩
  · next p hp =>
    rw [hp]
    split at h
    · next ha => cases h; simp only [busRead, ha]; exact ⟨_, rfl⟩
    · next ha => cases h; simp only [busRead, ha]; exact ⟨_, rfl⟩
    · cases h
    · cases h
  · cases h

/-- A load that raises: an address error has written BadVaddr, a bus error has made its call, and nothing else changed. -/
theorem memRead_raised {vaddr : Word} {n : Width} {s t : State} {c : ExcCode} (h : memRead vaddr n s = .next (.raised c, t)) :
    (c = .adel ∧ t = setBadVaddr vaddr s) ∨
    (c = .dbe ∧ t.bus.mem = s.bus.mem ∧ t.flags.exceptionRaised = s.flags.exceptionRaised ∧
      t.timing = { s.timing with pendingTicks := t.timing.pendingTicks } ∧ s.timing.pendingTicks ≤ t.timing.pendingTicks ∧
      (∃ k, t.bus.answers = s.bus.answers.drop k) ∧ t = { s with bus := t.bus, timing := t.timing, flags := t.flags }) := by
  unfold memRead at h
  split at h
  · cases h; exact .inl ⟨rfl, rfl⟩
  · cases h; exact .inr ⟨rfl, rfl, rfl, rfl, Nat.le_refl _, ⟨0, rfl⟩, rfl⟩
  · cases h
  · cases h
  · cases h
  · cases h
  · cases h
  · next p hp =>
    rw [andThen_eq_next] at h
    obtain ⟨⟨r, s1⟩, h1, h2⟩ := h
    have d := busRead_done h1
    cases r with
    | some v => cases h2
    | none =>
      cases h2
      refine .inr ⟨rfl, by simp [d.mem], by simp [d.flags], ?_, ?_, ⟨1, by simp [d.answers]⟩, ?_⟩
      · simp only [charge_timing]; rw [d.frame]
      · simp only [charge_timing]; rw [d.frame]; exact Nat.le_add_right _ _
      · rw [d.frame]; ext1 <;> simp

/-! ### Stores -/

/-- A store that is done: into the scratchpad, the cache-control register, the isolated cache, or onto the bus. -/
theorem memStore_done {f : StoreForm} {vaddr v : Word} {s t : State} (h : memStore f vaddr v s = .next (.done (), t)) :
    (∃ off, dataTarget vaddr f.width s = .scratchpad off ∧ t = charge Config.tScratchpad (storeScratch off f.mask v s)) ∨
    (dataTarget vaddr f.width s = .cacheControl ∧ f.mask = 0b1111#4 ∧ t = charge Config.tCacheCtl (writeCacheControl v s)) ∨
    (dataTarget vaddr f.width s = .isolatedCache ∧ t = charge Config.tIsolated (isolatedStore vaddr f.mask v s)) ∨
    (∃ p s1, dataTarget vaddr f.width s = .bus p ∧ busStore f p v s = .next (true, s1) ∧
      t = charge (busCost f.kind p f.width s1) s1) := by
  unfold memStore at h
  split at h
  · cases h
  · cases h
  · next hp =>
    split at h
    · next hm => cases h; exact .inr (.inl ⟨hp, hm, rfl⟩)
    · cases h
  · cases h
  · cases h
  · next hp => cases h; exact .inr (.inr (.inl ⟨hp, rfl⟩))
  · next off hp => cases h; exact .inl ⟨off, hp, rfl⟩
  · next p hp =>
    rw [andThen_eq_next] at h
    obtain ⟨⟨ok, s1⟩, h1, h2⟩ := h
    cases ok
    · cases h2
    · cases h2; exact .inr (.inr (.inr ⟨p, s1, hp, h1, rfl⟩))

/-- A store that raises: an address error has written BadVaddr, a bus error has made its call, and nothing else changed. -/
theorem memStore_raised {f : StoreForm} {vaddr v : Word} {s t : State} {c : ExcCode}
    (h : memStore f vaddr v s = .next (.raised c, t)) :
    (c = .ades ∧ t = setBadVaddr vaddr s) ∨
    (c = .dbe ∧ t.bus.mem = s.bus.mem ∧ t.flags.exceptionRaised = s.flags.exceptionRaised ∧
      t.timing = { s.timing with pendingTicks := t.timing.pendingTicks } ∧ s.timing.pendingTicks ≤ t.timing.pendingTicks ∧
      (∃ k, t.bus.answers = s.bus.answers.drop k) ∧ t = { s with bus := t.bus, timing := t.timing, flags := t.flags }) := by
  unfold memStore at h
  split at h
  · cases h; exact .inl ⟨rfl, rfl⟩
  · cases h; exact .inr ⟨rfl, rfl, rfl, rfl, Nat.le_refl _, ⟨0, rfl⟩, rfl⟩
  · split at h <;> cases h
  · cases h
  · cases h
  · cases h
  · cases h
  · next p hp =>
    rw [andThen_eq_next] at h
    obtain ⟨⟨ok, s1⟩, h1, h2⟩ := h
    have d := busStore_done h1
    cases ok
    · cases h2
      refine .inr ⟨rfl, by simp [d.failed rfl], by simp [d.flags], ?_, ?_, ⟨1, by simp [d.answers]⟩, ?_⟩
      · simp only [charge_timing]; rw [d.frame]
      · simp only [charge_timing]; rw [d.frame]; exact Nat.le_add_right _ _
      · rw [d.frame]; ext1 <;> simp
    · cases h2

/-- A store keeps memory in its canonical form. -/
theorem memStore_wf {f : StoreForm} {vaddr v : Word} {s t : State} {r : Reply Unit} (h : memStore f vaddr v s = .next (r, t))
    (hw : s.bus.mem.wf = true) : t.bus.mem.wf = true := by
  cases r with
  | raised c =>
    rcases memStore_raised h with ⟨_, rfl⟩ | ⟨_, hm, _⟩
    · exact hw
    · rw [hm]; exact hw
  | done u =>
    rcases memStore_done h with ⟨off, _, rfl⟩ | ⟨_, _, rfl⟩ | ⟨_, rfl⟩ | ⟨p, s1, hp, hb, rfl⟩
    · simpa using hw
    · simpa using hw
    · simpa using hw
    · have hr := bus_in_range hp
      rcases (busStore_done hb).mem with hm | ⟨_, v', hm⟩
      · simpa [hm] using hw
      · simp only [charge_bus, hm]
        exact writeMaskedBytes_wf _ _ _ _ hw fun i _ hi => by
          have := storeForm_mask hi
          omega

/-- Reset memory is in its canonical form. -/
theorem reset_memory_wf : Memory.wf State.reset.bus.mem = true := rfl

end Sys2Proof.Machine
end

