-- ==== Sys2Proof/Laws/Encode.lean ====
section
/-! SUPPORT. What the decoder's fields read from each encoding format (30_encoding.md R171 to R174). -/

namespace Sys2Proof

@[simp] theorem fieldOp_rType (rs rt rd sh : BitVec 5) (f : BitVec 6) :
    fieldOp (rType rs rt rd sh f) = 0x00#6 := by
  unfold fieldOp rType
  rw [BitVec.extractLsb'_append_eq_of_le (by decide),
    BitVec.extractLsb'_append_eq_of_le (by decide),
    BitVec.extractLsb'_append_eq_of_le (by decide),
    BitVec.extractLsb'_append_eq_of_le (by decide),
    BitVec.extractLsb'_append_eq_of_le (by decide)]
  exact BitVec.extractLsb'_eq_self

@[simp] theorem fieldRs_rType (rs rt rd sh : BitVec 5) (f : BitVec 6) :
    fieldRs (rType rs rt rd sh f) = rs := by
  unfold fieldRs rType
  rw [BitVec.extractLsb'_append_eq_of_le (by decide),
    BitVec.extractLsb'_append_eq_of_le (by decide),
    BitVec.extractLsb'_append_eq_of_le (by decide),
    BitVec.extractLsb'_append_eq_of_le (by decide),
    BitVec.extractLsb'_append_eq_of_add_le (by decide)]
  exact BitVec.extractLsb'_eq_self

@[simp] theorem fieldRt_rType (rs rt rd sh : BitVec 5) (f : BitVec 6) :
    fieldRt (rType rs rt rd sh f) = rt := by
  unfold fieldRt rType
  rw [BitVec.extractLsb'_append_eq_of_le (by decide),
    BitVec.extractLsb'_append_eq_of_le (by decide),
    BitVec.extractLsb'_append_eq_of_le (by decide),
    BitVec.extractLsb'_append_eq_of_add_le (by decide)]
  exact BitVec.extractLsb'_eq_self

@[simp] theorem fieldRd_rType (rs rt rd sh : BitVec 5) (f : BitVec 6) :
    fieldRd (rType rs rt rd sh f) = rd := by
  unfold fieldRd rType
  rw [BitVec.extractLsb'_append_eq_of_le (by decide),
    BitVec.extractLsb'_append_eq_of_le (by decide),
    BitVec.extractLsb'_append_eq_of_add_le (by decide)]
  exact BitVec.extractLsb'_eq_self

@[simp] theorem fieldShamt_rType (rs rt rd sh : BitVec 5) (f : BitVec 6) :
    fieldShamt (rType rs rt rd sh f) = sh := by
  unfold fieldShamt rType
  rw [BitVec.extractLsb'_append_eq_of_le (by decide),
    BitVec.extractLsb'_append_eq_of_add_le (by decide)]
  exact BitVec.extractLsb'_eq_self

@[simp] theorem fieldFunct_rType (rs rt rd sh : BitVec 5) (f : BitVec 6) :
    fieldFunct (rType rs rt rd sh f) = f := by
  unfold fieldFunct rType
  rw [BitVec.extractLsb'_append_eq_of_add_le (by decide)]
  exact BitVec.extractLsb'_eq_self

@[simp] theorem fieldOp_iType (op : BitVec 6) (rs rt : BitVec 5) (imm : BitVec 16) :
    fieldOp (iType op rs rt imm) = op := by
  unfold fieldOp iType
  rw [BitVec.extractLsb'_append_eq_of_le (by decide),
    BitVec.extractLsb'_append_eq_of_le (by decide),
    BitVec.extractLsb'_append_eq_of_le (by decide)]
  exact BitVec.extractLsb'_eq_self

@[simp] theorem fieldRs_iType (op : BitVec 6) (rs rt : BitVec 5) (imm : BitVec 16) :
    fieldRs (iType op rs rt imm) = rs := by
  unfold fieldRs iType
  rw [BitVec.extractLsb'_append_eq_of_le (by decide),
    BitVec.extractLsb'_append_eq_of_le (by decide),
    BitVec.extractLsb'_append_eq_of_add_le (by decide)]
  exact BitVec.extractLsb'_eq_self

@[simp] theorem fieldRt_iType (op : BitVec 6) (rs rt : BitVec 5) (imm : BitVec 16) :
    fieldRt (iType op rs rt imm) = rt := by
  unfold fieldRt iType
  rw [BitVec.extractLsb'_append_eq_of_le (by decide),
    BitVec.extractLsb'_append_eq_of_add_le (by decide)]
  exact BitVec.extractLsb'_eq_self

@[simp] theorem fieldImm_iType (op : BitVec 6) (rs rt : BitVec 5) (imm : BitVec 16) :
    fieldImm (iType op rs rt imm) = imm := by
  unfold fieldImm iType
  rw [BitVec.extractLsb'_append_eq_of_add_le (by decide)]
  exact BitVec.extractLsb'_eq_self

@[simp] theorem fieldOp_jType (op : BitVec 6) (t : BitVec 26) :
    fieldOp (jType op t) = op := by
  unfold fieldOp jType
  rw [BitVec.extractLsb'_append_eq_of_le (by decide)]
  exact BitVec.extractLsb'_eq_self

@[simp] theorem fieldTarget_jType (op : BitVec 6) (t : BitVec 26) :
    fieldTarget (jType op t) = t := by
  unfold fieldTarget jType
  rw [BitVec.extractLsb'_append_eq_of_add_le (by decide)]
  exact BitVec.extractLsb'_eq_self

@[simp] theorem fieldOp_trapType (code : BitVec 20) (f : BitVec 6) :
    fieldOp (trapType code f) = 0x00#6 := by
  unfold fieldOp trapType
  rw [BitVec.extractLsb'_append_eq_of_le (by decide),
    BitVec.extractLsb'_append_eq_of_le (by decide)]
  exact BitVec.extractLsb'_eq_self

@[simp] theorem fieldCode_trapType (code : BitVec 20) (f : BitVec 6) :
    fieldCode (trapType code f) = code := by
  unfold fieldCode trapType
  rw [BitVec.extractLsb'_append_eq_of_le (by decide),
    BitVec.extractLsb'_append_eq_of_add_le (by decide)]
  exact BitVec.extractLsb'_eq_self

@[simp] theorem fieldFunct_trapType (code : BitVec 20) (f : BitVec 6) :
    fieldFunct (trapType code f) = f := by
  unfold fieldFunct trapType
  rw [BitVec.extractLsb'_append_eq_of_add_le (by decide)]
  exact BitVec.extractLsb'_eq_self

@[simp] theorem fieldOp_copMove (op : BitVec 6) (sub rt rd : BitVec 5) :
    fieldOp (copMove op sub rt rd) = op := by
  unfold fieldOp copMove
  rw [BitVec.extractLsb'_append_eq_of_le (by decide),
    BitVec.extractLsb'_append_eq_of_le (by decide),
    BitVec.extractLsb'_append_eq_of_le (by decide),
    BitVec.extractLsb'_append_eq_of_le (by decide)]
  exact BitVec.extractLsb'_eq_self

@[simp] theorem fieldCo_copMove (op : BitVec 6) (sub rt rd : BitVec 5) :
    fieldCo (copMove op sub rt rd) = sub.extractLsb' 4 1 := by
  unfold fieldCo copMove
  rw [BitVec.extractLsb'_append_eq_of_le (by decide),
    BitVec.extractLsb'_append_eq_of_le (by decide),
    BitVec.extractLsb'_append_eq_of_le (by decide),
    BitVec.extractLsb'_append_eq_of_add_le (by decide)]

@[simp] theorem fieldRs_copMove (op : BitVec 6) (sub rt rd : BitVec 5) :
    fieldRs (copMove op sub rt rd) = sub := by
  unfold fieldRs copMove
  rw [BitVec.extractLsb'_append_eq_of_le (by decide),
    BitVec.extractLsb'_append_eq_of_le (by decide),
    BitVec.extractLsb'_append_eq_of_le (by decide),
    BitVec.extractLsb'_append_eq_of_add_le (by decide)]
  exact BitVec.extractLsb'_eq_self

@[simp] theorem fieldRt_copMove (op : BitVec 6) (sub rt rd : BitVec 5) :
    fieldRt (copMove op sub rt rd) = rt := by
  unfold fieldRt copMove
  rw [BitVec.extractLsb'_append_eq_of_le (by decide),
    BitVec.extractLsb'_append_eq_of_le (by decide),
    BitVec.extractLsb'_append_eq_of_add_le (by decide)]
  exact BitVec.extractLsb'_eq_self

@[simp] theorem fieldRd_copMove (op : BitVec 6) (sub rt rd : BitVec 5) :
    fieldRd (copMove op sub rt rd) = rd := by
  unfold fieldRd copMove
  rw [BitVec.extractLsb'_append_eq_of_le (by decide),
    BitVec.extractLsb'_append_eq_of_add_le (by decide)]
  exact BitVec.extractLsb'_eq_self

@[simp] theorem fieldOp_copOperation (op : BitVec 6) (c : BitVec 25) :
    fieldOp (copOperation op c) = op := by
  unfold fieldOp copOperation
  rw [BitVec.extractLsb'_append_eq_of_le (by decide),
    BitVec.extractLsb'_append_eq_of_le (by decide)]
  exact BitVec.extractLsb'_eq_self

@[simp] theorem fieldCo_copOperation (op : BitVec 6) (c : BitVec 25) :
    fieldCo (copOperation op c) = 1#1 := by
  unfold fieldCo copOperation
  rw [BitVec.extractLsb'_append_eq_of_le (by decide),
    BitVec.extractLsb'_append_eq_of_add_le (by decide)]
  exact BitVec.extractLsb'_eq_self

@[simp] theorem fieldCofun_copOperation (op : BitVec 6) (c : BitVec 25) :
    fieldCofun (copOperation op c) = c := by
  unfold fieldCofun copOperation
  rw [BitVec.extractLsb'_append_eq_of_add_le (by decide)]
  exact BitVec.extractLsb'_eq_self

@[simp] theorem fieldFunct_copOperation (op : BitVec 6) (c : BitVec 25) :
    fieldFunct (copOperation op c) = c.extractLsb' 0 6 := by
  unfold fieldFunct copOperation
  rw [BitVec.extractLsb'_append_eq_of_add_le (by decide)]

/-- A data register's number survives its 5-bit field. -/
theorem gteData_gteField : ∀ g : GteReg, g.isData = true → gteData (gteField g) = g := by decide

/-- A control register's number survives its 5-bit field. -/
theorem gteControl_gteField : ∀ g : GteReg, g.isControl = true → gteControl (gteField g) = g := by decide

/-- The decoder on an instruction's bytes is the decoder on its word. -/
theorem wordOfBytes_of_word (w : Word) :
    wordOfBytes (w.extractLsb' 0 8) (w.extractLsb' 8 8) (w.extractLsb' 16 8) (w.extractLsb' 24 8) = w := by
  apply BitVec.eq_of_toNat_eq
  simp only [wordOfBytes, BitVec.toNat_append, BitVec.extractLsb'_toNat, Nat.shiftRight_zero]
  rw [← Nat.shiftLeft_add_eq_or_of_lt (by omega), ← Nat.shiftLeft_add_eq_or_of_lt (by omega),
    ← Nat.shiftLeft_add_eq_or_of_lt (by omega)]
  simp only [Nat.shiftLeft_eq, Nat.shiftRight_eq_div_pow]
  have := w.isLt
  omega

end Sys2Proof
end

