-- ==== Sys2Proof/Laws/Exec.lean ====
section
/-! SUPPORT. What the execution of an instruction can do, said once: it raises an exception from a state that differs from
the one before by little (`BeforeRaise`), or it completes quietly (`Quiet`). -/

namespace Sys2Proof.Machine

/-- What an instruction may have done when it raises: BadVaddr, ticks, bus calls that change no memory, the bus-error flag. -/
structure BeforeRaise (s u : State) : Prop where
  mem : u.bus.mem = s.bus.mem
  answers : ∃ k, u.bus.answers = s.bus.answers.drop k
  raised : u.flags.exceptionRaised = s.flags.exceptionRaised
  timing : u.timing = { s.timing with pendingTicks := u.timing.pendingTicks }
  ticks : s.timing.pendingTicks ≤ u.timing.pendingTicks
  frame : u = { s with cop0 := { s.cop0 with badVaddr := u.cop0.badVaddr }, bus := u.bus, timing := u.timing, flags := u.flags }

theorem BeforeRaise.refl (s : State) : BeforeRaise s s := ⟨rfl, ⟨0, rfl⟩, rfl, rfl, Nat.le_refl _, rfl⟩

theorem BeforeRaise.setBadVaddr (a : Word) (s : State) : BeforeRaise s (setBadVaddr a s) :=
  ⟨rfl, ⟨0, rfl⟩, rfl, rfl, Nat.le_refl _, rfl⟩

theorem BeforeRaise.gteStall {s u : State} (h : BeforeRaise (gteStall s) u) : BeforeRaise s u := by
  refine ⟨h.mem, h.answers, h.raised, ?_, Nat.le_trans (Nat.le_max_left _ _) h.ticks, ?_⟩
  · have := h.timing; simpa using this
  · have e := h.frame
    rw [e]; ext1 <;> simp

/-- What a completed instruction did, and that nothing else changed. -/
structure Quiet (i : Instr) (s t : State) : Prop where
  flags : t.flags = s.flags
  refused : t.refused = s.refused
  straight : isBranch i = false → t.pipe = s.pipe
  branch : isBranch i = true → t.pipe =
    { s.pipe with npc := t.pipe.npc, branchWasTaken := t.pipe.branchWasTaken, nextInstructionIsBranchDelaySlot := true }
  regs : ∀ r, immediateDest i ≠ some r → readReg r t = readReg r s
  delayKept : immediateDest i = none → delayedDest i = none → t.delay = s.delay
  delayWritten : ∀ r, immediateDest i = some r →
    t.delay = if s.delay.reg = some r then { s.delay with reg := none } else s.delay
  delayStaged : ∀ r, delayedDest i = some r → t.delay =
    if r = 0#5 then s.delay
    else { reg := if s.delay.reg = some r then none else s.delay.reg, value := s.delay.value, nextReg := some r
           nextValue := t.delay.nextValue }
  hi : writesHi i = false → t.hi = s.hi
  lo : writesLo i = false → t.lo = s.lo
  gte : writesGte i = false → t.gte = s.gte
  cop0 : t.cop0 = s.cop0 ∨
    (∃ rt rd, i = .mtc0 rt rd ∧ copUsable 0#2 s = true ∧ t.cop0 = (writeCop0 rd (readReg rt s) s).cop0) ∨
    (i = .rfe ∧ copUsable 0#2 s = true ∧ t.cop0 = (restoreFromException s).cop0)
  noStore : isStore i = false →
    t.bus.mem = s.bus.mem ∧ t.scratchpad = s.scratchpad ∧ t.cacheControl = s.cacheControl ∧ t.icache = s.icache
  memory : s.bus.mem.wf = true → t.bus.mem.wf = true
  cache : (t.icache = s.icache ∧ t.cacheControl = s.cacheControl) ∨
    (∃ v, t.icache = (writeCacheControl v s).icache ∧ t.cacheControl = v) ∨
    (∃ a m v, isolated s = true ∧ t.icache = (isolatedStore a m v s).icache ∧ t.cacheControl = s.cacheControl)
  answers : ∃ k, t.bus.answers = s.bus.answers.drop k
  downcount : t.timing.downcount = s.timing.downcount
  ticks : s.timing.pendingTicks ≤ t.timing.pendingTicks

/-- An instruction that writes a register at once. -/
theorem Quiet.wrote {i : Instr} {r : RegNum} {v : Word} {s : State} (hi : immediateDest i = some r)
    (hd : delayedDest i = none) (hb : isBranch i = false) : Quiet i s (writeReg r v s) where
  flags := by simp
  refused := by simp
  straight _ := by simp
  branch h := by simp [hb] at h
  regs q hq := by
    have : q ≠ r := fun e => hq (e ▸ hi)
    simp [readReg_writeReg, this]
  delayKept h := by simp [hi] at h
  delayWritten q h := by
    have : q = r := by rw [hi] at h; exact (Option.some.inj h).symm
    subst this; simp
  delayStaged q h := by simp [hd] at h
  hi _ := by simp
  lo _ := by simp
  gte _ := by simp
  cop0 := .inl (by simp)
  noStore _ := by simp
  memory h := by simpa using h
  cache := .inl (by simp)
  answers := ⟨0, by simp⟩
  downcount := by simp
  ticks := by simp

/-- An instruction that changes HI, LO, ticks or the GTE only. -/
theorem Quiet.units {i : Instr} {s t : State} (ht : t = { s with hi := t.hi, lo := t.lo, gte := t.gte, timing := t.timing })
    (hi : immediateDest i = none) (hd : delayedDest i = none) (hb : isBranch i = false)
    (hh : writesHi i = false → t.hi = s.hi) (hl : writesLo i = false → t.lo = s.lo) (hg : writesGte i = false → t.gte = s.gte)
    (hc : t.timing.downcount = s.timing.downcount) (hp : s.timing.pendingTicks ≤ t.timing.pendingTicks) : Quiet i s t where
  flags := by rw [ht]
  refused := by rw [ht]
  straight _ := by rw [ht]
  branch h := by simp [hb] at h
  regs q _ := readReg_congr (by rw [ht]) q
  delayKept _ _ := by rw [ht]
  delayWritten q h := by simp [hi] at h
  delayStaged q h := by simp [hd] at h
  hi := hh
  lo := hl
  gte := hg
  cop0 := .inl (by rw [ht])
  noStore _ := by rw [ht]; exact ⟨rfl, rfl, rfl, rfl⟩
  memory h := by rw [ht]; exact h
  cache := .inl (by rw [ht]; exact ⟨rfl, rfl⟩)
  answers := ⟨0, by rw [ht]; rfl⟩
  downcount := hc
  ticks := hp

/-- A branch or jump that does not link. -/
theorem Quiet.branched {i : Instr} {s : State} (cond : Bool) (target : Word) (hi : immediateDest i = none)
    (hd : delayedDest i = none) (hb : isBranch i = true) : Quiet i s (branchIf cond target s) where
  flags := by simp
  refused := by simp
  straight h := by simp [hb] at h
  branch _ := by
    have h := branchIf_branched cond target s
    rw [h.pipeFrame, h.slot]
  regs q _ := readReg_congr (by simp) q
  delayKept _ _ := by simp
  delayWritten q h := by simp [hi] at h
  delayStaged q h := by simp [hd] at h
  hi _ := by simp
  lo _ := by simp
  gte _ := by simp
  cop0 := .inl (by simp)
  noStore _ := by simp
  memory h := by simpa using h
  cache := .inl (by simp)
  answers := ⟨0, by simp⟩
  downcount := by simp
  ticks := by simp

/-- A branch or jump that links. -/
theorem Quiet.linked {i : Instr} {r : RegNum} {v : Word} {s : State} (cond : Bool) (target : Word)
    (hi : immediateDest i = some r) (hd : delayedDest i = none) (hb : isBranch i = true) :
    Quiet i s (branchIf cond target (writeReg r v s)) where
  flags := by simp
  refused := by simp
  straight h := by simp [hb] at h
  branch _ := by
    have h := branchIf_branched cond target (writeReg r v s)
    rw [h.pipeFrame, h.slot]; simp
  regs q hq := by
    have : q ≠ r := fun e => hq (e ▸ hi)
    have e : readReg q (branchIf cond target (writeReg r v s)) = readReg q (writeReg r v s) := readReg_congr (by simp) q
    simp [e, readReg_writeReg, this]
  delayKept h := by simp [hi] at h
  delayWritten q h := by
    have : q = r := by rw [hi] at h; exact (Option.some.inj h).symm
    subst this; simp
  delayStaged q h := by simp [hd] at h
  hi _ := by simp
  lo _ := by simp
  gte _ := by simp
  cop0 := .inl (by simp)
  noStore _ := by simp
  memory h := by simpa using h
  cache := .inl (by simp)
  answers := ⟨0, by simp⟩
  downcount := by simp
  ticks := by simp

/-- An instruction that stages a register after reading `u`. -/
theorem Quiet.staged {i : Instr} {r : RegNum} {v : Word} {s u : State} (hu : u = { s with bus := u.bus, timing := u.timing, draws := u.draws })
    (hm : u.bus.mem = s.bus.mem) (ha : ∃ k, u.bus.answers = s.bus.answers.drop k)
    (hc : u.timing.downcount = s.timing.downcount) (hp : s.timing.pendingTicks ≤ u.timing.pendingTicks)
    (hi : immediateDest i = none) (hd : delayedDest i = some r) (hb : isBranch i = false) :
    Quiet i s (writeRegDelayed r v u) where
  flags := by simp; rw [hu]
  refused := by simp; rw [hu]
  straight _ := by simp; rw [hu]
  branch h := by simp [hb] at h
  regs q _ := readReg_congr (by simp; rw [hu]) q
  delayKept _ h := by simp [hd] at h
  delayWritten q h := by simp [hi] at h
  delayStaged q h := by
    have : q = r := by rw [hd] at h; exact (Option.some.inj h).symm
    subst this
    have e : u.delay = s.delay := by rw [hu]
    by_cases hq : q = 0#5 <;> simp [hq, e]
  hi _ := by simp; rw [hu]
  lo _ := by simp; rw [hu]
  gte _ := by simp; rw [hu]
  cop0 := .inl (by simp; rw [hu])
  noStore _ := by simp only [writeRegDelayed_bus, writeRegDelayed_scratchpad, writeRegDelayed_cacheControl, writeRegDelayed_icache]; exact ⟨hm, by rw [hu], by rw [hu], by rw [hu]⟩
  memory h := by simpa [hm] using h
  cache := .inl (by simp only [writeRegDelayed_cacheControl, writeRegDelayed_icache]; exact ⟨by rw [hu], by rw [hu]⟩)
  answers := by simpa using ha
  downcount := by simpa using hc
  ticks := by simpa using hp

/-- Executed: the exception was entered from a state `BeforeRaise` describes, or the instruction completed quietly. -/
def Executed (i : Instr) (s t : State) : Prop :=
  (∃ code ce u, BeforeRaise s u ∧ raiseWithCe code ce u = .next t) ∨ Quiet i s t

theorem Executed.of_raise {i : Instr} {s t : State} {code : ExcCode} (h : raiseException code s = .next t) : Executed i s t :=
  .inl ⟨_, _, s, .refl s, h⟩

theorem Executed.of_withCop {i : Instr} {z : BitVec 2} {s t : State} {k : State → Res} (h : withCop z s k = .next t)
    (hk : copUsable z s = true → k s = .next t → Executed i s t) : Executed i s t := by
  rcases withCop_eq_next h with ⟨hu, hn⟩ | ⟨_, hr⟩
  · exact hk hu hn
  · exact .inl ⟨_, _, s, .refl s, hr⟩

/-- ADD, ADDI and SUB write or trap (40_alu.md R202). -/
theorem writeOrTrap_executed {i : Instr} {rd : RegNum} {sum : Int} {s t : State} (h : writeOrTrap rd sum s = .next t)
    (hi : immediateDest i = some rd) (hd : delayedDest i = none) (hb : isBranch i = false) : Executed i s t := by
  unfold writeOrTrap at h
  split at h
  · exact .of_raise h
  · cases h; exact .inr (.wrote hi hd hb)

/-- What a memory read that raises has done. -/
theorem memRead_beforeRaise {vaddr : Word} {n : Width} {s u : State} {c : ExcCode}
    (h : memRead vaddr n s = .next (.raised c, u)) : BeforeRaise s u := by
  rcases memRead_raised h with ⟨_, rfl⟩ | ⟨_, hm, hf, ht, hp, ha, hu⟩
  · exact .setBadVaddr _ _
  · exact ⟨hm, ha, hf, ht, hp, by rw [hu]⟩

theorem memStore_beforeRaise {f : StoreForm} {vaddr v : Word} {s u : State} {c : ExcCode}
    (h : memStore f vaddr v s = .next (.raised c, u)) : BeforeRaise s u := by
  rcases memStore_raised h with ⟨_, rfl⟩ | ⟨_, hm, hf, ht, hp, ha, hu⟩
  · exact .setBadVaddr _ _
  · exact ⟨hm, ha, hf, ht, hp, by rw [hu]⟩

/-- A load: it raises, or its result is staged (43_loadstore.md R300). -/
theorem load_executed {i : Instr} {vaddr : Word} {n : Width} {rt : RegNum} {val : Word → State → Word} {s t : State}
    (h : onDone (memRead vaddr n s) (fun v u => .next (writeRegDelayed rt (val v u) u)) = .next t)
    (hi : immediateDest i = none) (hd : delayedDest i = some rt) (hb : isBranch i = false) : Executed i s t := by
  rcases onDone_eq_next.mp h with ⟨v, u, hm, hk⟩ | ⟨c, u, hm, hr⟩
  · cases hk
    obtain ⟨_, hmem, htim, hu⟩ := memRead_done hm
    exact .inr (.staged hu hmem (memRead_answers hm) (by rw [htim]) (by rw [htim]; exact Nat.le_add_right _ _) hi hd hb)
  · exact .inl ⟨_, _, u, memRead_beforeRaise hm, hr⟩

/-- Where an isolated access goes, the cache is isolated (20_memory.md R160). -/
theorem isolated_of_target {vaddr : Word} {n : Width} {s : State} (h : dataTarget vaddr n s = .isolatedCache) :
    isolated s = true := by
  unfold dataTarget at h
  repeat' split at h
  all_goals first
    | cases h
    | (simp only [unlessIsolated, cachedSegmentTarget] at h
       repeat' split at h
       all_goals first | assumption | cases h)

/-- A store that is done, as a quiet completion. -/
theorem Quiet.stored {i : Instr} {f : StoreForm} {vaddr v : Word} {s t : State} {tm : Timing}
    (h : memStore f vaddr v { s with timing := tm } = .next (.done (), t))
    (hc : tm.downcount = s.timing.downcount) (hp : s.timing.pendingTicks ≤ tm.pendingTicks)
    (hi : immediateDest i = none) (hd : delayedDest i = none) (hb : isBranch i = false) (hs : isStore i = true) : Quiet i s t := by
  have frame : t = { s with bus := t.bus, timing := t.timing, scratchpad := t.scratchpad, cacheControl := t.cacheControl
                            icache := t.icache, draws := t.draws } ∧
      t.timing.downcount = s.timing.downcount ∧ s.timing.pendingTicks ≤ t.timing.pendingTicks ∧
      (∃ k, t.bus.answers = s.bus.answers.drop k) ∧
      ((t.icache = s.icache ∧ t.cacheControl = s.cacheControl) ∨
        (∃ v, t.icache = (writeCacheControl v s).icache ∧ t.cacheControl = v) ∨
        (∃ a m v, isolated s = true ∧ t.icache = (isolatedStore a m v s).icache ∧ t.cacheControl = s.cacheControl)) := by
    rcases memStore_done h with ⟨off, ht, rfl⟩ | ⟨ht, _, rfl⟩ | ⟨ht, rfl⟩ | ⟨p, s1, ht, hb', rfl⟩
    · exact ⟨by ext1 <;> simp, by simpa using hc, by simp; omega, ⟨0, by simp⟩, .inl (by simp)⟩
    · exact ⟨by ext1 <;> simp, by simpa using hc, by simp; omega, ⟨0, by simp⟩, .inr (.inl ⟨v, by simp, by simp⟩)⟩
    · have iso : isolated s = true := isolated_of_target ht
      exact ⟨by ext1 <;> simp, by simpa using hc, by simp; omega, ⟨0, by simp⟩,
        .inr (.inr ⟨vaddr, f.mask, v, iso, by simp [drawn], by simp⟩)⟩
    · have d := busStore_done hb'
      have hf := d.flags
      simp at hf
      have e := d.frame
      rw [hf] at e
      refine ⟨by rw [e]; ext1 <;> simp, by rw [e]; simpa using hc, by rw [e]; simp; omega, ⟨1, by simp [d.answers]⟩, .inl ?_⟩
      rw [e]; exact ⟨rfl, rfl⟩
  obtain ⟨ft, hdc, htk, hans, hcache⟩ := frame
  exact ⟨by rw [ft], by rw [ft], fun _ => by rw [ft], by simp [hb], fun r _ => readReg_congr (by rw [ft]) r, fun _ _ => by rw [ft],
    by simp [hi], by simp [hd], fun _ => by rw [ft], fun _ => by rw [ft], fun _ => by rw [ft], .inl (by rw [ft]),
    by simp [hs], fun hw => memStore_wf h hw, hcache, hans, hdc, htk⟩

/-- A store: it raises, or it is done. -/
theorem store_executed {i : Instr} {f : StoreForm} {vaddr v : Word} {s t : State}
    (h : onDone (memStore f vaddr v s) (fun _ u => .next u) = .next t)
    (hi : immediateDest i = none) (hd : delayedDest i = none) (hb : isBranch i = false) (hs : isStore i = true) :
    Executed i s t := by
  rcases onDone_eq_next.mp h with ⟨⟨⟩, u, hm, hk⟩ | ⟨c, u, hm, hr⟩
  · cases hk
    exact .inr (.stored (tm := s.timing) hm rfl (Nat.le_refl _) hi hd hb hs)
  · exact .inl ⟨_, _, u, memStore_beforeRaise hm, hr⟩

/-- A COP0 write that is no trap (44_system.md R337). -/
theorem Quiet.wroteCop0 {i : Instr} {s t : State} (ht : t = { s with cop0 := t.cop0 })
    (hc : (∃ rt rd, i = .mtc0 rt rd ∧ copUsable 0#2 s = true ∧ t.cop0 = (writeCop0 rd (readReg rt s) s).cop0) ∨
      (i = .rfe ∧ copUsable 0#2 s = true ∧ t.cop0 = (restoreFromException s).cop0)) : Quiet i s t := by
  have hi : immediateDest i = none := by rcases hc with ⟨_, _, rfl, _⟩ | ⟨rfl, _⟩ <;> rfl
  have hd : delayedDest i = none := by rcases hc with ⟨_, _, rfl, _⟩ | ⟨rfl, _⟩ <;> rfl
  have hb : isBranch i = false := by rcases hc with ⟨_, _, rfl, _⟩ | ⟨rfl, _⟩ <;> rfl
  exact ⟨by rw [ht], by rw [ht], fun _ => by rw [ht], by simp [hb], fun r _ => readReg_congr (by rw [ht]) r,
    fun _ _ => by rw [ht], by simp [hi], by simp [hd], fun _ => by rw [ht], fun _ => by rw [ht], fun _ => by rw [ht], .inr hc,
    fun _ => by rw [ht]; exact ⟨rfl, rfl, rfl, rfl⟩, fun h => by rw [ht]; exact h, .inl (by rw [ht]; exact ⟨rfl, rfl⟩),
    ⟨0, by rw [ht]; rfl⟩, by rw [ht], by rw [ht]⟩

/-- MTC0 changes COP0 only. -/
theorem writeCop0_frame (n : RegNum) (v : Word) (s : State) : writeCop0 n v s = { s with cop0 := (writeCop0 n v s).cop0 } := by
  unfold writeCop0; split <;> rfl

/-- MFC0 stages a value, draws one, or raises RI (44_system.md R333, R336). -/
theorem execMfc0_executed {rt rd : RegNum} {s t : State} (h : execMfc0 rt rd s = .next t) : Executed (.mfc0 rt rd) s t := by
  refine .of_withCop h fun _ hk => ?_
  split at hk
  · cases hk; exact .inr (.staged rfl rfl ⟨0, rfl⟩ rfl (Nat.le_refl _) rfl rfl rfl)
  · cases hk; exact .inr (.staged rfl rfl ⟨0, rfl⟩ rfl (Nat.le_refl _) rfl rfl rfl)
  · exact .of_raise hk

/-- MFC2 and CFC2 wait and stage (44_system.md R351, R352). -/
theorem moveFromGte_executed {i : Instr} {rt : RegNum} {gr : GteReg} {s t : State} (h : moveFromGte rt gr s = .next t)
    (hi : immediateDest i = none) (hd : delayedDest i = some rt) (hb : isBranch i = false) : Executed i s t := by
  refine .of_withCop h fun _ hk => ?_
  cases hk
  exact .inr (.staged rfl rfl ⟨0, rfl⟩ rfl (Nat.le_max_left _ _) hi hd hb)

/-- MTC2 and CTC2 write the GTE (44_system.md R353, R354). -/
theorem moveToGte_executed {i : Instr} {rt : RegNum} {gr : GteReg} {s t : State} (h : moveToGte rt gr s = .next t)
    (hi : immediateDest i = none) (hd : delayedDest i = none) (hb : isBranch i = false) (hg : writesGte i = true) :
    Executed i s t := by
  refine .of_withCop h fun _ hk => ?_
  cases hk
  exact .inr (.units rfl hi hd hb (fun _ => rfl) (fun _ => rfl) (by simp [hg]) rfl (Nat.le_refl _))

/-- LWC2 reads memory into the GTE (44_system.md R357): the read part took ticks, bus calls and draws. -/
theorem execLwc2_executed {gr : GteReg} {base : RegNum} {off : BitVec 16} {s t : State}
    (h : execLwc2 gr base off s = .next t) : Executed (.lwc2 gr base off) s t := by
  refine .of_withCop h fun _ hk => ?_
  rcases onDone_eq_next.mp hk with ⟨v, u, hm, hn⟩ | ⟨c, u, hm, hr⟩
  · cases hn
    obtain ⟨_, hmem, htim, hu⟩ := memRead_done hm
    have ha := memRead_answers hm
    have e : gteSet gr v u = { s with bus := u.bus, timing := u.timing, draws := u.draws, gte := (gteSet gr v u).gte } := by
      rw [hu]; rfl
    rw [e]
    exact .inr ⟨rfl, rfl, fun _ => rfl, by simp [isBranch], fun _ _ => rfl, fun _ _ => rfl, by simp [immediateDest],
      by simp [delayedDest], fun _ => rfl, fun _ => rfl, by simp [writesGte], .inl rfl, fun _ => ⟨hmem, rfl, rfl, rfl⟩,
      fun hw => by simpa [hmem] using hw, .inl ⟨rfl, rfl⟩, ha, by simp [htim], by simp [htim]⟩
  · exact .inl ⟨_, _, u, memRead_beforeRaise hm, hr⟩

/-- SWC2 waits for the GTE, then stores (44_system.md R358). -/
theorem execSwc2_executed {gr : GteReg} {base : RegNum} {off : BitVec 16} {s t : State}
    (h : execSwc2 gr base off s = .next t) : Executed (.swc2 gr base off) s t := by
  refine .of_withCop h fun _ hk => ?_
  rcases onDone_eq_next.mp hk with ⟨⟨⟩, u, hm, hn⟩ | ⟨c, u, hm, hr⟩
  · cases hn
    exact .inr (.stored (tm := (gteStall s).timing) hm rfl (Nat.le_max_left _ _) rfl rfl rfl rfl)
  · exact .inl ⟨_, _, u, (memStore_beforeRaise hm).gteStall, hr⟩

/-- Everything the execution of an instruction can do when it answers a next state. -/
theorem exec_executed {i : Instr} {s t : State} (h : exec i s = .next t) : Executed i s t := by
  cases i with
  | sll | srl | sra | sllv | srlv | srav | mfhi | mflo | addu | subu | and | or | xor | nor | slt | sltu | addiu | slti | sltiu
  | andi | ori | xori | lui => cases h; exact .inr (.wrote rfl rfl rfl)
  | add | sub | addi => exact writeOrTrap_executed h rfl rfl rfl
  | mult | multu | div | divu =>
    cases h
    exact .inr (.units rfl rfl rfl rfl (by simp [writesHi]) (by simp [writesLo]) (fun _ => rfl) rfl (Nat.le_add_right _ _))
  | mthi => cases h; exact .inr (.units rfl rfl rfl rfl (by simp [writesHi]) (fun _ => rfl) (fun _ => rfl) rfl (Nat.le_refl _))
  | mtlo => cases h; exact .inr (.units rfl rfl rfl rfl (fun _ => rfl) (by simp [writesLo]) (fun _ => rfl) rfl (Nat.le_refl _))
  | j | jr | beq | bne | blez | bgtz | bltz | bgez => cases h; exact .inr (.branched _ _ rfl rfl rfl)
  | jal | jalr | bltzal | bgezal => cases h; exact .inr (.linked _ _ rfl rfl rfl)
  | syscall | breakTrap => exact .of_raise h
  | lb | lbu | lh | lhu | lw => exact load_executed (val := fun v _ => _) h rfl rfl rfl
  | lwl rt base off =>
    exact load_executed (val := fun w u => mergeLeft (byteInWord (effectiveAddress base off s)) (readRegPending rt u) w) h rfl rfl rfl
  | lwr rt base off =>
    exact load_executed (val := fun w u => mergeRight (byteInWord (effectiveAddress base off s)) (readRegPending rt u) w) h rfl rfl rfl
  | sb | sh | sw | swl | swr => exact store_executed h rfl rfl rfl rfl
  | mfc0 rt rd => exact execMfc0_executed h
  | mtc0 rt rd =>
    simp only [exec, execMtc0] at h
    refine .of_withCop h fun hu hk => ?_
    cases hk
    exact .inr (.wroteCop0 (writeCop0_frame _ _ _) (.inl ⟨rt, rd, rfl, hu, rfl⟩))
  | rfe =>
    simp only [exec, execRfe] at h
    refine .of_withCop h fun hu hk => ?_
    cases hk
    exact .inr (.wroteCop0 rfl (.inr ⟨rfl, hu, rfl⟩))
  | mfc2 | cfc2 => exact moveFromGte_executed h rfl rfl rfl
  | mtc2 | ctc2 => exact moveToGte_executed h rfl rfl rfl rfl
  | cop2 =>
    simp only [exec, execCop2] at h
    refine .of_withCop h fun _ hk => ?_
    cases hk
    exact .inr (.units rfl rfl rfl rfl (fun _ => rfl) (fun _ => rfl) (by simp [writesGte]) rfl (Nat.le_max_left _ _))
  | lwc2 => exact execLwc2_executed h
  | swc2 => exact execSwc2_executed h

end Sys2Proof.Machine
end

