-- ==== Sys2Proof/Laws/PerInstr.lean ====
section
/-! SUPPORT. Statements made instruction by instruction. The family `Opcode`: the primary opcode of an instruction's word is
the one of its row in spec/opcode_table.json (30_encoding.md R177). -/

namespace Sys2Proof.Laws.Opcode

/-- The primary opcode of an instruction's row in spec/opcode_table.json. -/
def primary : Instr → BitVec 6
  | .sll _ _ _ => 0x00#6
  | .srl _ _ _ => 0x00#6
  | .sra _ _ _ => 0x00#6
  | .sllv _ _ _ => 0x00#6
  | .srlv _ _ _ => 0x00#6
  | .srav _ _ _ => 0x00#6
  | .jr _ => 0x00#6
  | .jalr _ _ => 0x00#6
  | .syscall _ => 0x00#6
  | .breakTrap _ => 0x00#6
  | .mfhi _ => 0x00#6
  | .mthi _ => 0x00#6
  | .mflo _ => 0x00#6
  | .mtlo _ => 0x00#6
  | .mult _ _ => 0x00#6
  | .multu _ _ => 0x00#6
  | .div _ _ => 0x00#6
  | .divu _ _ => 0x00#6
  | .add _ _ _ => 0x00#6
  | .addu _ _ _ => 0x00#6
  | .sub _ _ _ => 0x00#6
  | .subu _ _ _ => 0x00#6
  | .and _ _ _ => 0x00#6
  | .or _ _ _ => 0x00#6
  | .xor _ _ _ => 0x00#6
  | .nor _ _ _ => 0x00#6
  | .slt _ _ _ => 0x00#6
  | .sltu _ _ _ => 0x00#6
  | .bltz _ _ => 0x01#6
  | .bgez _ _ => 0x01#6
  | .bltzal _ _ => 0x01#6
  | .bgezal _ _ => 0x01#6
  | .j _ => 0x02#6
  | .jal _ => 0x03#6
  | .beq _ _ _ => 0x04#6
  | .bne _ _ _ => 0x05#6
  | .blez _ _ => 0x06#6
  | .bgtz _ _ => 0x07#6
  | .addi _ _ _ => 0x08#6
  | .addiu _ _ _ => 0x09#6
  | .slti _ _ _ => 0x0A#6
  | .sltiu _ _ _ => 0x0B#6
  | .andi _ _ _ => 0x0C#6
  | .ori _ _ _ => 0x0D#6
  | .xori _ _ _ => 0x0E#6
  | .lui _ _ => 0x0F#6
  | .mfc0 _ _ => 0x10#6
  | .mtc0 _ _ => 0x10#6
  | .rfe => 0x10#6
  | .mfc2 _ _ => 0x12#6
  | .cfc2 _ _ => 0x12#6
  | .mtc2 _ _ => 0x12#6
  | .ctc2 _ _ => 0x12#6
  | .cop2 _ => 0x12#6
  | .lb _ _ _ => 0x20#6
  | .lh _ _ _ => 0x21#6
  | .lwl _ _ _ => 0x22#6
  | .lw _ _ _ => 0x23#6
  | .lbu _ _ _ => 0x24#6
  | .lhu _ _ _ => 0x25#6
  | .lwr _ _ _ => 0x26#6
  | .sb _ _ _ => 0x28#6
  | .sh _ _ _ => 0x29#6
  | .swl _ _ _ => 0x2A#6
  | .sw _ _ _ => 0x2B#6
  | .swr _ _ _ => 0x2E#6
  | .lwc2 _ _ _ => 0x32#6
  | .swc2 _ _ _ => 0x3A#6

/-- The word's primary opcode is the row's. -/
def Statement (i : Instr) : Prop := fieldOp (encode i) = primary i

theorem sll (rd rt : RegNum) (shamt : BitVec 5) : Statement (.sll rd rt shamt) := fieldOp_rType _ _ _ _ _
theorem srl (rd rt : RegNum) (shamt : BitVec 5) : Statement (.srl rd rt shamt) := fieldOp_rType _ _ _ _ _
theorem sra (rd rt : RegNum) (shamt : BitVec 5) : Statement (.sra rd rt shamt) := fieldOp_rType _ _ _ _ _
theorem sllv (rd rt rs : RegNum) : Statement (.sllv rd rt rs) := fieldOp_rType _ _ _ _ _
theorem srlv (rd rt rs : RegNum) : Statement (.srlv rd rt rs) := fieldOp_rType _ _ _ _ _
theorem srav (rd rt rs : RegNum) : Statement (.srav rd rt rs) := fieldOp_rType _ _ _ _ _
theorem jr (rs : RegNum) : Statement (.jr rs) := fieldOp_rType _ _ _ _ _
theorem jalr (rd rs : RegNum) : Statement (.jalr rd rs) := fieldOp_rType _ _ _ _ _
theorem syscall (code : BitVec 20) : Statement (.syscall code) := fieldOp_trapType _ _
theorem breakTrap (code : BitVec 20) : Statement (.breakTrap code) := fieldOp_trapType _ _
theorem mfhi (rd : RegNum) : Statement (.mfhi rd) := fieldOp_rType _ _ _ _ _
theorem mthi (rs : RegNum) : Statement (.mthi rs) := fieldOp_rType _ _ _ _ _
theorem mflo (rd : RegNum) : Statement (.mflo rd) := fieldOp_rType _ _ _ _ _
theorem mtlo (rs : RegNum) : Statement (.mtlo rs) := fieldOp_rType _ _ _ _ _
theorem mult (rs rt : RegNum) : Statement (.mult rs rt) := fieldOp_rType _ _ _ _ _
theorem multu (rs rt : RegNum) : Statement (.multu rs rt) := fieldOp_rType _ _ _ _ _
theorem div (rs rt : RegNum) : Statement (.div rs rt) := fieldOp_rType _ _ _ _ _
theorem divu (rs rt : RegNum) : Statement (.divu rs rt) := fieldOp_rType _ _ _ _ _
theorem add (rd rs rt : RegNum) : Statement (.add rd rs rt) := fieldOp_rType _ _ _ _ _
theorem addu (rd rs rt : RegNum) : Statement (.addu rd rs rt) := fieldOp_rType _ _ _ _ _
theorem sub (rd rs rt : RegNum) : Statement (.sub rd rs rt) := fieldOp_rType _ _ _ _ _
theorem subu (rd rs rt : RegNum) : Statement (.subu rd rs rt) := fieldOp_rType _ _ _ _ _
theorem and (rd rs rt : RegNum) : Statement (.and rd rs rt) := fieldOp_rType _ _ _ _ _
theorem or (rd rs rt : RegNum) : Statement (.or rd rs rt) := fieldOp_rType _ _ _ _ _
theorem xor (rd rs rt : RegNum) : Statement (.xor rd rs rt) := fieldOp_rType _ _ _ _ _
theorem nor (rd rs rt : RegNum) : Statement (.nor rd rs rt) := fieldOp_rType _ _ _ _ _
theorem slt (rd rs rt : RegNum) : Statement (.slt rd rs rt) := fieldOp_rType _ _ _ _ _
theorem sltu (rd rs rt : RegNum) : Statement (.sltu rd rs rt) := fieldOp_rType _ _ _ _ _
theorem bltz (rs : RegNum) (imm : BitVec 16) : Statement (.bltz rs imm) := fieldOp_iType _ _ _ _
theorem bgez (rs : RegNum) (imm : BitVec 16) : Statement (.bgez rs imm) := fieldOp_iType _ _ _ _
theorem bltzal (rs : RegNum) (imm : BitVec 16) : Statement (.bltzal rs imm) := fieldOp_iType _ _ _ _
theorem bgezal (rs : RegNum) (imm : BitVec 16) : Statement (.bgezal rs imm) := fieldOp_iType _ _ _ _
theorem j (target : BitVec 26) : Statement (.j target) := fieldOp_jType _ _
theorem jal (target : BitVec 26) : Statement (.jal target) := fieldOp_jType _ _
theorem beq (rs rt : RegNum) (imm : BitVec 16) : Statement (.beq rs rt imm) := fieldOp_iType _ _ _ _
theorem bne (rs rt : RegNum) (imm : BitVec 16) : Statement (.bne rs rt imm) := fieldOp_iType _ _ _ _
theorem blez (rs : RegNum) (imm : BitVec 16) : Statement (.blez rs imm) := fieldOp_iType _ _ _ _
theorem bgtz (rs : RegNum) (imm : BitVec 16) : Statement (.bgtz rs imm) := fieldOp_iType _ _ _ _
theorem addi (rt rs : RegNum) (imm : BitVec 16) : Statement (.addi rt rs imm) := fieldOp_iType _ _ _ _
theorem addiu (rt rs : RegNum) (imm : BitVec 16) : Statement (.addiu rt rs imm) := fieldOp_iType _ _ _ _
theorem slti (rt rs : RegNum) (imm : BitVec 16) : Statement (.slti rt rs imm) := fieldOp_iType _ _ _ _
theorem sltiu (rt rs : RegNum) (imm : BitVec 16) : Statement (.sltiu rt rs imm) := fieldOp_iType _ _ _ _
theorem andi (rt rs : RegNum) (imm : BitVec 16) : Statement (.andi rt rs imm) := fieldOp_iType _ _ _ _
theorem ori (rt rs : RegNum) (imm : BitVec 16) : Statement (.ori rt rs imm) := fieldOp_iType _ _ _ _
theorem xori (rt rs : RegNum) (imm : BitVec 16) : Statement (.xori rt rs imm) := fieldOp_iType _ _ _ _
theorem lui (rt : RegNum) (imm : BitVec 16) : Statement (.lui rt imm) := fieldOp_iType _ _ _ _
theorem mfc0 (rt rd : RegNum) : Statement (.mfc0 rt rd) := fieldOp_copMove _ _ _ _
theorem mtc0 (rt rd : RegNum) : Statement (.mtc0 rt rd) := fieldOp_copMove _ _ _ _
theorem rfe : Statement (.rfe) := fieldOp_copOperation _ _
theorem mfc2 (rt : RegNum) (gr : GteReg) : Statement (.mfc2 rt gr) := fieldOp_copMove _ _ _ _
theorem cfc2 (rt : RegNum) (gr : GteReg) : Statement (.cfc2 rt gr) := fieldOp_copMove _ _ _ _
theorem mtc2 (rt : RegNum) (gr : GteReg) : Statement (.mtc2 rt gr) := fieldOp_copMove _ _ _ _
theorem ctc2 (rt : RegNum) (gr : GteReg) : Statement (.ctc2 rt gr) := fieldOp_copMove _ _ _ _
theorem cop2 (cofun : BitVec 25) : Statement (.cop2 cofun) := fieldOp_copOperation _ _
theorem lb (rt base : RegNum) (offset : BitVec 16) : Statement (.lb rt base offset) := fieldOp_iType _ _ _ _
theorem lh (rt base : RegNum) (offset : BitVec 16) : Statement (.lh rt base offset) := fieldOp_iType _ _ _ _
theorem lwl (rt base : RegNum) (offset : BitVec 16) : Statement (.lwl rt base offset) := fieldOp_iType _ _ _ _
theorem lw (rt base : RegNum) (offset : BitVec 16) : Statement (.lw rt base offset) := fieldOp_iType _ _ _ _
theorem lbu (rt base : RegNum) (offset : BitVec 16) : Statement (.lbu rt base offset) := fieldOp_iType _ _ _ _
theorem lhu (rt base : RegNum) (offset : BitVec 16) : Statement (.lhu rt base offset) := fieldOp_iType _ _ _ _
theorem lwr (rt base : RegNum) (offset : BitVec 16) : Statement (.lwr rt base offset) := fieldOp_iType _ _ _ _
theorem sb (rt base : RegNum) (offset : BitVec 16) : Statement (.sb rt base offset) := fieldOp_iType _ _ _ _
theorem sh (rt base : RegNum) (offset : BitVec 16) : Statement (.sh rt base offset) := fieldOp_iType _ _ _ _
theorem swl (rt base : RegNum) (offset : BitVec 16) : Statement (.swl rt base offset) := fieldOp_iType _ _ _ _
theorem sw (rt base : RegNum) (offset : BitVec 16) : Statement (.sw rt base offset) := fieldOp_iType _ _ _ _
theorem swr (rt base : RegNum) (offset : BitVec 16) : Statement (.swr rt base offset) := fieldOp_iType _ _ _ _
theorem lwc2 (gr : GteReg) (base : RegNum) (offset : BitVec 16) : Statement (.lwc2 gr base offset) := fieldOp_iType _ _ _ _
theorem swc2 (gr : GteReg) (base : RegNum) (offset : BitVec 16) : Statement (.swc2 gr base offset) := fieldOp_iType _ _ _ _

end Sys2Proof.Laws.Opcode
end

