-- ==== Sys2Proof/Laws/Step.lean ====
section
/-! SUPPORT. One dispatch step, said once: what begins it, what executes in it, what ends it (70_reset_and_hazards.md R501). -/

namespace Sys2Proof.Machine

/-- The start of a step: no interrupt, or the interrupt's entry. -/
theorem interruptPoint_eq_next {s t : State} (h : interruptPoint s = .next t) :
    (NoInterruptDue s ∧ t = s) ∨ (interruptPending s = true ∧ interruptDeferred s.pipe.nextInstruction = false ∧ takeInterrupt s = .next t) := by
  unfold interruptPoint at h
  split at h
  · next hc => simp at hc; exact .inr ⟨hc.1, hc.2, h⟩
  · next hc =>
    cases h
    refine .inl ⟨?_, rfl⟩
    unfold NoInterruptDue
    cases hp : interruptPending s <;> simp_all

/-- With no interrupt due, the step goes straight on. -/
theorem interruptPoint_quiet {s : State} (h : NoInterruptDue s) : interruptPoint s = .next s := by
  unfold interruptPoint
  rcases h with h | h <;> simp [h]

/-- The slots of a state after the fetch of the following word. -/
def advance (x : Slot) (s : State) : State :=
  { s with pipe := { s.pipe with nextInstruction := x, pc := s.pipe.npc, npc := s.pipe.npc + 4#32 } }

theorem prefetch_eq_next {s t : State} : prefetch s = .next t ↔ ∃ x f, fetch s.pipe.npc s = .next (x, f) ∧ t = advance x f := by
  unfold prefetch
  rw [andThen_eq_next]
  constructor
  · rintro ⟨⟨x, f⟩, hf, e⟩; cases e; exact ⟨x, f, hf, rfl⟩
  · rintro ⟨x, f, hf, rfl⟩; exact ⟨(x, f), hf, rfl⟩

theorem beginStep_eq_next {s u : State} : beginStep s = .next u ↔
    ∃ s1 x f, interruptPoint s = .next s1 ∧ fetch s1.pipe.npc (shiftSlots (charge Config.tBase s1)) = .next (x, f) ∧
      u = advance x f := by
  unfold beginStep
  rw [andThen_eq_next]
  constructor
  · rintro ⟨s1, h1, h2⟩
    obtain ⟨x, f, hf, e⟩ := prefetch_eq_next.mp h2
    exact ⟨s1, x, f, h1, hf, e⟩
  · rintro ⟨s1, x, f, h1, hf, e⟩
    exact ⟨s1, h1, prefetch_eq_next.mpr ⟨x, f, hf, e⟩⟩

/-- A step answers a next state exactly when its three parts do. -/
theorem step_eq_next {s t : State} : step s = .next t ↔
    MayStep s ∧ ∃ u e, beginStep s = .next u ∧ executeCurrent u = .next e ∧ t = updateLoadDelay e := by
  unfold step MayStep
  constructor
  · intro h
    split at h
    · cases h
    · next hr =>
      split at h
      · cases h
      · next hb =>
        simp only [endStep, andThen_eq_next] at h
        obtain ⟨e, ⟨u, hu, he⟩, ht⟩ := h
        cases ht
        exact ⟨⟨hr, by simpa using hb⟩, u, e, hu, he, rfl⟩
  · rintro ⟨⟨hr, hb⟩, u, e, hu, he, rfl⟩
    rw [hr]
    simp [hb, endStep, hu, he]

/-- What is refused or raised for a word that is no instruction (30_encoding.md R190). -/
theorem executeUnassigned_eq_next {r : Reject} {s t : State} (h : executeUnassigned r s = .next t) :
    ∃ code ce, raiseWithCe code ce s = .next t := by
  cases r with
  | shortInput | reservedPrimary | unassignedSpecial => exact ⟨_, _, h⟩
  | unassignedCop0 =>
    simp only [executeUnassigned] at h
    rcases withCop_eq_next h with ⟨_, h⟩ | ⟨_, h⟩ <;> exact ⟨_, _, h⟩
  | unassignedCop2 | absentCoprocessor =>
    simp only [executeUnassigned] at h
    rcases withCop_eq_next h with ⟨_, h⟩ | ⟨_, h⟩
    · cases h
    · exact ⟨_, _, h⟩

/-- What the current slot does when it executes. -/
theorem executeCurrent_cases {s t : State} (h : executeCurrent s = .next t) :
    (∃ code ce u, BeforeRaise s u ∧ raiseWithCe code ce u = .next t) ∨
    (∃ w i, s.pipe.currentInstruction = .word w ∧ decodeWord w = .ok i ∧ exec i s = .next t ∧ Quiet i s t) := by
  unfold executeCurrent at h
  split at h
  · next c a hc =>
    cases c with
    | ibe => exact .inl ⟨_, _, s, .refl s, h⟩
    | adel => exact .inl ⟨_, _, _, .setBadVaddr a s, h⟩
  · next w hw =>
    split at h
    · next i hi =>
      rcases exec_executed h with hr | hq
      · exact .inl hr
      · exact .inr ⟨w, i, hw, hi, h, hq⟩
    · obtain ⟨code, ce, hr⟩ := executeUnassigned_eq_next h
      exact .inl ⟨code, ce, s, .refl s, hr⟩

/-- The state in which the current slot executes, against the state after the interrupt point. -/
structure Begun (s1 u : State) : Prop where
  mem : u.bus.mem = s1.bus.mem
  answers : ∃ k, u.bus.answers = s1.bus.answers.drop k
  notRaised : u.flags.exceptionRaised = false
  timing : u.timing = { s1.timing with pendingTicks := u.timing.pendingTicks }
  ticks : s1.timing.pendingTicks + 1 ≤ u.timing.pendingTicks
  pipe : u.pipe =
    { pc := s1.pipe.npc, npc := s1.pipe.npc + 4#32, currentInstruction := s1.pipe.nextInstruction
      currentInstructionPc := s1.pipe.pc, currentInBranchDelaySlot := s1.pipe.nextInstructionIsBranchDelaySlot
      currentBranchWasTaken := s1.pipe.branchWasTaken, nextInstruction := u.pipe.nextInstruction
      nextInstructionIsBranchDelaySlot := false, branchWasTaken := false }
  tags : TagsAfterFetch s1.pipe.npc s1 u
  bypass : icacheEnable s1.cacheControl = false → u.icache = s1.icache
  aligned : ∀ w, u.pipe.nextInstruction = .word w → s1.pipe.npc.toNat % 4 = 0
  marker : ∀ c a, u.pipe.nextInstruction = .fetchFault c a → a = s1.pipe.npc
  frame : u = { s1 with pipe := u.pipe, icache := u.icache, timing := u.timing, flags := u.flags, bus := u.bus }

theorem begun {s u : State} (h : beginStep s = .next u) : ∃ s1, interruptPoint s = .next s1 ∧ Begun s1 u := by
  obtain ⟨s1, x, f, h1, hf, rfl⟩ := beginStep_eq_next.mp h
  have d := fetch_done hf
  have fr := d.fetched.frame
  refine ⟨s1, h1, ?_⟩
  have hp : f.pipe = (shiftSlots (charge Config.tBase s1)).pipe := by rw [fr]
  have htk := d.fetched.ticks
  simp [Config.tBase] at htk
  refine ⟨?_, ?_, ?_, ?_, ?_, ?_, ?_, ?_, ?_, ?_, ?_⟩
  · simpa [advance] using d.fetched.mem
  · simpa [advance] using d.fetched.answers
  · simpa [advance] using d.fetched.raised
  · simpa [advance] using d.fetched.timing
  · simpa [advance] using htk
  · simp [advance, hp]
  · simpa [advance, TagsAfterFetch] using d.tags
  · simpa [advance] using d.bypass
  · simpa [advance] using d.aligned
  · simpa [advance] using d.marker
  · simp only [advance]; rw [fr]; ext1 <;> simp

end Sys2Proof.Machine
end

