-- ==== Sys2Proof/Tests/Slice0.lean ====
section
/-! SUPPORT. Tests. Expected values come from the spec: 95_test_vectors.md (a vector's number stands in the comment of its
test) or, for the decoder, the encodings of 30_encoding.md R171 to R181. The last part shows, for each obligation with
hypotheses, states and operands that meet them. -/

namespace Sys2Proof.Machine.Tests

set_option Elab.async false

/-! ### Small states and what is read from an outcome -/

/-- Kernel mode, interrupts off, BEV = 0, and these registers. -/
def regs (l : List (RegNum × Word)) : State :=
  l.foldl (fun s p => setReg p.1 p.2 s) { State.reset with cop0 := { State.reset.cop0 with sr := 0#32 } }

/-- The bytes 11 22 33 44 55 66 77 88 at physical 0x100, as in section 2.4 of the vectors. -/
def ramBytes : Memory :=
  [(0x100, 0x11#8), (0x101, 0x22#8), (0x102, 0x33#8), (0x103, 0x44#8), (0x104, 0x55#8), (0x105, 0x66#8), (0x106, 0x77#8),
    (0x107, 0x88#8)]

/-- A state with bus memory `m`. -/
def withRam (m : Memory) (s : State) : State := { s with bus := { s.bus with mem := m } }
/-- A state with this SR. -/
def withSr (v : Word) (s : State) : State := { s with cop0 := { s.cop0 with sr := v } }
/-- A state with this CAUSE. -/
def withCause (v : Word) (s : State) : State := { s with cop0 := { s.cop0 with cause := v } }
/-- A state with this cache-control register. -/
def withCacheControl (v : Word) (s : State) : State := { s with cacheControl := v }
/-- A state whose bus gives these answers. -/
def withAnswers (l : List BusAnswer) (s : State) : State := { s with bus := { s.bus with answers := l } }
/-- A state with a pending load. -/
def withPending (r : RegNum) (v : Word) (s : State) : State := { s with delay := { s.delay with reg := some r, value := v } }
/-- A state started at an address with this word in the next slot. -/
def startedAt (a w : Word) (s : State) : State :=
  { s with pipe := { s.pipe with pc := a, npc := a + 4#32, currentInstructionPc := a, nextInstruction := .word w } }
/-- A state in which this slot is executing. -/
def executing (x : Slot) (s : State) : State := { s with pipe := { s.pipe with currentInstruction := x } }

/-- The outcome is a next state with the property. -/
def nextIs (r : Res) (p : State → Bool) : Bool :=
  match r with
  | .next t => p t
  | _ => false

theorem nextIs_elim {r : Res} {p : State → Bool} (h : nextIs r p = true) : ∃ t, r = .next t ∧ p t = true := by
  cases r with
  | next t => exact ⟨t, rfl, h⟩
  | fault f => cases h
  | refused f => cases h

/-- The register after the outcome. -/
def regAfter (r : Res) (i : RegNum) : Option Word :=
  match r with
  | .next t => some (readReg i t)
  | _ => none
/-- HI and LO after the outcome. -/
def hiLoAfter (r : Res) : Option (Word × Word) :=
  match r with
  | .next t => some (t.hi, t.lo)
  | _ => none
/-- The staged load after the outcome. -/
def stagedAfter (r : Res) : Option (Option RegNum × Word) :=
  match r with
  | .next t => some (t.delay.nextReg, t.delay.nextValue)
  | _ => none
/-- ExcCode and BadVaddr after the outcome, if it entered an exception. -/
def raisedAfter (r : Res) : Option (Nat × Word) :=
  match r with
  | .next t => if t.flags.exceptionRaised then some ((t.cop0.cause.extractLsb' 2 5).toNat, t.cop0.badVaddr) else none
  | _ => none
/-- `npc`, `branch_was_taken` and r31 after the outcome. -/
def branchAfter (r : Res) : Option (Word × Bool × Word) :=
  match r with
  | .next t => some (t.pipe.npc, t.pipe.branchWasTaken, readReg 31#5 t)
  | _ => none
/-- Bus memory after the outcome. -/
def memAfter (r : Res) : Option Memory :=
  match r with
  | .next t => some t.bus.mem
  | _ => none

/-! ### Well-formedness: each check refuses an ill-formed term -/

theorem test_ill_formed_mfc2 : (Instr.mfc2 1#5 32#6).wellFormed = false := by decide
theorem test_ill_formed_mtc2 : (Instr.mtc2 1#5 63#6).wellFormed = false := by decide
theorem test_ill_formed_cfc2 : (Instr.cfc2 1#5 31#6).wellFormed = false := by decide
theorem test_ill_formed_ctc2 : (Instr.ctc2 1#5 0#6).wellFormed = false := by decide
theorem test_ill_formed_lwc2 : (Instr.lwc2 32#6 4#5 0#16).wellFormed = false := by decide
theorem test_ill_formed_swc2 : (Instr.swc2 32#6 4#5 0#16).wellFormed = false := by decide
theorem test_well_formed_boundary : (Instr.mfc2 1#5 31#6).wellFormed = true ∧ (Instr.cfc2 1#5 32#6).wellFormed = true := by decide

/-! ### Decoding: every constructor, by a word written out from its encoding -/

theorem test_decode_shifts :
    decodeWord 0b000000_00000_00001_00010_00100_000000#32 = .ok (.sll 2#5 1#5 4#5) ∧
    decodeWord 0b000000_00000_00001_00010_11111_000010#32 = .ok (.srl 2#5 1#5 31#5) ∧
    decodeWord 0b000000_00000_00001_00010_11111_000011#32 = .ok (.sra 2#5 1#5 31#5) ∧
    decodeWord 0b000000_00011_00001_00010_00000_000100#32 = .ok (.sllv 2#5 1#5 3#5) ∧
    decodeWord 0b000000_00011_00001_00010_00000_000110#32 = .ok (.srlv 2#5 1#5 3#5) ∧
    decodeWord 0b000000_00011_00001_00010_00000_000111#32 = .ok (.srav 2#5 1#5 3#5) := ⟨rfl, rfl, rfl, rfl, rfl, rfl⟩

theorem test_decode_register_jumps_and_traps :
    decodeWord 0b000000_11111_00000_00000_00000_001000#32 = .ok (.jr 31#5) ∧
    decodeWord 0b000000_00100_00000_11111_00000_001001#32 = .ok (.jalr 31#5 4#5) ∧
    decodeWord 0b000000_10000000000000000001_001100#32 = .ok (.syscall 0x80001#20) ∧
    decodeWord 0b000000_00000000000000000111_001101#32 = .ok (.breakTrap 7#20) := ⟨rfl, rfl, rfl, rfl⟩

theorem test_decode_multiply_divide :
    decodeWord 0b000000_00000_00000_00010_00000_010000#32 = .ok (.mfhi 2#5) ∧
    decodeWord 0b000000_00011_00000_00000_00000_010001#32 = .ok (.mthi 3#5) ∧
    decodeWord 0b000000_00000_00000_00010_00000_010010#32 = .ok (.mflo 2#5) ∧
    decodeWord 0b000000_00011_00000_00000_00000_010011#32 = .ok (.mtlo 3#5) ∧
    decodeWord 0b000000_00001_00010_00000_00000_011000#32 = .ok (.mult 1#5 2#5) ∧
    decodeWord 0b000000_00001_00010_00000_00000_011001#32 = .ok (.multu 1#5 2#5) ∧
    decodeWord 0b000000_00001_00010_00000_00000_011010#32 = .ok (.div 1#5 2#5) ∧
    decodeWord 0b000000_00001_00010_00000_00000_011011#32 = .ok (.divu 1#5 2#5) := ⟨rfl, rfl, rfl, rfl, rfl, rfl, rfl, rfl⟩

theorem test_decode_register_arithmetic :
    decodeWord 0b000000_00001_00010_00011_00000_100000#32 = .ok (.add 3#5 1#5 2#5) ∧
    decodeWord 0b000000_00001_00010_00011_00000_100001#32 = .ok (.addu 3#5 1#5 2#5) ∧
    decodeWord 0b000000_00001_00010_00011_00000_100010#32 = .ok (.sub 3#5 1#5 2#5) ∧
    decodeWord 0b000000_00001_00010_00011_00000_100011#32 = .ok (.subu 3#5 1#5 2#5) ∧
    decodeWord 0b000000_00001_00010_00011_00000_100100#32 = .ok (.and 3#5 1#5 2#5) ∧
    decodeWord 0b000000_00001_00010_00011_00000_100101#32 = .ok (.or 3#5 1#5 2#5) ∧
    decodeWord 0b000000_00001_00010_00011_00000_100110#32 = .ok (.xor 3#5 1#5 2#5) ∧
    decodeWord 0b000000_00001_00010_00011_00000_100111#32 = .ok (.nor 3#5 1#5 2#5) ∧
    decodeWord 0b000000_00001_00010_00011_00000_101010#32 = .ok (.slt 3#5 1#5 2#5) ∧
    decodeWord 0b000000_00001_00010_00011_00000_101011#32 = .ok (.sltu 3#5 1#5 2#5) :=
  ⟨rfl, rfl, rfl, rfl, rfl, rfl, rfl, rfl, rfl, rfl⟩

theorem test_decode_branches :
    decodeWord 0b000001_00011_00000_1111111111111110#32 = .ok (.bltz 3#5 0xFFFE#16) ∧
    decodeWord 0b000001_00011_00001_0000000000000001#32 = .ok (.bgez 3#5 1#16) ∧
    decodeWord 0b000001_00011_10000_0000000000000001#32 = .ok (.bltzal 3#5 1#16) ∧
    decodeWord 0b000001_00000_10001_0000000000000100#32 = .ok (.bgezal 0#5 4#16) ∧
    decodeWord 0b000010_00000000000000100000000000#32 = .ok (.j 0x800#26) ∧
    decodeWord 0b000011_10000000000000000000000001#32 = .ok (.jal 0x2000001#26) ∧
    decodeWord 0b000100_00001_00010_0000000000000011#32 = .ok (.beq 1#5 2#5 3#16) ∧
    decodeWord 0b000101_00001_00010_0000000000000011#32 = .ok (.bne 1#5 2#5 3#16) ∧
    decodeWord 0b000110_00011_00000_0000000000000001#32 = .ok (.blez 3#5 1#16) ∧
    decodeWord 0b000111_00011_00000_0000000000000001#32 = .ok (.bgtz 3#5 1#16) :=
  ⟨rfl, rfl, rfl, rfl, rfl, rfl, rfl, rfl, rfl, rfl⟩

theorem test_decode_immediate_arithmetic :
    decodeWord 0b001000_00001_00010_1111111111111111#32 = .ok (.addi 2#5 1#5 0xFFFF#16) ∧
    decodeWord 0b001001_00000_01000_1111111111111111#32 = .ok (.addiu 8#5 0#5 0xFFFF#16) ∧
    decodeWord 0b001010_00001_00010_1000000000000000#32 = .ok (.slti 2#5 1#5 0x8000#16) ∧
    decodeWord 0b001011_00001_00010_1000000000000000#32 = .ok (.sltiu 2#5 1#5 0x8000#16) ∧
    decodeWord 0b001100_00001_00010_1111111100000000#32 = .ok (.andi 2#5 1#5 0xFF00#16) ∧
    decodeWord 0b001101_00001_00010_1000000000000001#32 = .ok (.ori 2#5 1#5 0x8001#16) ∧
    decodeWord 0b001110_00001_00010_0000000011111111#32 = .ok (.xori 2#5 1#5 0x00FF#16) ∧
    decodeWord 0b001111_00000_00010_1000000000000001#32 = .ok (.lui 2#5 0x8001#16) := ⟨rfl, rfl, rfl, rfl, rfl, rfl, rfl, rfl⟩

theorem test_decode_coprocessors :
    decodeWord 0b010000_00000_01000_01100_00000_000000#32 = .ok (.mfc0 8#5 12#5) ∧
    decodeWord 0b010000_00100_01000_01100_00000_000000#32 = .ok (.mtc0 8#5 12#5) ∧
    decodeWord 0b010000_1_0000000000000000000_010000#32 = .ok .rfe ∧
    decodeWord 0b010010_00000_00010_00111_00000_000000#32 = .ok (.mfc2 2#5 7#6) ∧
    decodeWord 0b010010_00010_00010_11111_00000_000000#32 = .ok (.cfc2 2#5 63#6) ∧
    decodeWord 0b010010_00100_00010_00111_00000_000000#32 = .ok (.mtc2 2#5 7#6) ∧
    decodeWord 0b010010_00110_00010_00000_00000_000000#32 = .ok (.ctc2 2#5 32#6) ∧
    decodeWord 0b010010_1_1000000000000000000000001#32 = .ok (.cop2 0x1000001#25) := ⟨rfl, rfl, rfl, rfl, rfl, rfl, rfl, rfl⟩

theorem test_decode_loads_and_stores :
    decodeWord 0b100000_00100_00010_0000000000000001#32 = .ok (.lb 2#5 4#5 1#16) ∧
    decodeWord 0b100001_00100_00010_0000000000000010#32 = .ok (.lh 2#5 4#5 2#16) ∧
    decodeWord 0b100010_00100_00010_0000000000000011#32 = .ok (.lwl 2#5 4#5 3#16) ∧
    decodeWord 0b100011_00100_00010_0000000000000100#32 = .ok (.lw 2#5 4#5 4#16) ∧
    decodeWord 0b100100_00100_00010_1111111111111111#32 = .ok (.lbu 2#5 4#5 0xFFFF#16) ∧
    decodeWord 0b100101_00100_00010_1111111111111110#32 = .ok (.lhu 2#5 4#5 0xFFFE#16) ∧
    decodeWord 0b100110_00100_00010_0000000000000001#32 = .ok (.lwr 2#5 4#5 1#16) ∧
    decodeWord 0b101000_00100_00010_0000000000000011#32 = .ok (.sb 2#5 4#5 3#16) ∧
    decodeWord 0b101001_00100_00010_0000000000000010#32 = .ok (.sh 2#5 4#5 2#16) ∧
    decodeWord 0b101010_00100_00010_0000000000000101#32 = .ok (.swl 2#5 4#5 5#16) ∧
    decodeWord 0b101011_01000_01001_0000000100110000#32 = .ok (.sw 9#5 8#5 0x130#16) ∧
    decodeWord 0b101110_00100_00010_0000000000000001#32 = .ok (.swr 2#5 4#5 1#16) ∧
    decodeWord 0b110010_00100_00001_0000000000000000#32 = .ok (.lwc2 1#6 4#5 0#16) ∧
    decodeWord 0b111010_00100_11111_0000000000000100#32 = .ok (.swc2 31#6 4#5 4#16) :=
  ⟨rfl, rfl, rfl, rfl, rfl, rfl, rfl, rfl, rfl, rfl, rfl, rfl, rfl, rfl⟩

/-- The vectors' words with bits the decoder ignores, and B14: a REGIMM word with rt = 5. -/
theorem test_decode_ignored_bits :
    decodeWord 0x04050001#32 = .ok (.bgez 0#5 1#16) ∧ decodeWord 0x0080F809#32 = .ok (.jalr 31#5 4#5) ∧
    decodeWord 0x00FFF808#32 = .ok (.jr 7#5) := ⟨rfl, rfl, rfl⟩

theorem test_decode_rejects :
    decodeWord 0xFC000000#32 = .error .reservedPrimary ∧ decodeWord 0x00000001#32 = .error .unassignedSpecial ∧
    decodeWord 0x42000001#32 = .error .unassignedCop0 ∧ decodeWord 0x48200000#32 = .error .unassignedCop2 ∧
    decodeWord 0x44000000#32 = .error (.absentCoprocessor 1#2) ∧ decodeWord 0xC0000000#32 = .error (.absentCoprocessor 0#2) :=
  ⟨rfl, rfl, rfl, rfl, rfl, rfl⟩

theorem test_decode_short_input : decode [0x00#8, 0x00#8, 0x00#8] = .error .shortInput := rfl

/-! ### Arithmetic, logic, shifts (vectors A1 to A38) -/

/-- A1. -/
theorem test_add : regAfter (exec (.add 3#5 1#5 2#5) (regs [(1#5, 5#32), (2#5, 0xFFFFFFFD#32)])) 3#5 = some 2#32 := by decide +kernel
/-- A4: a trap even with rd = 0. -/
theorem test_add_overflow :
    raisedAfter (exec (.add 0#5 1#5 2#5) (regs [(1#5, 0x7FFFFFFF#32), (2#5, 1#32)])) = some (12, 0#32) := by decide +kernel
/-- A7. -/
theorem test_addu : regAfter (exec (.addu 3#5 1#5 2#5) (regs [(1#5, 0xFFFFFFFF#32), (2#5, 1#32)])) 3#5 = some 0#32 := by decide +kernel
/-- A10. -/
theorem test_sub : regAfter (exec (.sub 3#5 1#5 2#5) (regs [(1#5, 3#32), (2#5, 5#32)])) 3#5 = some 0xFFFFFFFE#32 := by decide +kernel
/-- A9. -/
theorem test_sub_overflow :
    raisedAfter (exec (.sub 3#5 1#5 2#5) (regs [(1#5, 0#32), (2#5, 0x80000000#32)])) = some (12, 0#32) := by decide +kernel
/-- A11. -/
theorem test_subu : regAfter (exec (.subu 3#5 1#5 2#5) (regs [(2#5, 1#32)])) 3#5 = some 0xFFFFFFFF#32 := by decide +kernel

/-- The registers of A12. -/
def logicRegs : State := regs [(1#5, 0xFF00FF00#32), (2#5, 0x0FF00FF0#32)]

theorem test_and : regAfter (exec (.and 3#5 1#5 2#5) logicRegs) 3#5 = some 0x0F000F00#32 := by decide +kernel
theorem test_or : regAfter (exec (.or 3#5 1#5 2#5) logicRegs) 3#5 = some 0xFFF0FFF0#32 := by decide +kernel
theorem test_xor : regAfter (exec (.xor 3#5 1#5 2#5) logicRegs) 3#5 = some 0xF0F0F0F0#32 := by decide +kernel
theorem test_nor : regAfter (exec (.nor 3#5 1#5 2#5) logicRegs) 3#5 = some 0x000F000F#32 := by decide +kernel
/-- A14. -/
theorem test_slt : regAfter (exec (.slt 3#5 1#5 2#5) (regs [(1#5, 0x80000000#32), (2#5, 0x7FFFFFFF#32)])) 3#5 = some 1#32 := by decide +kernel
/-- A15. -/
theorem test_sltu : regAfter (exec (.sltu 3#5 1#5 2#5) (regs [(1#5, 0x80000000#32), (2#5, 0x7FFFFFFF#32)])) 3#5 = some 0#32 := by decide +kernel
/-- A17. -/
theorem test_addi : regAfter (exec (.addi 2#5 1#5 0xFFFF#16) (regs [(1#5, 10#32)])) 2#5 = some 9#32 := by decide +kernel
/-- A18. -/
theorem test_addi_overflow : raisedAfter (exec (.addi 2#5 1#5 1#16) (regs [(1#5, 0x7FFFFFFF#32)])) = some (12, 0#32) := by decide +kernel
/-- A20. -/
theorem test_addiu : regAfter (exec (.addiu 2#5 1#5 1#16) (regs [(1#5, 0x7FFFFFFF#32)])) 2#5 = some 0x80000000#32 := by decide +kernel
/-- A21. -/
theorem test_slti : regAfter (exec (.slti 2#5 1#5 0xFFFF#16) (regs [(1#5, 0xFFFFFFFE#32)])) 2#5 = some 1#32 := by decide +kernel
/-- A24: compared with FFFF8000. -/
theorem test_sltiu : regAfter (exec (.sltiu 2#5 1#5 0x8000#16) (regs [(1#5, 5#32)])) 2#5 = some 1#32 := by decide +kernel
/-- A25. -/
theorem test_andi : regAfter (exec (.andi 2#5 1#5 0xFF00#16) (regs [(1#5, 0x12345678#32)])) 2#5 = some 0x5600#32 := by decide +kernel
/-- A26: zero-extended. -/
theorem test_ori : regAfter (exec (.ori 2#5 1#5 0x8001#16) (regs [(1#5, 0x12340000#32)])) 2#5 = some 0x12348001#32 := by decide +kernel
/-- A27. -/
theorem test_xori : regAfter (exec (.xori 2#5 1#5 0x00FF#16) (regs [(1#5, 0xFFFFFFFF#32)])) 2#5 = some 0xFFFFFF00#32 := by decide +kernel
/-- A28. -/
theorem test_lui : regAfter (exec (.lui 2#5 0x8001#16) (regs [])) 2#5 = some 0x80010000#32 := by decide +kernel
/-- A29. -/
theorem test_sll : regAfter (exec (.sll 2#5 1#5 4#5) (regs [(1#5, 3#32)])) 2#5 = some 0x30#32 := by decide +kernel
/-- A31. -/
theorem test_srl : regAfter (exec (.srl 2#5 1#5 31#5) (regs [(1#5, 0x80000000#32)])) 2#5 = some 1#32 := by decide +kernel
/-- A32. -/
theorem test_sra : regAfter (exec (.sra 2#5 1#5 31#5) (regs [(1#5, 0x80000000#32)])) 2#5 = some 0xFFFFFFFF#32 := by decide +kernel
/-- A34: the amount is taken modulo 32. -/
theorem test_sllv : regAfter (exec (.sllv 2#5 1#5 3#5) (regs [(1#5, 1#32), (3#5, 0x21#32)])) 2#5 = some 2#32 := by decide +kernel
/-- A38: the amount is read before the write. -/
theorem test_sllv_same : regAfter (exec (.sllv 3#5 3#5 3#5) (regs [(3#5, 2#32)])) 3#5 = some 8#32 := by decide +kernel
/-- A35. -/
theorem test_srlv : regAfter (exec (.srlv 2#5 1#5 3#5) (regs [(1#5, 0x80000000#32), (3#5, 4#32)])) 2#5 = some 0x08000000#32 := by decide +kernel
/-- A36. -/
theorem test_srav : regAfter (exec (.srav 2#5 1#5 3#5) (regs [(1#5, 0x80000000#32), (3#5, 4#32)])) 2#5 = some 0xF8000000#32 := by decide +kernel

/-! ### Multiply and divide (vectors M1 to M14) -/

/-- M1. -/
theorem test_mult : hiLoAfter (exec (.mult 1#5 2#5) (regs [(1#5, 0xFFFFFFFE#32), (2#5, 3#32)])) = some (0xFFFFFFFF#32, 0xFFFFFFFA#32) := by
  decide +kernel
/-- M4. -/
theorem test_multu :
    hiLoAfter (exec (.multu 1#5 2#5) (regs [(1#5, 0xFFFFFFFF#32), (2#5, 0xFFFFFFFF#32)])) = some (0xFFFFFFFE#32, 1#32) := by
  decide +kernel
/-- M6. -/
theorem test_div : hiLoAfter (exec (.div 1#5 2#5) (regs [(1#5, 0xFFFFFFF9#32), (2#5, 2#32)])) = some (0xFFFFFFFF#32, 0xFFFFFFFD#32) := by
  decide +kernel
/-- M7, M8, M10: the corner cases. -/
theorem test_div_corners :
    hiLoAfter (exec (.div 1#5 2#5) (regs [(1#5, 7#32)])) = some (7#32, 0xFFFFFFFF#32) ∧
    hiLoAfter (exec (.div 1#5 2#5) (regs [(1#5, 0xFFFFFFF9#32)])) = some (0xFFFFFFF9#32, 1#32) ∧
    hiLoAfter (exec (.div 1#5 2#5) (regs [(1#5, 0x80000000#32), (2#5, 0xFFFFFFFF#32)])) = some (0#32, 0x80000000#32) := by
  decide +kernel
/-- M11. -/
theorem test_divu : hiLoAfter (exec (.divu 1#5 2#5) (regs [(1#5, 0xFFFFFFF9#32), (2#5, 2#32)])) = some (1#32, 0x7FFFFFFC#32) := by
  decide +kernel
/-- M12. -/
theorem test_divu_by_zero : hiLoAfter (exec (.divu 1#5 2#5) (regs [(1#5, 0x12345678#32)])) = some (0x12345678#32, 0xFFFFFFFF#32) := by
  decide +kernel

/-- HI = 0x1234, LO = 0x5678. -/
def hiLoState : State := { regs [(1#5, 0x99#32)] with hi := 0x1234#32, lo := 0x5678#32 }

theorem test_mfhi : regAfter (exec (.mfhi 2#5) hiLoState) 2#5 = some 0x1234#32 := by decide +kernel
theorem test_mflo : regAfter (exec (.mflo 2#5) hiLoState) 2#5 = some 0x5678#32 := by decide +kernel
/-- M14: LO unchanged. -/
theorem test_mthi : hiLoAfter (exec (.mthi 1#5) hiLoState) = some (0x99#32, 0x5678#32) := by decide +kernel
theorem test_mtlo : hiLoAfter (exec (.mtlo 1#5) hiLoState) = some (0x1234#32, 0x99#32) := by decide +kernel

/-! ### Branches and jumps (vectors B1 to B13), one whole step each -/

/-- B1. -/
theorem test_j : branchAfter (step (startedAt 0x80001000#32 0x08000800#32 (regs []))) = some (0x80002000#32, true, 0#32) := by decide +kernel
/-- B2: the region is the delay slot's. -/
theorem test_j_region : branchAfter (step (startedAt 0x8FFFFFFC#32 0x08000000#32 (regs []))) = some (0x90000000#32, true, 0#32) := by
  decide +kernel
/-- B3. -/
theorem test_jal : branchAfter (step (startedAt 0x80001000#32 0x0C000800#32 (regs []))) = some (0x80002000#32, true, 0x80001008#32) := by
  decide +kernel
/-- B4. -/
theorem test_jr :
    branchAfter (step (startedAt 0x80002000#32 0x03E00008#32 (regs [(31#5, 0x80001008#32)]))) =
      some (0x80001008#32, true, 0x80001008#32) := by decide +kernel
/-- B5. -/
theorem test_jalr :
    branchAfter (step (startedAt 0x80002000#32 0x0080F809#32 (regs [(4#5, 0x80003000#32)]))) =
      some (0x80003000#32, true, 0x80002008#32) := by decide +kernel
/-- B6: the target is read before the link is written. -/
theorem test_jalr_same :
    nextIs (step (startedAt 0x80002000#32 0b000000_00100_00000_00100_00000_001001#32 (regs [(4#5, 0x80003000#32)]))) (fun t =>
      t.pipe.npc == 0x80003000#32 && readReg 4#5 t == 0x80002008#32) = true := by decide +kernel
/-- B7. -/
theorem test_beq_taken :
    branchAfter (step (startedAt 0x80000100#32 0x10220003#32 (regs [(1#5, 5#32), (2#5, 5#32)]))) =
      some (0x80000110#32, true, 0#32) := by decide +kernel
/-- B8: the next instruction is a delay slot all the same. -/
theorem test_beq_not_taken :
    nextIs (step (startedAt 0x80000100#32 0x10220003#32 (regs [(1#5, 5#32), (2#5, 6#32)]))) (fun t =>
      t.pipe.npc == 0x80000108#32 && t.pipe.nextInstructionIsBranchDelaySlot && !t.pipe.branchWasTaken) = true := by decide +kernel
/-- B9: a negative offset. -/
theorem test_bne :
    branchAfter (step (startedAt 0x80000100#32 0x1422FFFE#32 (regs [(1#5, 5#32), (2#5, 6#32)]))) =
      some (0x800000FC#32, true, 0#32) := by decide +kernel
/-- B10, first half: taken for a negative value. -/
theorem test_blez :
    branchAfter (step (startedAt 0x80000200#32 0b000110_00011_00000_0000000000000001#32 (regs [(3#5, 0x80000000#32)]))) =
      some (0x80000208#32, true, 0#32) := by decide +kernel
/-- B10, second half: not taken for a negative value. -/
theorem test_bgtz :
    branchAfter (step (startedAt 0x80000200#32 0b000111_00011_00000_0000000000000001#32 (regs [(3#5, 0x80000000#32)]))) =
      some (0x80000208#32, false, 0#32) := by decide +kernel
/-- R280: taken below 0 only. -/
theorem test_bltz :
    branchAfter (step (startedAt 0x80000200#32 0b000001_00011_00000_0000000000000010#32 (regs [(3#5, 0#32)]))) =
      some (0x80000208#32, false, 0#32) := by decide +kernel
/-- B14: a REGIMM word with rt = 5 acts as BGEZ, and does not link. -/
theorem test_bgez : branchAfter (step (startedAt 0x80000400#32 0x04050001#32 (regs []))) = some (0x80000408#32, true, 0#32) := by
  decide +kernel
/-- B11: not taken, and it links. -/
theorem test_bltzal_not_taken :
    branchAfter (step (startedAt 0x80000300#32 0x04700001#32 (regs [(3#5, 1#32)]))) = some (0x80000308#32, false, 0x80000308#32) := by
  decide +kernel
/-- B13: the old r31 is tested. -/
theorem test_bltzal_link_register :
    branchAfter (step (startedAt 0x80000300#32 0b000001_11111_10000_0000000000000001#32 (regs [(31#5, 0xFFFFFFFF#32)]))) =
      some (0x80000308#32, true, 0x80000308#32) := by decide +kernel
/-- B12. -/
theorem test_bgezal :
    branchAfter (step (startedAt 0x80000300#32 0x04110004#32 (regs []))) = some (0x80000314#32, true, 0x80000308#32) := by
  decide +kernel

/-! ### Loads and stores (vectors L1 to L25) -/

/-- r4 = 80000100 and RAM as in section 2.4 of the vectors. -/
def loads (l : List (RegNum × Word)) : State := withRam ramBytes (regs ((4#5, 0x80000100#32) :: l))

/-- L2. -/
theorem test_lw : stagedAfter (exec (.lw 2#5 4#5 4#16) (loads [])) = some (some 2#5, 0x88776655#32) := by decide +kernel
/-- L8. -/
theorem test_lw_misaligned : raisedAfter (exec (.lw 2#5 4#5 2#16) (loads [])) = some (4, 0x80000102#32) := by decide +kernel
/-- L3, with the byte 88 at 0x107. -/
theorem test_lb : stagedAfter (exec (.lb 2#5 4#5 7#16) (loads [])) = some (some 2#5, 0xFFFFFF88#32) := by decide +kernel
/-- L4, with the byte 88 at 0x107. -/
theorem test_lbu : stagedAfter (exec (.lbu 2#5 4#5 7#16) (loads [])) = some (some 2#5, 0x00000088#32) := by decide +kernel
/-- L5, with the bytes 77 88 at 0x106. -/
theorem test_lh : stagedAfter (exec (.lh 2#5 4#5 6#16) (loads [])) = some (some 2#5, 0xFFFF8877#32) := by decide +kernel
/-- L6, with the bytes 77 88 at 0x106. -/
theorem test_lhu : stagedAfter (exec (.lhu 2#5 4#5 6#16) (loads [])) = some (some 2#5, 0x00008877#32) := by decide +kernel
/-- L10. -/
theorem test_lwl : stagedAfter (exec (.lwl 9#5 4#5 4#16) (loads [(9#5, 0x11443322#32)])) = some (some 9#5, 0x55443322#32) := by
  decide +kernel
/-- H4: the merge is into the pending value. -/
theorem test_lwl_pending :
    stagedAfter (exec (.lwl 9#5 4#5 5#16) (withPending 9#5 0x44332211#32 (loads []))) = some (some 9#5, 0x66552211#32) := by
  decide +kernel
/-- L9. -/
theorem test_lwr : stagedAfter (exec (.lwr 9#5 4#5 1#16) (loads [])) = some (some 9#5, 0x00443322#32) := by decide +kernel
/-- L11, byte 3. -/
theorem test_lwr_top : stagedAfter (exec (.lwr 9#5 4#5 3#16) (loads [(9#5, 0xAABBCCDD#32)])) = some (some 9#5, 0xAABBCC44#32) := by
  decide +kernel
/-- L12. -/
theorem test_sb :
    memAfter (exec (.sb 2#5 4#5 3#16) (withRam [] (loads [(2#5, 0x12345678#32)]))) = some [(0x103, 0x78#8)] := by decide +kernel
/-- L13. -/
theorem test_sh :
    memAfter (exec (.sh 2#5 4#5 2#16) (withRam [] (loads [(2#5, 0x12345678#32)]))) = some [(0x102, 0x78#8), (0x103, 0x56#8)] := by
  decide +kernel
/-- L14. -/
theorem test_sh_misaligned : raisedAfter (exec (.sh 2#5 4#5 1#16) (loads [])) = some (5, 0x80000101#32) := by decide +kernel
/-- L15. -/
theorem test_sw :
    memAfter (exec (.sw 2#5 4#5 0#16) (withRam [] (loads [(2#5, 0x12345678#32)]))) =
      some [(0x100, 0x78#8), (0x101, 0x56#8), (0x102, 0x34#8), (0x103, 0x12#8)] := by decide +kernel
/-- A store of the value an unlisted address reads as removes the entries. -/
theorem test_sw_zero : memAfter (exec (.sw 0#5 4#5 4#16) (withRam [(0x104, 0x55#8), (0x108, 1#8)] (loads []))) = some [(0x108, 1#8)] := by
  decide +kernel
/-- L16. -/
theorem test_swl :
    memAfter (exec (.swl 2#5 4#5 5#16) (withRam [] (loads [(2#5, 0x12345678#32)]))) = some [(0x104, 0x34#8), (0x105, 0x12#8)] := by
  decide +kernel
/-- L17. -/
theorem test_swr :
    memAfter (exec (.swr 2#5 4#5 1#16) (withRam [] (loads [(2#5, 0x12345678#32)]))) =
      some [(0x101, 0x78#8), (0x102, 0x56#8), (0x103, 0x34#8)] := by decide +kernel
/-- L20: a store or load to an unmapped address. -/
theorem test_unmapped : raisedAfter (exec (.lw 2#5 4#5 0#16) (regs [(4#5, 0x20000000#32)])) = some (7, 0#32) := by decide +kernel

/-! ### Traps, COP0, COP2 (vectors C1 to C22) -/

/-- C1 (`current_instruction_pc`, EPC and CAUSE). -/
theorem test_syscall :
    nextIs (step (startedAt 0x80001000#32 0x0000000C#32 (regs []))) (fun t =>
      t.cop0.epc == 0x80001000#32 && t.cop0.cause == 0x20#32 && t.pipe.currentInstructionPc == 0x80000080#32) = true := by decide +kernel
/-- C2. -/
theorem test_break :
    nextIs (step (startedAt 0x80001000#32 0x0000000D#32 (regs []))) (fun t =>
      t.cop0.epc == 0x80001000#32 && t.cop0.cause == 0x24#32) = true := by decide +kernel
/-- C8. -/
theorem test_mfc0 : stagedAfter (exec (.mfc0 2#5 15#5) (regs [])) = some (some 2#5, 2#32) := by decide +kernel
/-- C9. -/
theorem test_mfc0_reserved : raisedAfter (exec (.mfc0 2#5 16#5) (regs [])) = some (10, 0#32) := by decide +kernel
/-- C4. -/
theorem test_mtc0_sr :
    nextIs (exec (.mtc0 8#5 12#5) (regs [(8#5, 0xFFFFFFFF#32)])) (fun t => t.cop0.sr == 0xF27FFF3F#32) = true := by decide +kernel
/-- C5. -/
theorem test_mtc0_cause :
    nextIs (exec (.mtc0 8#5 13#5) (regs [(8#5, 0xFFFFFFFF#32)])) (fun t => t.cop0.cause == 0x300#32) = true := by decide +kernel
/-- C12. -/
theorem test_rfe : nextIs (exec .rfe (withSr 0b101101#32 (regs []))) (fun t => t.cop0.sr == 0b101011#32) = true := by decide +kernel
/-- C10, by a whole step: CpU with CE = 0. -/
theorem test_mfc0_user :
    nextIs (step (startedAt 0x00007400#32 0b010000_00000_00010_01100_00000_000000#32 (withSr 2#32 (regs [])))) (fun t =>
      t.cop0.cause == 0x2C#32 && t.cop0.epc == 0x7400#32 && t.cop0.sr == 8#32) = true := by decide +kernel
/-- C14: CpU with CE = 2. -/
theorem test_mfc2_unusable :
    nextIs (step (startedAt 0x80001000#32 0x48023800#32 (regs []))) (fun t => t.cop0.cause == 0x2000002C#32) = true := by decide +kernel

/-- CU2 = 1, kernel mode. -/
def cop2On (l : List (RegNum × Word)) : State := withSr 0x40000000#32 (loads l)

/-- C15. -/
theorem test_mfc2 : nextIs (exec (.mfc2 2#5 7#6) (cop2On [])) (fun t => t.delay.nextReg == some 2#5) = true := by decide +kernel
/-- C16: the value is register 63's. -/
theorem test_cfc2 : stagedAfter (exec (.cfc2 2#5 63#6) (cop2On [])) = some (some 2#5, Config.gteRead (Vector.replicate (2 ^ 6) 0#32) 63#6) := rfl
theorem test_mtc2 : nextIs (exec (.mtc2 2#5 7#6) (cop2On [])) (fun t => !t.flags.exceptionRaised) = true := by decide +kernel
/-- C17. -/
theorem test_ctc2 :
    exec (.ctc2 2#5 32#6) (cop2On [(2#5, 9#32)]) = .next { cop2On [(2#5, 9#32)] with gte := Config.gteWrite (Vector.replicate (2 ^ 6) 0#32) 32#6 9#32 } :=
  rfl
theorem test_cop2 : nextIs (exec (.cop2 1#25) (cop2On [])) (fun t => !t.flags.exceptionRaised) = true := by decide +kernel
/-- C20. -/
theorem test_lwc2 :
    nextIs (exec (.lwc2 0#6 4#5 0#16) (cop2On [])) (fun t => t.delay.nextReg == none && !t.flags.exceptionRaised) = true := by decide +kernel
theorem test_swc2 : nextIs (exec (.swc2 0#6 4#5 0#16) (cop2On [])) (fun t => !t.flags.exceptionRaised) = true := by decide +kernel

/-! ### Exceptions, interrupts and the host (vectors X4, X5, X6, T3, Y8, C23) -/

/-- C23: RI with CE from the word's bits 27:26. -/
theorem test_reserved_word :
    nextIs (step (startedAt 0x80007500#32 0xFC000000#32 (regs []))) (fun t =>
      t.cop0.cause == 0x30000028#32 && t.cop0.epc == 0x80007500#32) = true := by decide +kernel

/-- X5, the state before the step: the delay slot of a taken branch comes next. -/
def interruptedSlot : State :=
  let s := startedAt 0x80007104#32 0x24090001#32 (withCause 0x400#32 (withSr 0x401#32 (regs [])))
  { s with pipe := { s.pipe with npc := 0x80007200#32, nextInstructionIsBranchDelaySlot := true, branchWasTaken := true } }

/-- X5. -/
theorem test_interrupt_before_delay_slot :
    nextIs (step interruptedSlot) (fun t =>
      t.cop0.epc == 0x80007100#32 && t.cop0.cause == 0xD0000400#32 && t.cop0.tar == 0x80007200#32 && t.cop0.sr == 0x404#32 &&
      t.pipe.currentInstructionPc == 0x80000080#32) = true := by decide +kernel
/-- X6: a COP2 command puts the interrupt off. -/
theorem test_interrupt_deferred :
    nextIs (step (startedAt 0x80001000#32 0x4A000001#32 (withCause 0x400#32 (withSr 0x40000401#32 (regs []))))) (fun t =>
      t.pipe.currentInstructionPc == 0x80001000#32 && !t.flags.exceptionRaised) = true := by decide +kernel
/-- T3, T4. -/
theorem test_reset_pending_ticks :
    (resetPendingTicks { State.reset with timing := { pendingTicks := 103, downcount := 200, gteCompletionTick := 108 } }).timing =
      { pendingTicks := 0, downcount := 97, gteCompletionTick := 5 } ∧
    (resetPendingTicks { State.reset with timing := { pendingTicks := 103, downcount := 200, gteCompletionTick := 50 } }).timing =
      { pendingTicks := 0, downcount := 97, gteCompletionTick := 0 } := by decide
/-- K10: an error on word 3 of a fill from word 1. -/
theorem test_fill_error :
    (match fetch 0x80009004#32 (withAnswers [.ram, .ram, .error] (withCacheControl 0x800#32 (regs []))) with
      | .next (x, t) => some (x, t.icache.tags.read 0#8)
      | _ => none) = some (.fetchFault .ibe 0x80009004#32, 0x0000900F#32) := by decide +kernel
/-- K1, K2: the tags after a fill from word 2, then from word 0. -/
theorem test_fill_tags :
    (match fetch 0x80009008#32 (withCacheControl 0x800#32 (regs [])) with
      | .next (_, t) => some (t.icache.tags.read 0#8, (fetchClass 0x80009000#32 t))
      | _ => none) = some (0x00009003#32, some .miss) := by decide +kernel
/-- The host's question, on a word of the table: the decoder gives the row and the very next step runs it. -/
theorem test_table_word :
    decodeTableWord 32 0x24080003 = some (.addiu 8#5 0#5 3#16) ∧
    regAfter (step (State.reset.withFetchWord 32 0x24080003)) 8#5 = some 3#32 := by
  refine ⟨rfl, by decide +kernel⟩
/-- The disassembler names a word as 30_encoding.md R191 writes it. -/
theorem test_disassembly : wordText 0x80001000#32 0x00221820#32 = "add $3, $1, $2" := by decide +kernel


/-- Four breakpoints: without a callback, with one that goes on, with one that removes it, and one at another address. -/
def host (skip : Option Word) : HostState :=
  { machine := regs [], nextSequence := 4, resumeSkip := skip, exitRequested := false, tracing := false, trace := [], safeAnswers := []
    breakpoints :=
      [{ address := 0xBFC00000#32, callback := none, sequence := 0, hitCount := 0, autoClear := false, enabled := true },
        { address := 0xBFC00000#32, callback := some [true], sequence := 1, hitCount := 4, autoClear := false, enabled := true },
        { address := 0xBFC00000#32, callback := some [false], sequence := 2, hitCount := 0, autoClear := false, enabled := true },
        { address := 0x80001000#32, callback := none, sequence := 3, hitCount := 0, autoClear := true, enabled := true }] }

/-- A host at a `jal` with budget for one tick and these breakpoints. -/
def hostAtCall (l : List Breakpoint) : HostState :=
  { host none with
    machine := { startedAt 0x80001000#32 0x0C000800#32 (regs []) with timing := { pendingTicks := 0, downcount := 1, gteCompletionTick := 0 } }
    breakpoints := l }
/-- Y1: an enabled breakpoint makes `Execute` check, count and return. -/
theorem test_execute_stops :
    let r := execute 1 [] (addBreakpoint 0x80001000#32 none false (hostAtCall []))
    r.1 = .atBreakpoint ∧ r.2.resumeSkip = some 0x80001000#32 ∧ r.2.breakpoints.map (·.hitCount) = [1] := by decide +kernel
/-- Y5: step-over of a call adds the breakpoint after its delay slot and executes. -/
theorem test_step_over_call :
    let r := stepOver 1 [] (addBreakpoint 0x80001000#32 none false (hostAtCall []))
    r.1 = some .atBreakpoint ∧ r.2.breakpoints.map (fun e => (e.address, e.autoClear)) = [(0x80001000#32, false), (0x80001008#32, true)] := by
  decide +kernel
/-- Any other instruction is stepped over by one step. -/
theorem test_step_over_other :
    let r := stepOver 1 [] { hostAtCall [] with machine := startedAt 0x80001000#32 0x24080003#32 (regs []) }
    r.1 = none ∧ r.2.machine.pipe.pc = 0x80001004#32 ∧ readReg 8#5 r.2.machine = 3#32 := by decide +kernel
/-- A trace makes `Execute` check (R454); the fast dispatcher is used without breakpoint or trace. -/
theorem test_dispatcher_variant :
    checkedDispatch (startTrace (hostAtCall [])) = true ∧ checkedDispatch (hostAtCall []) = false := by decide +kernel
/-- With an exit requested the due events run before `Execute` returns (R542). -/
theorem test_exit_after_events :
    let r := execute 1 [[.setInterrupt 0]] (exitExecution (hostAtCall []))
    r.1 = .exited ∧ r.2.machine.cop0.cause = 0x100#32 ∧ r.2.machine.pipe.pc = 0x80001000#32 := by decide +kernel


/-! ### Witnesses: states and operands that meet the hypotheses of the obligations -/

theorem replies_of_nil {s : State} (h : s.bus.answers = []) : BusReplies s := by
  intro a ha
  rw [h] at ha
  cases ha

/-- r1 = 7FFFFFFF, r2 = 1, r3 = 80000000, r4 = 7FFFFFFE. -/
def edges : State := regs [(1#5, 0x7FFFFFFF#32), (2#5, 1#32), (3#5, 0x80000000#32), (4#5, 0x7FFFFFFE#32)]

theorem edges_replies : BusReplies edges := replies_of_nil rfl

/-- The sums 2^31 - 1 and -2^31 are still in range. -/
theorem witness_TrappingArithmeticResult :
    signedRange ((readReg 4#5 edges).toInt + (readReg 2#5 edges).toInt) ∧
    signedRange ((readReg 3#5 edges).toInt - (readReg 0#5 edges).toInt) ∧
    signedRange ((readReg 4#5 edges).toInt + (1#16).toInt) := by
  unfold signedRange; decide +kernel

/-- One more, or one less, is not. -/
theorem witness_TrappingArithmeticOverflow :
    BusReplies edges ∧ ¬ signedRange ((readReg 1#5 edges).toInt + (readReg 2#5 edges).toInt) ∧
    ¬ signedRange ((readReg 3#5 edges).toInt - (readReg 2#5 edges).toInt) ∧
    ¬ signedRange ((readReg 3#5 edges).toInt + (0xFFFF#16).toInt) := by
  refine ⟨edges_replies, ?_⟩
  unfold signedRange; decide +kernel

/-- A dividend and the divisors 0, -1 and 2. -/
def divisors : State := regs [(1#5, 0x80000000#32), (2#5, 0xFFFFFFFF#32), (3#5, 2#32)]

theorem witness_SignedDivision :
    (readReg 0#5 divisors).toInt = 0 ∧ ((readReg 1#5 divisors).toInt = -2 ^ 31 ∧ (readReg 2#5 divisors).toInt = -1) ∧
    ((readReg 3#5 divisors).toInt ≠ 0 ∧ ¬ ((readReg 1#5 divisors).toInt = -2 ^ 31 ∧ (readReg 3#5 divisors).toInt = -1)) := by
  decide +kernel

theorem witness_UnsignedDivision : (readReg 0#5 divisors).toNat = 0 ∧ (readReg 3#5 divisors).toNat ≠ 0 := by decide +kernel

theorem witness_LoadsStageExtendedValue :
    readableValue (effectiveAddress 4#5 7#16 (loads [])) .byte (loads []) = some 0x88#32 ∧
    readableValue (effectiveAddress 4#5 6#16 (loads [])) .half (loads []) = some 0x8877#32 ∧
    readableValue (effectiveAddress 4#5 4#16 (loads [])) .word (loads []) = some 0x88776655#32 := by decide +kernel

/-- The first and the last byte of a word. -/
theorem witness_UnalignedLoadMerge :
    readableValue (effectiveAddress 4#5 0#16 (loads []) &&& 0xFFFFFFFC#32) .word (loads []) = some 0x44332211#32 ∧
    readableValue (effectiveAddress 4#5 3#16 (loads []) &&& 0xFFFFFFFC#32) .word (loads []) = some 0x44332211#32 := by decide +kernel

/-- r5 is the scratchpad's first address, r6 the cache-control register's; the scratchpad is active. -/
def spad (l : List (RegNum × Word)) : State :=
  withCacheControl 0x88#32 (regs ((4#5, 0x80000100#32) :: (5#5, 0x1F800000#32) :: (6#5, 0xFFFE0130#32) :: l))

/-- From the bus, the scratchpad, the cache-control register and the isolated cache. -/
theorem witness_LoadCostAndBusCall :
    (dataAccess (.lw 2#5 4#5 4#16) (loads []) = some ⟨false, .word, 0x80000104#32⟩ ∧ copAllows (.lw 2#5 4#5 4#16) (loads []) ∧
      readableValue 0x80000104#32 .word (loads []) = some 0x88776655#32) ∧
    (dataAccess (.lbu 2#5 5#5 0x3FF#16) (spad []) = some ⟨false, .byte, 0x1F8003FF#32⟩ ∧
      readableValue 0x1F8003FF#32 .byte (spad []) = some 0#32) ∧
    (dataAccess (.lw 2#5 6#5 0#16) (spad []) = some ⟨false, .word, 0xFFFE0130#32⟩ ∧
      readableValue 0xFFFE0130#32 .word (spad []) = some 0x88#32) ∧
    (dataAccess (.lw 2#5 4#5 0#16) (withSr 0x10000#32 (loads [])) = some ⟨false, .word, 0x80000100#32⟩ ∧
      readableValue 0x80000100#32 .word (withSr 0x10000#32 (loads [])) = some (Config.freeWord 0)) :=
  ⟨⟨by decide +kernel, trivial, by decide +kernel⟩, by decide +kernel, by decide +kernel, by decide +kernel, rfl⟩

/-- To RAM, the word a COP2 register, and one a device takes. -/
theorem witness_StoresReachRam :
    (dataAccess (.sb 2#5 4#5 3#16) (loads []) = some ⟨true, .byte, 0x80000103#32⟩ ∧ copAllows (.sb 2#5 4#5 3#16) (loads []) ∧
      dataTarget 0x80000103#32 .byte (loads []) = .bus 0x103#32 ∧ nextAnswer (loads []) = .ram ∧ (loads []).bus.mem.wf = true) ∧
    (dataAccess (.swc2 0#6 4#5 4#16) (cop2On []) = some ⟨true, .word, 0x80000104#32⟩ ∧ copAllows (.swc2 0#6 4#5 4#16) (cop2On []) ∧
      dataTarget 0x80000104#32 .word (cop2On []) = .bus 0x104#32 ∧ nextAnswer (cop2On []) = .ram ∧ (cop2On []).bus.mem.wf = true) ∧
    (dataAccess (.sw 2#5 4#5 4#16) (withAnswers [.device 7#32] (loads [])) = some ⟨true, .word, 0x80000104#32⟩ ∧
      dataTarget 0x80000104#32 .word (withAnswers [.device 7#32] (loads [])) = .bus 0x104#32 ∧
      nextAnswer (withAnswers [.device 7#32] (loads [])) = .device 7#32) :=
  ⟨⟨by decide +kernel, trivial, by decide +kernel, rfl, by decide +kernel⟩,
    ⟨by decide +kernel, by unfold copAllows; decide +kernel, by decide +kernel, rfl, by decide +kernel⟩,
    by decide +kernel, by decide +kernel, rfl⟩

/-- The first and the last byte of a word. -/
theorem witness_UnalignedStoreBytes :
    dataTarget (effectiveAddress 4#5 0#16 (loads []) &&& 0xFFFFFFFC#32) .word (loads []) = .bus 0x100#32 ∧
    dataTarget (effectiveAddress 4#5 3#16 (loads []) &&& 0xFFFFFFFC#32) .word (loads []) = .bus 0x100#32 ∧
    nextAnswer (loads []) = .ram ∧ (loads []).bus.mem.wf = true := by decide +kernel

/-- The scratchpad's last byte and last word. -/
theorem witness_StoresReachScratchpad :
    (dataAccess (.sb 2#5 5#5 0x3FF#16) (spad []) = some ⟨true, .byte, 0x1F8003FF#32⟩ ∧ copAllows (.sb 2#5 5#5 0x3FF#16) (spad []) ∧
      dataTarget 0x1F8003FF#32 .byte (spad []) = .scratchpad 0x3FF#10) ∧
    (dataAccess (.sw 2#5 5#5 0x3FC#16) (spad []) = some ⟨true, .word, 0x1F8003FC#32⟩ ∧
      dataTarget 0x1F8003FC#32 .word (spad []) = .scratchpad 0x3FC#10) :=
  ⟨⟨by decide +kernel, trivial, by decide +kernel⟩, by decide +kernel, by decide +kernel⟩

/-- A store that clears `icache_enable`. -/
theorem witness_StoresReachCacheControl :
    let s := withCacheControl 0x800#32 (spad [])
    dataAccess (.sw 0#5 6#5 0#16) s = some ⟨true, .word, 0xFFFE0130#32⟩ ∧ copAllows (.sw 0#5 6#5 0#16) s ∧
    dataTarget 0xFFFE0130#32 .word s = .cacheControl ∧ storeMask (.sw 0#5 6#5 0#16) s = 0b1111#4 ∧
    s.cacheControl.getLsbD 11 = true ∧ (storeWord (.sw 0#5 6#5 0#16) s).getLsbD 11 = false :=
  ⟨by decide +kernel, trivial, by decide +kernel, by decide +kernel, by decide +kernel, by decide +kernel⟩

/-- SR.Isc = 1, SR.Swc = 0; a whole word and a byte. -/
theorem witness_IsolatedStoresInvalidate :
    let s := withSr 0x10000#32 (loads [])
    (dataAccess (.sw 2#5 4#5 0#16) s = some ⟨true, .word, 0x80000100#32⟩ ∧ copAllows (.sw 2#5 4#5 0#16) s ∧
      dataTarget 0x80000100#32 .word s = .isolatedCache) ∧
    (dataAccess (.sb 2#5 4#5 3#16) s = some ⟨true, .byte, 0x80000103#32⟩ ∧ dataTarget 0x80000103#32 .byte s = .isolatedCache) :=
  ⟨⟨by decide +kernel, trivial, by decide +kernel⟩, by decide +kernel, by decide +kernel⟩

/-- The ranges of each clause at their ends. -/
theorem witness_DataTargetByAddress :
    dataTarget 0x20000000#32 .word (regs []) = .unmapped ∧ dataTarget 0x7FFFFFFC#32 .word (regs []) = .unmapped ∧
    dataTarget 0xC0000000#32 .word (regs []) = .unmapped ∧ dataTarget 0xFFFE012C#32 .word (regs []) = .unmapped ∧
    dataTarget 0xFFFE0134#32 .word (regs []) = .unmapped ∧ dataTarget 0xFFFE0130#32 .word (regs []) = .cacheControl ∧
    dataTarget 0xFFFE0133#32 .byte (regs []) = .cacheControlPart ∧ dataTarget 0x1FFFFFFC#32 .word (regs []) = .bus 0x1FFFFFFC#32 ∧
    dataTarget 0xBFFFFFFC#32 .word (regs []) = .bus 0x1FFFFFFC#32 ∧ dataTarget 0x9F8003FF#32 .byte (spad []) = .scratchpad 0x3FF#10 ∧
    dataTarget 0x1F800400#32 .word (spad []) = .bus 0x1F800400#32 ∧ dataTarget 0xBF800000#32 .word (spad []) = .bus 0x1F800000#32 ∧
    dataTarget 0x00000000#32 .word (withSr 0x30000#32 (regs [])) = .swappedIsolation ∧
    dataTarget 0x80000000#32 .byte (withSr 2#32 (regs [])) = .addressError := by decide +kernel

/-- A misaligned load, and a store to the upper half in user mode. -/
theorem witness_DataAddressErrors :
    (dataAccess (.lw 2#5 4#5 2#16) (loads []) = some ⟨false, .word, 0x80000102#32⟩ ∧ copAllows (.lw 2#5 4#5 2#16) (loads []) ∧
      BusReplies (loads []) ∧ dataTarget 0x80000102#32 .word (loads []) = .addressError) ∧
    (dataAccess (.swl 2#5 4#5 1#16) (withSr 2#32 (loads [])) = some ⟨true, .word, 0x80000100#32⟩ ∧
      dataTarget 0x80000100#32 .word (withSr 2#32 (loads [])) = .addressError) :=
  ⟨⟨by decide +kernel, trivial, replies_of_nil rfl, by decide +kernel⟩, by decide +kernel, by decide +kernel⟩

theorem witness_DataBusErrors :
    (dataAccess (.lw 2#5 4#5 0#16) (regs [(4#5, 0x20000000#32)]) = some ⟨false, .word, 0x20000000#32⟩ ∧
      copAllows (.lw 2#5 4#5 0#16) (regs [(4#5, 0x20000000#32)]) ∧ BusReplies (regs [(4#5, 0x20000000#32)]) ∧
      dataTarget 0x20000000#32 .word (regs [(4#5, 0x20000000#32)]) = .unmapped) ∧
    (dataAccess (.sw 2#5 4#5 0#16) (withAnswers [.error] (loads [])) = some ⟨true, .word, 0x80000100#32⟩ ∧
      BusReplies (withAnswers [.error] (loads [])) ∧
      dataTarget 0x80000100#32 .word (withAnswers [.error] (loads [])) = .bus 0x100#32 ∧
      nextAnswer (withAnswers [.error] (loads [])) = .error) :=
  ⟨⟨by decide +kernel, trivial, replies_of_nil rfl, by decide +kernel⟩,
    by decide +kernel, by unfold BusReplies; decide +kernel, by decide +kernel, rfl⟩

theorem witness_RefusedAccessesAndSteps :
    (dataAccess (.lw 2#5 4#5 0#16) (withSr 0x30000#32 (loads [])) = some ⟨false, .word, 0x80000100#32⟩ ∧
      copAllows (.lw 2#5 4#5 0#16) (withSr 0x30000#32 (loads [])) ∧
      dataTarget 0x80000100#32 .word (withSr 0x30000#32 (loads [])) = .swappedIsolation) ∧
    (dataAccess (.sb 2#5 6#5 3#16) (spad []) = some ⟨true, .byte, 0xFFFE0133#32⟩ ∧
      dataTarget 0xFFFE0133#32 .byte (spad []) = .cacheControlPart) ∧
    (dataAccess (.swr 2#5 6#5 1#16) (spad []) = some ⟨true, .word, 0xFFFE0130#32⟩ ∧
      dataTarget 0xFFFE0130#32 .word (spad []) = .cacheControl ∧ storeMask (.swr 2#5 6#5 1#16) (spad []) ≠ 0b1111#4) ∧
    { regs [] with refused := some .unassignedCop2 }.refused = some .unassignedCop2 ∧
    ((regs []).refused = none ∧
      { regs [] with cop0 := { (regs []).cop0 with dcic := 0x00800000#32 } }.cop0.dcic.toNat / 2 ^ 23 ≠ 0) :=
  ⟨⟨by decide +kernel, trivial, by decide +kernel⟩, by decide +kernel, by decide +kernel, rfl, rfl, by decide +kernel⟩

theorem witness_SyscallAndBreakTrap : BusReplies (regs []) := replies_of_nil rfl

/-- COP0 in kernel mode, and in user mode with CU0; the numbers 15 and 16. -/
theorem witness_MoveFromCop0 :
    cop0Allowed (regs []) ∧ cop0Allowed (withSr 0x10000002#32 (regs [])) ∧ (15#5).toNat < 16 ∧ 16 ≤ (16#5).toNat ∧
    BusReplies (regs []) :=
  ⟨.inl rfl, .inr rfl, by decide, by decide, replies_of_nil rfl⟩

theorem witness_MoveToCop0_ReturnFromException : cop0Allowed (regs []) ∧ cop0Allowed (withSr 0x10000002#32 (regs [])) :=
  ⟨.inl rfl, .inr rfl⟩

theorem witness_CoprocessorUnusable :
    (coprocessorOf .rfe = some 0#2 ∧ ¬ copAllowed 0#2 (withSr 2#32 (regs [])) ∧ BusReplies (withSr 2#32 (regs []))) ∧
    (coprocessorOf (.swc2 0#6 4#5 0#16) = some 2#2 ∧ ¬ copAllowed 2#2 (regs []) ∧ BusReplies (regs [])) := by
  refine ⟨⟨rfl, ?_, replies_of_nil rfl⟩, rfl, ?_, replies_of_nil rfl⟩
  · rintro (h | h) <;> cases h
  · intro h; cases h

theorem witness_GteTransfers_GteCommandIssue : (cop2On []).cop0.sr.getLsbD 30 = true := rfl

theorem witness_LoadWordToGte :
    (cop2On []).cop0.sr.getLsbD 30 = true ∧
    readableValue (effectiveAddress 4#5 0#16 (cop2On [])) .word (cop2On []) = some 0x44332211#32 := by decide +kernel

/-- A word for each clause. -/
theorem witness_WordsOutsideTheTable :
    ((executing (.word 0xFC000000#32) (regs [])).pipe.currentInstruction = .word 0xFC000000#32 ∧
      BusReplies (executing (.word 0xFC000000#32) (regs []))) ∧
    (0xFC000000#32).toNat / 2 ^ 26 = 0x3F ∧
    ((0x03FFFFFF#32).toNat / 2 ^ 26 = 0 ∧ (0x03FFFFFF#32).toNat % 64 = 0x3F) ∧
    ((0x42000001#32).toNat / 2 ^ 26 = 0x10 ∧ (0x42000001#32).getLsbD 25 = true ∧ (0x42000001#32).toNat % 64 ≠ 0x10) ∧
    ((0x40200000#32).toNat / 2 ^ 26 = 0x10 ∧ (0x40200000#32).getLsbD 25 = false ∧ (0x40200000#32).toNat / 2 ^ 21 % 32 = 1) ∧
    ((0x48200000#32).toNat / 2 ^ 26 = 0x12 ∧ (0x48200000#32).getLsbD 25 = false ∧ (0x48200000#32).toNat / 2 ^ 21 % 32 = 1) ∧
    ((0x44000000#32).toNat / 2 ^ 26 = 0x11 ∧ (0xC0000000#32).toNat / 2 ^ 26 = 0x30) ∧
    cop0Allowed (regs []) ∧ ¬ cop0Allowed (withSr 2#32 (regs [])) ∧ copAllowed 2#2 (cop2On []) ∧ ¬ copAllowed 2#2 (regs []) ∧
    copAllowed 1#2 (withSr 0x20000000#32 (regs [])) ∧ ¬ copAllowed 1#2 (regs []) := by
  refine ⟨⟨rfl, replies_of_nil rfl⟩, by decide, by decide, by decide, by decide, by decide, by decide, .inl rfl, ?_, rfl, ?_, rfl, ?_⟩
  · rintro (h | h) <;> cases h
  · intro h; cases h
  · intro h; cases h

theorem witness_RegimmSelectsBranch :
    (0x04050001#32).toNat / 2 ^ 26 = 1 ∧ (0x04110004#32).toNat / 2 ^ 26 = 1 ∧ (0x04110004#32).toNat / 2 ^ 17 % 16 = 8 := by decide

theorem witness_DecodeEncodeRoundTrip :
    (Instr.lwc2 31#6 4#5 0#16).wellFormed = true ∧ (Instr.ctc2 2#5 63#6).wellFormed = true := by decide

theorem witness_DecodedInstructionsWellFormed : decodeWord 0x0080F849#32 = .ok (.jalr 31#5 4#5) := rfl

/-- `addiu $8, $0, 3` at 80002000. -/
def runnable : State := startedAt 0x80002000#32 0x24080003#32 (regs [])

theorem runnable_mayStep : MayStep runnable := ⟨rfl, by decide +kernel⟩
theorem runnable_quiet : NoInterruptDue runnable := .inl (by decide +kernel)

theorem witness_StepRunsDecodedInstruction :
    MayStep runnable ∧ NoInterruptDue runnable ∧ runnable.pipe.nextInstruction = .word 0x24080003#32 ∧
    decode (bytesOfWord 0x24080003#32 ++ [0xAA#8]) = .ok (.addiu 8#5 0#5 3#16, [0xAA#8]) ∧
    ∃ x f, fetch runnable.pipe.npc (shiftSlots (charge 1 runnable)) = .next (x, f) :=
  ⟨runnable_mayStep, runnable_quiet, rfl, rfl, _, _, rfl⟩

theorem witness_InterruptEntry : MayStep interruptedSlot ∧ ¬ NoInterruptDue interruptedSlot ∧ BusReplies interruptedSlot := by
  refine ⟨⟨rfl, by decide +kernel⟩, ?_, replies_of_nil rfl⟩
  rintro (h | h)
  · exact absurd h (by decide +kernel)
  · exact absurd h (by decide +kernel)

theorem witness_FetchFaultTaken :
    (executing (.fetchFault .ibe 0x20000000#32) (regs [])).pipe.currentInstruction = .fetchFault .ibe 0x20000000#32 ∧
    (executing (.fetchFault .adel 0x80000102#32) (regs [])).pipe.currentInstruction = .fetchFault .adel 0x80000102#32 ∧
    BusReplies (executing (.fetchFault .ibe 0x20000000#32) (regs [])) ∧
    BusReplies (executing (.fetchFault .adel 0x80000102#32) (regs [])) := ⟨rfl, rfl, replies_of_nil rfl, replies_of_nil rfl⟩

theorem witness_FetchFaultMarkers :
    (0x80000102#32).toNat % 4 ≠ 0 ∧ ((withSr 2#32 (regs [])).cop0.sr.getLsbD 1 = true ∧ 0x80000000 ≤ (0x80000000#32).toNat) ∧
    (0x20000000#32).toNat % 4 = 0 ∧ (0x20000000 ≤ (0x7FFFFFFC#32).toNat ∧ (0x7FFFFFFC#32).toNat < 0x80000000) ∧
    (0xC0000000 ≤ (0xC0000000#32).toNat ∧ (regs []).cop0.sr.getLsbD 1 = false) := by decide +kernel

/-- KSEG1 with the cache on, and a cacheable segment with it off; RAM, a device and a bus error. -/
theorem witness_UncachedFetchReadsBus :
    (fetchable 0xA0009000#32 (withCacheControl 0x800#32 (regs [])) ∧ ¬ cacheable 0xA0009000#32 (withCacheControl 0x800#32 (regs []))) ∧
    (fetchable 0x1FFFFFFC#32 (regs []) ∧ ¬ cacheable 0x1FFFFFFC#32 (regs [])) ∧
    nextAnswer (regs []) = .ram ∧ nextAnswer (withAnswers [.device 7#32] (regs [])) = .device 7#32 ∧
    nextAnswer (withAnswers [.error] (regs [])) = .error := by
  unfold fetchable cacheable; decide +kernel

/-- The instruction cache on. -/
def cacheOn : State := withCacheControl 0x800#32 (regs [])

theorem witness_CacheFillThenHit :
    fetchable 0x80009008#32 cacheOn ∧ cacheable 0x80009008#32 cacheOn ∧ fetchClass 0x80009008#32 cacheOn = some .miss ∧
    ∃ w t, fetch 0x80009008#32 cacheOn = .next (.word w, t) ∧ fetchClass 0x80009008#32 t = some .hit := by
  refine ⟨by unfold fetchable; decide +kernel, by unfold cacheable; decide +kernel, by decide +kernel, 0#32, _, rfl, by decide +kernel⟩

/-- The first and the last word of a line. -/
theorem witness_CacheFillFromRam :
    (fetchable 0x80009000#32 cacheOn ∧ cacheable 0x80009000#32 cacheOn) ∧
    (fetchable 0x8000900C#32 cacheOn ∧ cacheable 0x8000900C#32 cacheOn) ∧
    fetchClass 0x80009000#32 cacheOn = some .miss ∧ fetchClass 0x8000900C#32 cacheOn = some .miss ∧ cacheOn.bus.answers = [] := by
  unfold fetchable cacheable; decide +kernel

/-- A fill of the last three words of a line: answered by RAM and a device, and with an error on the last word (vector K10). -/
theorem witness_CacheFillByAnswers :
    let good := withAnswers [.ram, .device 7#32] cacheOn
    let bad := withAnswers [.ram, .device 7#32, .error] cacheOn
    (fetchable 0x80009004#32 good ∧ cacheable 0x80009004#32 good ∧ fetchClass 0x80009004#32 good = some .miss ∧
      fillAnswer 0x9004 1 1 good = some 0#32 ∧ fillAnswer 0x9004 1 2 good = some 7#32 ∧ fillAnswer 0x9004 1 3 good = some 0#32) ∧
    (fetchable 0x80009004#32 bad ∧ cacheable 0x80009004#32 bad ∧ fetchClass 0x80009004#32 bad = some .miss ∧
      (∀ a ∈ bad.bus.answers, a ≠ .silent) ∧ fillAnswer 0x9004 1 3 bad = none) := by
  unfold fetchable cacheable; decide +kernel

/-- In the load delay: an instruction that neither reads nor writes the register, one that writes it, and a second load to it. -/
theorem witness_LoadDelayLaw :
    (∃ t, step (withPending 2#5 9#32 runnable) = .next t ∧ t.flags.exceptionRaised = false ∧ readReg 2#5 t = 9#32) ∧
    (∃ t, step (withPending 8#5 9#32 runnable) = .next t ∧ t.flags.exceptionRaised = false ∧ readReg 8#5 t = 3#32) ∧
    (∃ t, step (withPending 2#5 9#32 (startedAt 0x80001000#32 0x8C820000#32 (loads [(2#5, 7#32)]))) = .next t ∧
      t.flags.exceptionRaised = false ∧ readReg 2#5 t = 7#32) ∧
    NoInterruptDue (withPending 2#5 9#32 runnable) ∧ decodeWord 0x24080003#32 = .ok (.addiu 8#5 0#5 3#16) ∧
    decodeWord 0x8C820000#32 = .ok (.lw 2#5 4#5 0#16) := by
  refine ⟨?_, ?_, ?_, .inl (by decide +kernel), rfl, rfl⟩
  · obtain ⟨t, h, p⟩ := nextIs_elim (r := step (withPending 2#5 9#32 runnable))
      (p := fun t => !t.flags.exceptionRaised && readReg 2#5 t == 9#32) (by decide +kernel)
    simp only [Bool.and_eq_true, Bool.not_eq_true', beq_iff_eq] at p
    exact ⟨t, h, p⟩
  · obtain ⟨t, h, p⟩ := nextIs_elim (r := step (withPending 8#5 9#32 runnable))
      (p := fun t => !t.flags.exceptionRaised && readReg 8#5 t == 3#32) (by decide +kernel)
    simp only [Bool.and_eq_true, Bool.not_eq_true', beq_iff_eq] at p
    exact ⟨t, h, p⟩
  · obtain ⟨t, h, p⟩ := nextIs_elim (r := step (withPending 2#5 9#32 (startedAt 0x80001000#32 0x8C820000#32 (loads [(2#5, 7#32)]))))
      (p := fun t => !t.flags.exceptionRaised && readReg 2#5 t == 7#32) (by decide +kernel)
    simp only [Bool.and_eq_true, Bool.not_eq_true', beq_iff_eq] at p
    exact ⟨t, h, p⟩

/-- Two quiet steps follow one another. -/
def twoSteps (s : State) : Prop :=
  ∃ t v, step s = .next t ∧ NoInterruptDue s ∧ t.flags.exceptionRaised = false ∧ step t = .next v ∧ NoInterruptDue t ∧
    v.flags.exceptionRaised = false

theorem twoSteps_of {s : State}
    (h : nextIs (step s) (fun t => !interruptPending s && !t.flags.exceptionRaised && !interruptPending t &&
      nextIs (step t) (fun v => !v.flags.exceptionRaised)) = true) : twoSteps s := by
  obtain ⟨t, ht, p⟩ := nextIs_elim h
  simp only [Bool.and_eq_true, Bool.not_eq_true'] at p
  obtain ⟨v, hv, q⟩ := nextIs_elim p.2
  exact ⟨t, v, ht, .inl p.1.1.1, p.1.1.2, hv, .inl p.1.2, by simpa using q⟩

/-- A branch taken and one not taken. -/
theorem witness_BranchDelayLaw :
    twoSteps (startedAt 0x80000100#32 0x10220003#32 (regs [(1#5, 5#32), (2#5, 5#32)])) ∧
    twoSteps (startedAt 0x80000100#32 0x10220003#32 (regs [(1#5, 5#32), (2#5, 6#32)])) ∧
    decodeWord 0x10220003#32 = .ok (.beq 1#5 2#5 3#16) ∧ isBranch (.beq 1#5 2#5 3#16) = true :=
  ⟨twoSteps_of (by decide +kernel), twoSteps_of (by decide +kernel), rfl, rfl⟩

/-- A state that is not the reset state meets the invariant, and steps. -/
theorem witness_StepKeepsInvariant : Inv runnable ∧ ∃ t, step runnable = .next t := by
  refine ⟨⟨rfl, by decide +kernel, by decide +kernel, by decide +kernel, by decide +kernel, rfl, fun h => (by cases h),
    fun _ _ => (by decide +kernel), fun _ _ h => (by cases h), ?_, ?_⟩, ?_⟩
  · intro _ l
    have : runnable.icache.tags = Vector.replicate (2 ^ 8) Config.invalidTag := rfl
    rw [this, Bank.read_replicate]; decide
  · intro l
    have : runnable.icache.tags = Vector.replicate (2 ^ 8) Config.invalidTag := rfl
    rw [this, Bank.read_replicate]; decide
  · obtain ⟨t, h, _⟩ := nextIs_elim (r := step runnable) (p := fun _ => true) (by decide +kernel)
    exact ⟨t, h⟩

/-- The prefetch answered with a word, and with an error. -/
theorem witness_ResetValues :
    BusReplies State.reset ∧ resetWord State.reset = some 0#32 ∧
    (∀ a ∈ (withAnswers [.error] State.reset).bus.answers, a ≠ .silent) ∧ resetWord (withAnswers [.error] State.reset) = none :=
  ⟨replies_of_nil rfl, rfl, by decide +kernel, rfl⟩

theorem witness_InstructionFrame :
    ∃ t, exec (.sw 2#5 4#5 0#16) (loads []) = .next t ∧ (loads []).flags.exceptionRaised = false ∧ t.flags.exceptionRaised = false := by
  obtain ⟨t, h, p⟩ := nextIs_elim (r := exec (.sw 2#5 4#5 0#16) (loads [])) (p := fun t => !t.flags.exceptionRaised) (by decide +kernel)
  exact ⟨t, h, rfl, by simpa using p⟩

theorem witness_NextSlotFetchedBeforeExecute :
    ∃ u e, beginStep runnable = .next u ∧ executeCurrent u = .next e ∧ e.flags.exceptionRaised = false := by
  obtain ⟨u, hu, p⟩ := nextIs_elim (r := beginStep runnable)
    (p := fun u => nextIs (executeCurrent u) fun e => !e.flags.exceptionRaised) (by decide +kernel)
  obtain ⟨e, he, q⟩ := nextIs_elim p
  exact ⟨u, e, hu, he, by simpa using q⟩

/-- User mode without CU0: a quiet step, and one that raises. -/
theorem witness_UserModeConfined :
    let s := startedAt 0x00007400#32 0x24080003#32 (withSr 2#32 (regs []))
    let e := startedAt 0x00007400#32 0x40026000#32 (withSr 2#32 (regs []))
    (∃ t, step s = .next t ∧ t.flags.exceptionRaised = false) ∧ (∃ t, step e = .next t ∧ t.flags.exceptionRaised = true) ∧
    NoInterruptDue s ∧ NoInterruptDue e ∧ s.cop0.sr.getLsbD 1 = true ∧ s.cop0.sr.getLsbD 28 = false := by
  refine ⟨?_, ?_, .inl (by decide +kernel), .inl (by decide +kernel), rfl, rfl⟩
  · obtain ⟨t, h, p⟩ := nextIs_elim (r := step (startedAt 0x00007400#32 0x24080003#32 (withSr 2#32 (regs []))))
      (p := fun t => !t.flags.exceptionRaised) (by decide +kernel)
    exact ⟨t, h, by simpa using p⟩
  · exact nextIs_elim (r := step (startedAt 0x00007400#32 0x40026000#32 (withSr 2#32 (regs []))))
      (p := fun t => t.flags.exceptionRaised) (by decide +kernel)

/-- User mode entered by RFE and by MTC0. -/
theorem witness_UserModeEntry :
    (∃ t, step (startedAt 0x80001000#32 0x42000010#32 (withSr 8#32 (regs []))) = .next t ∧ t.cop0.sr.getLsbD 1 = true) ∧
    (∃ t, step (startedAt 0x80001000#32 0x40886000#32 (regs [(8#5, 2#32)])) = .next t ∧ t.cop0.sr.getLsbD 1 = true) ∧
    (withSr 8#32 (regs [])).cop0.sr.getLsbD 1 = false :=
  ⟨nextIs_elim (r := step (startedAt 0x80001000#32 0x42000010#32 (withSr 8#32 (regs [])))) (p := fun t => t.cop0.sr.getLsbD 1) (by decide +kernel),
    nextIs_elim (r := step (startedAt 0x80001000#32 0x40886000#32 (regs [(8#5, 2#32)]))) (p := fun t => t.cop0.sr.getLsbD 1) (by decide +kernel),
    rfl⟩

theorem witness_TickLaws : ∃ t, step runnable = .next t ∧ t.timing.downcount = 0 :=
  let ⟨t, h, p⟩ := nextIs_elim (r := step runnable) (p := fun t => t.timing.downcount == 0) (by decide +kernel)
  ⟨t, h, by simpa using p⟩

/-- The lines 0 and 7, and the first number that is none. -/
theorem witness_ExternalInterruptLines :
    (setExternalInterrupt 0 (regs [])).cop0.cause = 0x100#32 ∧ (setExternalInterrupt 7 (regs [])).cop0.cause = 0x8000#32 ∧
    (clearExternalInterrupt 7 (withCause 0x8100#32 (regs []))).cop0.cause = 0x100#32 ∧
    (setExternalInterrupt 8 (regs [])).cop0.cause = 0#32 := by decide +kernel

theorem witness_CaptureRestore : (2 : Nat) ≠ 1 := by decide

theorem witness_BreakpointVisit :
    (host (some 0xBFC00000#32)).resumeSkip = some (host (some 0xBFC00000#32)).machine.pipe.pc ∧
    (host none).resumeSkip ≠ some (host none).machine.pipe.pc ∧
    (breakpointCheck (host none)).1 = true ∧ (breakpointCheck (host none)).2.breakpoints.map (fun e => (e.sequence, e.hitCount)) =
      [(0, 1), (1, 5), (3, 0)] ∧
    (breakpointCheck { host none with breakpoints := (host none).breakpoints.tail }).1 = false := by decide +kernel

end Sys2Proof.Machine.Tests
end

/-! The family of 10_state.md: the frame of an instruction (O52) and the invariant every step keeps (O49). -/

namespace Sys2Proof.Machine

/-! ### Bits of the registers with reserved fields -/

/-- A word lies within a mask exactly when each of its bits outside the mask is 0. -/
theorem and_not_mask_eq_zero {x m : Word} :
    x &&& ~~~m = 0#32 ↔ ∀ k < 32, m.getLsbD k = false → x.getLsbD k = false := by
  constructor
  · intro h k hk hm
    have hbit := congrArg (·.getLsbD k) h
    simpa only [BitVec.getLsbD_and, BitVec.getLsbD_not, hk, hm, decide_true, Bool.not_false, Bool.and_true,
      BitVec.getLsbD_zero] using hbit
  · intro h
    apply BitVec.eq_of_getLsbD_eq
    intro k hk
    cases hm : m.getLsbD k
    · simp [h k hk hm]
    · simp [hm]

/-- Words with the same field have the same bits there. -/
theorem getLsbD_eq_of_field_eq {x y : Word} {lo n k : Nat} (h : x.extractLsb' lo n = y.extractLsb' lo n) (hlo : lo ≤ k)
    (hk : k < lo + n) : x.getLsbD k = y.getLsbD k := by
  have hbit := congrArg (·.getLsbD (k - lo)) h
  simpa [show k - lo < n by omega, Nat.add_sub_cancel' hlo] using hbit

/-- A masked write stays within any mask that holds its own. -/
theorem maskedUpdate_within {old mask v m : Word} (hold : old &&& ~~~m = 0#32) (hmask : mask &&& ~~~m = 0#32) :
    maskedUpdate old mask v &&& ~~~m = 0#32 := by
  rw [and_not_mask_eq_zero] at *
  intro k hk hm
  simp [maskedUpdate, hold k hk hm, hmask k hk hm]

/-- SR keeps to its bits when only the mode stack changes (10_state.md R41). -/
theorem srBits_of_rest_eq {a b : Word} (h : a.extractLsb' 6 26 = b.extractLsb' 6 26) (hb : b &&& ~~~Config.srMask = 0#32) :
    a &&& ~~~Config.srMask = 0#32 := by
  rw [and_not_mask_eq_zero] at *
  intro k hk hm
  have above : ∀ k < 32, Config.srMask.getLsbD k = false → 6 ≤ k := by decide
  rw [getLsbD_eq_of_field_eq h (above k hk hm) (by omega)]
  exact hb k hk hm

/-- CAUSE keeps to its bits when only the fields of exception entry change (10_state.md R43). -/
theorem causeBits_of_rest_eq {a b : Word} (hmid : a.extractLsb' 7 21 = b.extractLsb' 7 21)
    (hlow : a.extractLsb' 0 2 = b.extractLsb' 0 2) (hb : b &&& ~~~0xF000FF7C#32 = 0#32) : a &&& ~~~0xF000FF7C#32 = 0#32 := by
  rw [and_not_mask_eq_zero] at *
  intro k hk hm
  have outside : ∀ k < 32, (0xF000FF7C#32).getLsbD k = false → k < 2 ∨ (7 ≤ k ∧ k < 28) := by decide
  have hbit : a.getLsbD k = b.getLsbD k := by
    rcases outside k hk hm with h | ⟨h7, h28⟩
    · exact getLsbD_eq_of_field_eq hlow (Nat.zero_le k) (by omega)
    · exact getLsbD_eq_of_field_eq hmid h7 (by omega)
  rw [hbit]
  exact hb k hk hm

/-- The pop of the mode stack keeps every other bit of SR (44_system.md R335). -/
theorem popModeStack_rest (sr : Word) : (popModeStack sr).extractLsb' 6 26 = sr.extractLsb' 6 26 := by
  apply BitVec.eq_of_getLsbD_eq
  intro k hk
  interval_cases k <;> simp [popModeStack]

/-! ### The frame of an instruction -/

/-- A COP0 write reaches none of the registers of exception entry but CAUSE and SR (10_state.md R44). -/
theorem writeCop0_entryRegs (n : RegNum) (v : Word) (s : State) :
    (writeCop0 n v s).cop0.epc = s.cop0.epc ∧ (writeCop0 n v s).cop0.badVaddr = s.cop0.badVaddr ∧
    (writeCop0 n v s).cop0.tar = s.cop0.tar := by
  unfold writeCop0
  split <;> exact ⟨rfl, rfl, rfl⟩

/-- A quiet instruction keeps EPC, BadVaddr and TAR (10_state.md R44). -/
theorem Quiet.entryRegs {i : Instr} {s t : State} (q : Quiet i s t) :
    t.cop0.epc = s.cop0.epc ∧ t.cop0.badVaddr = s.cop0.badVaddr ∧ t.cop0.tar = s.cop0.tar := by
  rcases q.cop0 with h | ⟨rt, rd, -, -, h⟩ | ⟨-, -, h⟩
  · simp [h]
  · rw [h]; exact writeCop0_entryRegs _ _ _
  · simp [h]

/-- COP0 changes only by MTC0 and RFE. -/
theorem Quiet.cop0_eq {i : Instr} {s t : State} (q : Quiet i s t) (hm : ∀ rt rd, i ≠ .mtc0 rt rd) (hr : i ≠ .rfe) :
    t.cop0 = s.cop0 := by
  rcases q.cop0 with h | ⟨rt, rd, hi, -⟩ | ⟨hi, -⟩
  · exact h
  · exact absurd hi (hm rt rd)
  · exact absurd hi hr

/-- Without isolation, and with `icache_enable` not cleared, the instruction cache is read-only (20_memory.md R156, R169). -/
theorem Quiet.icache_eq {i : Instr} {s t : State} (q : Quiet i s t) (hiso : isolated s = false)
    (hclear : ¬ (icacheEnable s.cacheControl = true ∧ icacheEnable t.cacheControl = false)) : t.icache = s.icache := by
  rcases q.cache with ⟨h, -⟩ | ⟨v, h, hv⟩ | ⟨_, _, _, h, -⟩
  · exact h
  · rw [hv] at hclear
    rw [h, writeCacheControl_icache, if_neg (by simpa using hclear)]
  · simp [hiso] at h

/-- An instruction that leaves `exception_raised` clear completed quietly: exception entry sets it (60_exceptions.md R423). -/
theorem quiet_of_not_raised {i : Instr} {s t : State} (h : exec i s = .next t) (hf : t.flags.exceptionRaised = false) :
    Quiet i s t := by
  rcases exec_executed h with ⟨code, ce, u, -, hr⟩ | q
  · have := (raiseWithCe_raised hr).raised
    simp [hf] at this
  · exact q

/-- Settles O52: an instruction that raises nothing completed quietly, and `Quiet` is its frame. -/
theorem instructionFrame : Obligations.InstructionFrame := by
  intro i s t h _ hf
  have q := quiet_of_not_raised h hf
  obtain ⟨hepc, hbad, htar⟩ := q.entryRegs
  exact ⟨q.regs, q.hi, q.lo, q.gte, hepc, hbad, htar, q.cop0_eq, q.noStore, q.icache_eq, q.straight⟩

/-! ### The invariant, part by part

`Held` is the invariant as it holds at every point within a step, where a load may be staged: `Inv` is `Held` with nothing
staged. Its parts speak of the component of the state they are about. -/

/-- The bits of SR, CAUSE and DCIC that do not exist read 0. -/
structure Cop0Held (c : Cop0) : Prop where
  sr : c.sr &&& ~~~Config.srMask = 0#32
  cause : c.cause &&& ~~~0xF000FF7C#32 = 0#32
  dcic : c.dcic &&& ~~~Config.dcicMask = 0#32

/-- No load to r0 is pending or staged. -/
structure DelayHeld (d : LoadDelay) : Prop where
  pending : d.reg ≠ some 0#5
  staged : d.nextReg ≠ some 0#5

/-- The next slot agrees with `pc` and with the branch flags. -/
structure SlotsHeld (p : Pipeline) : Prop where
  taken : p.branchWasTaken = true → p.nextInstructionIsBranchDelaySlot = true
  aligned : ∀ w, p.nextInstruction = .word w → p.pc.toNat % 4 = 0
  marker : ∀ c a, p.nextInstruction = .fetchFault c a → a = p.pc

/-- Every line is invalid while the cache is off, and a tag holds a physical address. -/
structure CacheHeld (c : Word) (k : ICache) : Prop where
  off : icacheEnable c = false → ∀ l, (k.tags.read l).extractLsb' 0 4 = 0xF#4
  physical : ∀ l, (k.tags.read l).extractLsb' 29 3 = 0#3

/-- What holds at every point within a step. -/
structure Held (s : State) : Prop where
  memory : s.bus.mem.wf = true
  cop0 : Cop0Held s.cop0
  delay : DelayHeld s.delay
  slots : SlotsHeld s.pipe
  cache : CacheHeld s.cacheControl s.icache

/-- The invariant is `Held` with nothing staged. -/
theorem inv_iff_held {s : State} : Inv s ↔ Held s ∧ s.delay.nextReg = none := by
  constructor
  · rintro ⟨hmem, hsr, hcause, hdcic, hpend, hstag, htaken, hword, hmark, hoff, hphys⟩
    exact ⟨⟨hmem, ⟨hsr, hcause, hdcic⟩, ⟨hpend, by simp [hstag]⟩, ⟨htaken, hword, hmark⟩, ⟨hoff, hphys⟩⟩, hstag⟩
  · rintro ⟨⟨hmem, ⟨hsr, hcause, hdcic⟩, ⟨hpend, -⟩, ⟨htaken, hword, hmark⟩, ⟨hoff, hphys⟩⟩, hstag⟩
    exact ⟨hmem, hsr, hcause, hdcic, hpend, hstag, htaken, hword, hmark, hoff, hphys⟩

/-! ### The cache -/

/-- A tag of a fetch or an isolated store holds a physical address: its upper three bits are 0 (20_memory.md R100, R153). -/
theorem tag_physical (a m : Word) (hm : m &&& 0xF#32 = m) :
    (tagAddress (physical a) ||| m).extractLsb' 29 3 = 0#3 := by
  apply BitVec.eq_of_getLsbD_eq
  intro k hk
  rw [← hm]
  interval_cases k <;> simp [tagAddress, physical, Config.physicalMask]

/-- A tag made with `invalidTag` marks every word of the line invalid. -/
theorem tag_invalid (a : Word) : (a ||| Config.invalidTag).extractLsb' 0 4 = 0xF#4 := by
  apply BitVec.eq_of_getLsbD_eq
  intro k hk
  interval_cases k <;> simp [Config.invalidTag]

/-- A new tag of one line keeps the cache's part, if it is physical and, while the cache is off, invalid. -/
theorem CacheHeld.writeTag {c tag : Word} {k k' : ICache} {l : BitVec 8} (h : CacheHeld c k)
    (ht : k'.tags = k.tags.write l tag) (hphys : tag.extractLsb' 29 3 = 0#3)
    (hoff : icacheEnable c = false → tag.extractLsb' 0 4 = 0xF#4) : CacheHeld c k' where
  off hc j := by
    rw [ht, Bank.read_write]
    split
    · exact hoff hc
    · exact h.off hc j
  physical j := by
    rw [ht, Bank.read_write]
    split
    · exact hphys
    · exact h.physical j

/-- A fetch keeps the cache's part: with the cache off it does not touch it (20_memory.md R150). -/
theorem CacheHeld.fetched {v : Word} {s t : State} (h : CacheHeld s.cacheControl s.icache) (htags : TagsAfterFetch v s t)
    (hbypass : icacheEnable s.cacheControl = false → t.icache = s.icache) : CacheHeld s.cacheControl t.icache := by
  cases hc : icacheEnable s.cacheControl with
  | false => rw [hbypass hc]; exact h
  | true =>
    rcases htags with ht | ⟨m, hm, ht⟩
    · exact ⟨by simp [hc], by rw [ht]; exact h.physical⟩
    · exact h.writeTag ht (tag_physical v m hm) (by simp [hc])

/-- A write to the cache-control register keeps the cache's part: one that turns the cache off invalidates it
(20_memory.md R142). -/
theorem CacheHeld.writeCacheControl {s : State} (h : CacheHeld s.cacheControl s.icache) (v : Word) :
    CacheHeld v (writeCacheControl v s).icache := by
  rw [writeCacheControl_icache]
  split
  · constructor
    · intro _ l; rw [Bank.read_replicate]; decide
    · intro l; rw [Bank.read_replicate]; decide
  · next hkeep => exact ⟨fun hv => h.off (by simpa [hv] using hkeep), h.physical⟩

/-- An isolated store leaves its line invalid (20_memory.md R160). -/
theorem CacheHeld.isolatedStore {s : State} (h : CacheHeld s.cacheControl s.icache) (a : Word) (m : BitVec 4) (v : Word) :
    CacheHeld s.cacheControl (isolatedStore a m v s).icache :=
  h.writeTag (by rw [isolatedStore_icache]) (tag_physical a _ (by decide)) fun _ => tag_invalid _

/-! ### COP0 -/

/-- MTC0 writes only bits that exist (44_system.md R337). -/
theorem Cop0Held.writeCop0 {s : State} (h : Cop0Held s.cop0) (n : RegNum) (v : Word) : Cop0Held (writeCop0 n v s).cop0 := by
  obtain ⟨hsr, hcause, hdcic⟩ := h
  unfold Machine.writeCop0
  split
  · exact ⟨hsr, hcause, hdcic⟩
  · exact ⟨hsr, hcause, hdcic⟩
  · exact ⟨hsr, hcause, hdcic⟩
  · exact ⟨hsr, hcause, hdcic⟩
  · exact ⟨hsr, hcause, maskedUpdate_within hdcic (by decide)⟩
  · exact ⟨maskedUpdate_within hsr (by decide), hcause, hdcic⟩
  · exact ⟨hsr, maskedUpdate_within hcause (by decide), hdcic⟩
  · exact ⟨hsr, hcause, hdcic⟩

/-- A quiet instruction keeps the reserved bits: only MTC0 and RFE write COP0. -/
theorem Cop0Held.quiet {i : Instr} {s t : State} (h : Cop0Held s.cop0) (q : Quiet i s t) : Cop0Held t.cop0 := by
  rcases q.cop0 with hc | ⟨rt, rd, -, -, hc⟩ | ⟨-, -, hc⟩
  · rw [hc]; exact h
  · rw [hc]; exact h.writeCop0 _ _
  · rw [hc]; exact ⟨srBits_of_rest_eq (popModeStack_rest _) h.sr, h.cause, h.dcic⟩

/-- Exception entry keeps the reserved bits (60_exceptions.md R420). -/
theorem Cop0Held.entered {code : Nat} {a : Word} {bd bt : Bool} {ce : BitVec 2} {dest : Word} {s t : State}
    (h : Cop0Held s.cop0) (e : Entered code a bd bt ce dest s t) : Cop0Held t.cop0 := by
  obtain ⟨hmid, hlow⟩ := e.causeRest
  exact ⟨srBits_of_rest_eq e.srRest h.sr, causeBits_of_rest_eq hmid hlow h.cause, by rw [e.cop0Frame]; exact h.dcic⟩

/-! ### The load delay and the slots -/

/-- A quiet instruction cancels the pending load or stages one, never to r0 (10_state.md R31, R38). -/
theorem DelayHeld.quiet {i : Instr} {s t : State} (h : DelayHeld s.delay) (q : Quiet i s t) : DelayHeld t.delay := by
  cases hi : immediateDest i with
  | some r =>
    rw [q.delayWritten r hi]
    split
    · exact ⟨by simp, h.staged⟩
    · exact h
  | none =>
    cases hd : delayedDest i with
    | none => rw [q.delayKept hi hd]; exact h
    | some r =>
      rw [q.delayStaged r hd]
      split
      · exact h
      · next hr =>
        refine ⟨?_, by simpa using hr⟩
        split
        · simp
        · exact h.pending

/-- A quiet instruction leaves the next slot and `pc`; a branch marks the delay slot (70_reset_and_hazards.md R521). -/
theorem SlotsHeld.quiet {i : Instr} {s t : State} (h : SlotsHeld s.pipe) (q : Quiet i s t) : SlotsHeld t.pipe := by
  cases hb : isBranch i with
  | false => rw [q.straight hb]; exact h
  | true => rw [q.branch hb]; exact ⟨fun _ => rfl, h.aligned, h.marker⟩

/-! ### The parts of a step -/

/-- A quiet instruction keeps `Held`. -/
theorem Held.quiet {i : Instr} {s t : State} (h : Held s) (q : Quiet i s t) : Held t where
  memory := q.memory h.memory
  cop0 := h.cop0.quiet q
  delay := h.delay.quiet q
  slots := h.slots.quiet q
  cache := by
    rcases q.cache with ⟨hk, hc⟩ | ⟨v, hk, hc⟩ | ⟨a, m, v, -, hk, hc⟩
    · rw [hk, hc]; exact h.cache
    · rw [hk, hc]; exact h.cache.writeCacheControl v
    · rw [hk, hc]; exact h.cache.isolatedStore a m v

/-- What an instruction does before it raises keeps `Held`. -/
theorem Held.beforeRaise {s u : State} (h : Held s) (b : BeforeRaise s u) : Held u := by
  have hmem : u.bus.mem.wf = true := by rw [b.mem]; exact h.memory
  rw [b.frame] at hmem ⊢
  exact ⟨hmem, ⟨h.cop0.sr, h.cop0.cause, h.cop0.dcic⟩, h.delay, h.slots, h.cache⟩

/-- Exception entry keeps `Held`: the next slot is fetched at the vector, nothing is pending or staged. -/
theorem Held.entered {code : Nat} {a : Word} {bd bt : Bool} {ce : BitVec 2} {dest : Word} {s t : State}
    (h : Held s) (e : Entered code a bd bt ce dest s t) : Held t := by
  obtain ⟨x, u, hf, ht⟩ := e.refetched
  have d := fetch_done hf
  have hcache : CacheHeld s.cacheControl u.icache := CacheHeld.fetched (s := flushed s t) h.cache d.tags d.bypass
  have hdelay : DelayHeld t.delay := by rw [e.delay]; exact ⟨by simp, by simp⟩
  refine ⟨by rw [e.memory]; exact h.memory, h.cop0.entered e, hdelay, ?_, ?_⟩
  · have hx : t.pipe.nextInstruction = x := by rw [ht]
    obtain ⟨hpc, -, -⟩ := e.pc
    refine ⟨by simp [e.branchFlags], ?_, ?_⟩
    · rw [hx, hpc]; exact d.aligned
    · rw [hx, hpc]; exact d.marker
  · have hk : t.icache = u.icache := by rw [ht]
    have hc : t.cacheControl = s.cacheControl := by rw [e.frame]
    rw [hk, hc]; exact hcache

/-- The interrupt point keeps `Held`: it does nothing, or it enters the interrupt's exception. -/
theorem Held.interruptPoint {s s1 : State} (h : Held s) (hi : interruptPoint s = .next s1) : Held s1 := by
  rcases interruptPoint_eq_next hi with ⟨-, rfl⟩ | ⟨-, -, ht⟩
  · exact h
  · exact h.entered (enterException_entered ht)

/-- The advance of the slots keeps `Held`: the new next slot is fetched at the new `pc`. -/
theorem Held.begun {s1 u : State} (h : Held s1) (b : Begun s1 u) : Held u := by
  have hdelay : u.delay = s1.delay := by rw [b.frame]
  have hcop : u.cop0 = s1.cop0 := by rw [b.frame]
  have hctl : u.cacheControl = s1.cacheControl := by rw [b.frame]
  refine ⟨by rw [b.mem]; exact h.memory, by rw [hcop]; exact h.cop0, by rw [hdelay]; exact h.delay, ?_, ?_⟩
  · rw [b.pipe]; exact ⟨by simp, b.aligned, b.marker⟩
  · rw [hctl]; exact h.cache.fetched b.tags b.bypass

/-- The current slot keeps `Held`: it raises, or it completes quietly. -/
theorem Held.executeCurrent {u e : State} (h : Held u) (hx : executeCurrent u = .next e) : Held e := by
  rcases executeCurrent_cases hx with ⟨code, ce, v, hb, hr⟩ | ⟨w, i, -, -, -, q⟩
  · exact (h.beforeRaise hb).entered (raiseWithCe_raised hr)
  · exact h.quiet q

/-- The load-delay update ends a step with nothing staged (70_reset_and_hazards.md R509). -/
theorem Held.inv_updateLoadDelay {e : State} (h : Held e) : Inv (updateLoadDelay e) := by
  refine inv_iff_held.mpr ⟨⟨?_, ?_, ?_, ?_, ?_⟩, by simp⟩
  · simpa using h.memory
  · simpa using h.cop0
  · rw [updateLoadDelay_delay]; exact ⟨h.delay.staged, by simp⟩
  · simpa using h.slots
  · simpa using h.cache

/-- Settles O49: each part of a step keeps `Held`, and the load-delay update makes it `Inv` again. -/
theorem stepKeepsInvariant : Obligations.StepKeepsInvariant := by
  intro s t h hs
  obtain ⟨-, u, e, hu, he, rfl⟩ := step_eq_next.mp hs
  obtain ⟨s1, h1, hb⟩ := begun hu
  obtain ⟨held, -⟩ := inv_iff_held.mp h
  exact (((held.interruptPoint h1).begun hb).executeCurrent he).inv_updateLoadDelay

end Sys2Proof.Machine

/-! The family of 20_memory.md: where data accesses go and what stores there do (O19 to O23, O26), fetches that fault or bypass the
cache (O42 to O44), and the cache fill (O45, O46, O60). -/

namespace Sys2Proof.Machine

/-! ### Addresses, by arithmetic (20_memory.md R101, R103, R112, R153) -/

/-- The segment is the range the address lies in (R101). -/
theorem segmentOf_eq (v : Word) : segmentOf v =
    if v.toNat < 0x20000000 then .kusegLow else if v.toNat < 0x80000000 then .kusegHigh
    else if v.toNat < 0xA0000000 then .kseg0 else if v.toNat < 0xC0000000 then .kseg1 else .kseg2 := by
  have htop : (v.extractLsb' 29 3).toNat = v.toNat / 2 ^ 29 := by
    simp [BitVec.extractLsb', Nat.shiftRight_eq_div_pow]
    omega
  unfold segmentOf
  generalize v.extractLsb' 29 3 = top at htop
  have tops : ∀ x : BitVec 3, x = 0#3 ∨ x = 4#3 ∨ x = 5#3 ∨ x = 6#3 ∨ x = 7#3 ∨ x = 1#3 ∨ x = 2#3 ∨ x = 3#3 := by decide
  rcases tops top with rfl | rfl | rfl | rfl | rfl | rfl | rfl | rfl <;> simp only [BitVec.reduceToNat] at htop
  · rw [if_pos (by omega)]; rfl
  · rw [if_neg (by omega), if_neg (by omega), if_pos (by omega)]; rfl
  · rw [if_neg (by omega), if_neg (by omega), if_neg (by omega), if_pos (by omega)]; rfl
  · rw [if_neg (by omega), if_neg (by omega), if_neg (by omega), if_neg (by omega)]; rfl
  · rw [if_neg (by omega), if_neg (by omega), if_neg (by omega), if_neg (by omega)]; rfl
  all_goals
    rw [if_neg (by omega), if_pos (by omega)]
    rfl

/-- The mode check fails exactly in user mode on the upper half (R103). -/
theorem modeForbids_iff {v : Word} {s : State} :
    modeForbids v s = true ↔ s.cop0.sr.getLsbD 1 = true ∧ 0x80000000 ≤ v.toNat := by
  have hmsb : v.getLsbD 31 = decide (0x80000000 ≤ v.toNat) := BitVec.msb_eq_decide v
  simp only [modeForbids, userMode, hmsb, Bool.and_eq_true, decide_eq_true_eq]

theorem modeForbids_eq_false {v : Word} {s : State} (h : s.cop0.sr.getLsbD 1 = true → v.toNat < 0x80000000) :
    modeForbids v s = false := by
  rw [← Bool.not_eq_true, modeForbids_iff]
  rintro ⟨hu, hv⟩
  exact absurd (h hu) (Nat.not_lt.mpr hv)

/-- The low two bits are 0 exactly for a word-aligned address (R112). -/
theorem low_bits_eq_zero_iff {v : Word} : v.extractLsb' 0 2 = 0#2 ↔ v.toNat % 4 = 0 := by
  simp [← BitVec.toNat_inj, BitVec.extractLsb']

theorem physical_eq (v : Word) : physical v = BitVec.ofNat 32 (v.toNat % 2 ^ 29) := by
  apply BitVec.eq_of_toNat_eq
  rw [physical_toNat, BitVec.toNat_ofNat]
  omega

theorem cacheLine_eq (v : Word) : cacheLine v = BitVec.ofNat 8 (v.toNat / 16) := by
  apply BitVec.eq_of_toNat_eq
  simp [cacheLine, BitVec.extractLsb', Nat.shiftRight_eq_div_pow]

theorem cacheWord_toNat (v : Word) : (cacheWord v).toNat = v.toNat / 4 % 4 := by
  simp [cacheWord, BitVec.extractLsb', Nat.shiftRight_eq_div_pow]

theorem cacheIndex_toNat (l : BitVec 8) (w : BitVec 2) : (cacheIndex l w).toNat = 4 * l.toNat + w.toNat := by
  rw [cacheIndex, BitVec.toNat_append, ← Nat.shiftLeft_add_eq_or_of_lt w.isLt, Nat.shiftLeft_eq]
  omega

theorem cacheIndex_eq (v : Word) : cacheIndex (cacheLine v) (cacheWord v) = BitVec.ofNat 10 (v.toNat / 4) := by
  apply BitVec.eq_of_toNat_eq
  rw [cacheIndex_toNat, cacheWord_toNat, cacheLine_eq]
  simp
  omega

/-- A mask of the bits from `k` on clears those below. -/
theorem toNat_and_highMask {w : Nat} (p : BitVec w) (k : Nat) :
    (p &&& (BitVec.allOnes w <<< k)).toNat = p.toNat / 2 ^ k * 2 ^ k := by
  have hcut : p &&& (BitVec.allOnes w <<< k) = (p >>> k) <<< k := by
    apply BitVec.eq_of_getLsbD_eq
    intro i hi
    by_cases hk : i < k
    · simp [hk]
    · simp [hi, hk, Nat.add_sub_cancel' (Nat.le_of_not_lt hk)]
  have hlt : p.toNat / 2 ^ k * 2 ^ k < 2 ^ w := Nat.lt_of_le_of_lt (Nat.div_mul_le_self _ _) p.isLt
  rw [hcut, BitVec.toNat_shiftLeft, BitVec.toNat_ushiftRight, Nat.shiftRight_eq_div_pow, Nat.shiftLeft_eq, Nat.mod_eq_of_lt hlt]

theorem tagAddress_toNat (p : Word) : (tagAddress p).toNat = p.toNat / 16 * 16 := toNat_and_highMask p 4

/-- A tag address with the invalid bits `m` (R153, R155). -/
theorem tagAddress_or_toNat (p : Word) {m : Nat} (h : m < 16) :
    (tagAddress p ||| BitVec.ofNat 32 m).toNat = p.toNat / 16 * 16 + m := by
  rw [BitVec.toNat_or, tagAddress_toNat, BitVec.toNat_ofNat, Nat.mod_eq_of_lt (by omega), Nat.mul_comm]
  exact (Nat.two_pow_add_eq_or_of_lt (i := 4) h _).symm

/-- The tag of an address with the invalid bits `m`, by arithmetic (R153, R155, R160). -/
theorem tag_eq (v : Word) {m : Nat} (h : m < 16) :
    tagAddress (physical v) ||| BitVec.ofNat 32 m = BitVec.ofNat 32 (v.toNat % 2 ^ 29 / 16 * 16 + m) := by
  apply BitVec.eq_of_toNat_eq
  rw [tagAddress_or_toNat _ h, physical_toNat, BitVec.toNat_ofNat]
  omega

/-- The scratchpad's 1 KiB at its base (R120). -/
theorem inScratchpad_physical_iff {v : Word} :
    inScratchpad (physical v) = true ↔ 0x1F800000 ≤ v.toNat % 2 ^ 29 ∧ v.toNat % 2 ^ 29 < 0x1F800400 := by
  have hcut : (physical v &&& 0xFFFFFC00#32).toNat = v.toNat % 2 ^ 29 / 2 ^ 10 * 2 ^ 10 := by
    rw [← physical_toNat]
    exact toNat_and_highMask _ 10
  rw [inScratchpad, beq_iff_eq, ← BitVec.toNat_inj, hcut]
  simp only [Config.scratchpadBase, BitVec.reduceToNat]
  omega

/-- The word of the cache-control register (R140). -/
theorem inCacheControl_iff {v : Word} :
    v.extractLsb' 2 30 = Config.cacheControlAddress.extractLsb' 2 30 ↔ 0xFFFE0130 ≤ v.toNat ∧ v.toNat < 0xFFFE0134 := by
  have hcut : (v.extractLsb' 2 30).toNat = v.toNat / 4 := by
    simp [BitVec.extractLsb', Nat.shiftRight_eq_div_pow]
    omega
  have hreg : (Config.cacheControlAddress.extractLsb' 2 30).toNat = 0xFFFE0130 / 4 := by decide
  rw [← BitVec.toNat_inj, hcut, hreg]
  omega

/-! ### Where a data access goes (R130) -/

/-- An access is an address error when it is misaligned or its mode forbids it; every other target is for one that is neither. -/
theorem dataTarget_addressError_iff {v : Word} {n : Width} {s : State} :
    dataTarget v n s = .addressError ↔ v.toNat % n.bytes ≠ 0 ∨ modeForbids v s = true := by
  rw [ne_eq, ← misaligned_eq_false, Bool.not_eq_false]
  constructor
  · intro h
    by_contra hok
    obtain ⟨ha, hm⟩ := not_or.mp hok
    simp only [dataTarget, ha, hm, unlessIsolated, cachedSegmentTarget] at h
    split at h <;> grind
  · rintro (ha | hm)
    · simp [dataTarget, ha]
    · simp [dataTarget, hm]

/-- The target of an aligned and allowed access, by the range of its address. -/
theorem dataTarget_of_allowed {v : Word} {n : Width} {s : State} (ha : v.toNat % n.bytes = 0) (hm : modeForbids v s = false) :
    dataTarget v n s =
      if v.toNat < 0x20000000 then unlessIsolated s (cachedSegmentTarget v s)
      else if v.toNat < 0x80000000 then .unmapped
      else if v.toNat < 0xA0000000 then unlessIsolated s (cachedSegmentTarget v s)
      else if v.toNat < 0xC0000000 then unlessIsolated s (.bus (physical v))
      else if 0xFFFE0130 ≤ v.toNat ∧ v.toNat < 0xFFFE0134 then (if n = .word then .cacheControl else .cacheControlPart)
      else .unmapped := by
  have hword : n = .word → (v = Config.cacheControlAddress ↔ 0xFFFE0130 ≤ v.toNat ∧ v.toNat < 0xFFFE0134) := by
    rintro rfl
    simp only [Width.bytes] at ha
    rw [← BitVec.toNat_inj]
    simp only [Config.cacheControlAddress, BitVec.reduceToNat]
    omega
  simp only [dataTarget, misaligned_eq_false.mpr ha, hm, segmentOf_eq, inCacheControl_iff, Bool.false_eq_true, if_false]
  split_ifs <;> simp_all

/-- Segments 0 and 4: the scratchpad where it is active, else the bus (R120, R124). -/
theorem cachedSegmentTarget_eq (v : Word) (s : State) : cachedSegmentTarget v s =
    if s.cacheControl.getLsbD 3 = true ∧ s.cacheControl.getLsbD 7 = true ∧ 0x1F800000 ≤ v.toNat % 2 ^ 29 ∧
      v.toNat % 2 ^ 29 < 0x1F800400 then .scratchpad (BitVec.ofNat 10 v.toNat) else .bus (physical v) := by
  have hoff : v.extractLsb' 0 10 = BitVec.ofNat 10 v.toNat := by
    apply BitVec.eq_of_toNat_eq
    simp [BitVec.extractLsb']
  simp only [cachedSegmentTarget, scratchpadActive, scratchpadEnable, dcacheEnable, hoff, Bool.and_eq_true,
    inScratchpad_physical_iff, and_assoc]

/-- Settles O22: the two checks come first, then the range of the address, then isolation, then the scratchpad. -/
theorem dataTargetByAddress : Obligations.DataTargetByAddress := by
  intro v n s
  refine ⟨dataTarget_addressError_iff.trans (or_congr_right modeForbids_iff), fun ha hmode => ?_⟩
  rw [dataTarget_of_allowed ha (modeForbids_eq_false hmode)]
  refine ⟨fun hlo hhi => ?_, fun hlo hout => ?_, fun hlo hhi => ?_, fun hseg => ?_⟩
  · rw [if_neg (by omega), if_pos hhi]
  · rw [if_neg (by omega), if_neg (by omega), if_neg (by omega), if_neg (by omega), if_neg (by omega)]
  · rw [if_neg (by omega), if_neg (by omega), if_neg (by omega), if_neg (by omega), if_pos ⟨hlo, hhi⟩]
  · rw [cachedSegmentTarget_eq, physical_eq]
    simp only [unlessIsolated, isolated, swapped]
    split_ifs <;> grind

/-! ### Little-endian values (R110, R121) -/

/-- The low byte comes first, the others stand above it: no bit is lost while they fit. -/
theorem littleEndian_succ_toNat {get : Nat → Byte} {a n : Nat} (h : (littleEndian get (a + 1) n).toNat < 2 ^ 24) :
    (littleEndian get a (n + 1)).toNat = (get a).toNat + 2 ^ 8 * (littleEndian get (a + 1) n).toNat := by
  have hlow := (get a).isLt
  rw [littleEndian, BitVec.toNat_or, BitVec.toNat_shiftLeft, BitVec.toNat_setWidth, Nat.shiftLeft_eq,
    Nat.mod_eq_of_lt (by omega), Nat.mod_eq_of_lt (by omega), Nat.or_comm, Nat.mul_comm,
    ← Nat.two_pow_add_eq_or_of_lt hlow, Nat.add_comm]

/-- Fewer than four bytes leave the top byte clear. -/
theorem littleEndian_lt (get : Nat → Byte) (a : Nat) {n : Nat} (hn : n ≤ 4) : (littleEndian get a n).toNat < 2 ^ (8 * n) := by
  induction n generalizing a with
  | zero => simp [littleEndian]
  | succ n ih =>
    have hrest := ih (a + 1) (by omega)
    have hle : 2 ^ (8 * n) ≤ 2 ^ 24 := Nat.pow_le_pow_right (by omega) (by omega)
    have hlow := (get a).isLt
    rw [littleEndian_succ_toNat (by omega), show 8 * (n + 1) = 8 * n + 8 from rfl, Nat.pow_add]
    omega

/-- The values of one, two and four bytes. -/
theorem littleEndian_values (get : Nat → Byte) (a : Nat) :
    (littleEndian get a 1).toNat = (get a).toNat ∧
    (littleEndian get a 2).toNat = (get a).toNat + 2 ^ 8 * (get (a + 1)).toNat ∧
    (littleEndian get a 4).toNat = (get a).toNat + 2 ^ 8 * (get (a + 1)).toNat + 2 ^ 16 * (get (a + 2)).toNat +
      2 ^ 24 * (get (a + 3)).toNat := by
  have fits : ∀ b n, n ≤ 3 → (littleEndian get b n).toNat < 2 ^ 24 := fun b n hn =>
    Nat.lt_of_lt_of_le (littleEndian_lt get b (by omega)) (Nat.pow_le_pow_right (by omega) (by omega))
  have one : ∀ b, (littleEndian get b 1).toNat = (get b).toNat := fun b => by
    rw [littleEndian_succ_toNat (fits _ 0 (by omega))]; simp [littleEndian]
  have two : ∀ b, (littleEndian get b 2).toNat = (get b).toNat + 2 ^ 8 * (get (b + 1)).toNat := fun b => by
    rw [littleEndian_succ_toNat (fits _ 1 (by omega)), one]
  refine ⟨one a, two a, ?_⟩
  rw [littleEndian_succ_toNat (fits _ 3 (by omega)), littleEndian_succ_toNat (fits _ 2 (by omega)), two]
  simp only [Nat.add_assoc, Nat.reduceAdd]
  omega

/-- Settles O23: memory and the scratchpad take their values from `littleEndian`; scratchpad offsets wrap at 1 KiB. -/
theorem littleEndianValues : Obligations.LittleEndianValues := by
  refine ⟨fun m p => littleEndian_values (readByte m) p, fun b o => ?_⟩
  simpa only [readScratch, Width.bytes, BitVec.ofNat_add, BitVec.ofNat_toNat, BitVec.setWidth_eq] using
    littleEndian_values (fun a => b.read (BitVec.ofNat 10 a)) o.toNat

/-! ### Fetches that fault (R102, R103, R150, R152) -/

/-- Settles O43: the checks of alignment and mode come before the segment. -/
theorem fetchFaultMarkers : Obligations.FetchFaultMarkers := by
  intro v s
  constructor
  · rintro (ha | hm)
    · rw [fetch, if_pos (low_bits_eq_zero_iff.not.mpr ha)]
    · simp only [fetch, modeForbids_iff.mpr hm, if_true, ite_self]
  · intro ha hseg
    have hal : ¬ v.extractLsb' 0 2 ≠ 0#2 := not_not.mpr (low_bits_eq_zero_iff.mpr ha)
    have hm : modeForbids v s = false := modeForbids_eq_false fun hu => by
      rcases hseg with ⟨_, hlt⟩ | ⟨_, hk⟩
      · exact hlt
      · exact absurd (hk.symm.trans hu) Bool.false_ne_true
    rw [fetch, if_neg hal, hm, if_neg Bool.false_ne_true, segmentOf_eq]
    rcases hseg with ⟨hlo, hhi⟩ | ⟨hlo, _⟩
    · rw [if_neg (by omega), if_pos hhi]
    · rw [if_neg (by omega), if_neg (by omega), if_neg (by omega), if_neg (by omega)]

/-- Settles O42: the marker's exception has CE 0, since its slot holds no word (60_exceptions.md R421). -/
theorem fetchFaultTaken : Obligations.FetchFaultTaken := by
  intro s a hb
  constructor
  · intro hc
    have hce : reportedCop s = 0#2 := by simp only [reportedCop, hc]
    rw [executeCurrent, hc, ← hce]
    exact raiseException_completes .ibe hb
  · intro hc
    have hb' : BusReplies (setBadVaddr a s) := hb
    have hce : reportedCop (setBadVaddr a s) = 0#2 := by simp only [reportedCop, setBadVaddr_pipe, hc]
    rw [executeCurrent, hc, ← hce]
    exact raiseException_completes .adel hb'

/-! ### Fetches from a mapped address (R150, R151) -/

/-- An address that can be fetched from passes both checks of a fetch. -/
theorem fetchable.checks {v : Word} {s : State} (hf : fetchable v s) : v.extractLsb' 0 2 = 0#2 ∧ modeForbids v s = false := by
  obtain ⟨ha, hseg⟩ := hf
  refine ⟨low_bits_eq_zero_iff.mpr ha, modeForbids_eq_false fun hu => ?_⟩
  rcases hseg with hlt | ⟨_, _, hk⟩
  · omega
  · exact absurd (hk.symm.trans hu) Bool.false_ne_true

/-- Below KSEG1 such an address lies in segment 0 or 4, else it lies in KSEG1. -/
theorem fetchable.segment {v : Word} {s : State} (hf : fetchable v s) :
    if v.toNat < 0xA0000000 then segmentOf v = .kusegLow ∨ segmentOf v = .kseg0 else segmentOf v = .kseg1 := by
  obtain ⟨-, hseg⟩ := hf
  rw [segmentOf_eq]
  split_ifs <;> grind

/-- A fetch from a cacheable address goes through the cache; whether it hits classifies it. -/
theorem fetch_of_cacheable {v : Word} {s : State} (hf : fetchable v s) (hc : cacheable v s) :
    fetch v s = cachedFetch v (physical v) s ∧
    fetchClass v s = if cacheHit v (physical v) s then some .hit else some .miss := by
  obtain ⟨hlow, hm⟩ := hf.checks
  obtain ⟨hlt, hon⟩ := hc
  have hen : icacheEnable s.cacheControl = true := hon
  have hseg := hf.segment
  rw [if_pos hlt] at hseg
  rcases hseg with h | h <;> simp [fetch, fetchClass, hlow, hm, h, hen]

/-- A fetch from any other address bypasses the cache: KSEG1, or the cache is off. -/
theorem fetch_of_not_cacheable {v : Word} {s : State} (hf : fetchable v s) (hc : ¬ cacheable v s) :
    fetch v s = uncachedFetch v (physical v) s ∧ fetchClass v s = some .miss := by
  obtain ⟨hlow, hm⟩ := hf.checks
  have hseg := hf.segment
  split at hseg
  · next hlt =>
    have hen : icacheEnable s.cacheControl = false := by
      rw [← Bool.not_eq_true]; exact fun hon => hc ⟨hlt, hon⟩
    rcases hseg with h | h <;> simp [fetch, fetchClass, hlow, hm, h, hen]
  · simp [fetch, fetchClass, hlow, hm, hseg]

/-- Settles O44: an uncached fetch is its bus read and the charge. -/
theorem uncachedFetchReadsBus : Obligations.UncachedFetchReadsBus := by
  intro v s hf hc
  obtain ⟨hfetch, hclass⟩ := fetch_of_not_cacheable hf hc
  rw [← physical_eq, hfetch]
  refine ⟨hclass, fun hr => ?_, fun d hd => ?_, fun he => ?_⟩
  · simp only [uncachedFetch, busRead, hr, andThen_next]; rfl
  · simp only [uncachedFetch, busRead, hd, andThen_next]; rfl
  · simp only [uncachedFetch, busRead, he, andThen_next]; rfl

/-! ### What loads and stores are made of (43_loadstore.md R300, R312 to R316; 44_system.md R357, R358) -/

theorem byteInWord_eq (ea : Word) : byteInWord ea = ea.toNat % 4 := by
  simp [byteInWord, BitVec.extractLsb']

/-- The byte of a word, by arithmetic (R110). -/
theorem byteOf_eq_wordByte (v : Word) (k : Nat) : byteOf v k = wordByte v k := by
  apply BitVec.eq_of_toNat_eq
  simp [byteOf, wordByte, BitVec.extractLsb', Nat.shiftRight_eq_div_pow, Nat.pow_mul]

/-- SWL's mask is the one its byte count gives (R315). -/
theorem storeLeftMask_eq (rt base : RegNum) (off : BitVec 16) (s : State) :
    storeLeftMask ((effectiveAddress base off s).toNat % 4) = storeMask (.swl rt base off) s := by
  rw [storeMask]
  have hlt : (effectiveAddress base off s).toNat % 4 < 4 := Nat.mod_lt _ (by decide)
  generalize (effectiveAddress base off s).toNat % 4 = k at hlt
  interval_cases k <;> rfl

/-- SWR's mask is the one its byte count gives (R316). -/
theorem storeRightMask_eq (rt base : RegNum) (off : BitVec 16) (s : State) :
    storeRightMask ((effectiveAddress base off s).toNat % 4) = storeMask (.swr rt base off) s := by
  rw [storeMask]
  have hlt : (effectiveAddress base off s).toNat % 4 < 4 := Nat.mod_lt _ (by decide)
  generalize (effectiveAddress base off s).toNat % 4 = k at hlt
  interval_cases k <;> rfl

/-- A COP2 transfer that is allowed passes the usability check (44_system.md R330). -/
theorem withCop2_allowed {s : State} (h : s.cop0.sr.getLsbD 30 = true) (k : State → Res) : withCop 2#2 s k = k s :=
  withCop_usable h

/-- Waiting for the GTE takes ticks only, so the access goes where it would have gone. -/
theorem readyToStore_frame (i : Instr) (s : State) : readyToStore i s =
    { s with timing := { s.timing with pendingTicks := (readyToStore i s).timing.pendingTicks } } := by
  unfold readyToStore
  split <;> rfl

@[simp] theorem readyToStore_icache (i : Instr) (s : State) : (readyToStore i s).icache = s.icache := by
  rw [readyToStore_frame]
@[simp] theorem readyToStore_cacheControl (i : Instr) (s : State) : (readyToStore i s).cacheControl = s.cacheControl := by
  rw [readyToStore_frame]
@[simp] theorem readyToStore_scratchpad (i : Instr) (s : State) : (readyToStore i s).scratchpad = s.scratchpad := by
  rw [readyToStore_frame]
@[simp] theorem readyToStore_draws (i : Instr) (s : State) : (readyToStore i s).draws = s.draws := by
  rw [readyToStore_frame]
@[simp] theorem dataTarget_readyToStore (i : Instr) (s : State) (v : Word) (n : Width) :
    dataTarget v n (readyToStore i s) = dataTarget v n s := by
  rw [readyToStore_frame]; rfl

/-- A store instruction is one store of its word, under its mask, at its address. -/
theorem exec_store {i : Instr} {s : State} {a : Access} (ha : dataAccess i s = some a) (hs : a.store = true) (hc : copAllows i s) :
    ∃ f : StoreForm, f.width = a.width ∧ f.mask = storeMask i s ∧ f.kind = storeKind i ∧
      exec i s = onDone (memStore f a.address (storeWord i s) (readyToStore i s)) fun _ u => .next u := by
  cases i with
  | sb => cases ha; exact ⟨.whole .byte, rfl, rfl, rfl, rfl⟩
  | sh => cases ha; exact ⟨.whole .half, rfl, rfl, rfl, rfl⟩
  | sw => cases ha; exact ⟨.whole .word, rfl, rfl, rfl, rfl⟩
  | swc2 gr base off =>
    cases ha
    refine ⟨.whole .word, rfl, rfl, rfl, ?_⟩
    simp only [exec, execSwc2]
    exact withCop2_allowed hc _
  | swl rt base off =>
    cases ha
    refine ⟨.masked (storeMask (.swl rt base off) s), rfl, rfl, rfl, ?_⟩
    simp only [exec, execSwl, storeMasked, byteInWord_eq, storeLeftMask_eq rt, storeLeftWord]
    rfl
  | swr rt base off =>
    cases ha
    refine ⟨.masked (storeMask (.swr rt base off) s), rfl, rfl, rfl, ?_⟩
    simp only [exec, execSwr, storeMasked, byteInWord_eq, storeRightMask_eq rt, storeRightWord]
    rfl
  | lb | lbu | lh | lhu | lw | lwl | lwr | lwc2 => cases ha; cases hs
  | _ => cases ha

/-- A load instruction is one read at its address and something done with the value. -/
theorem exec_load {i : Instr} {s : State} {a : Access} (ha : dataAccess i s = some a) (hl : a.store = false) (hc : copAllows i s) :
    ∃ k, exec i s = onDone (memRead a.address a.width s) k := by
  cases i with
  | lb | lbu | lh | lhu | lw => cases ha; exact ⟨_, show loadInto _ _ _ _ _ s = _ from rfl⟩
  | lwl | lwr => cases ha; exact ⟨_, show loadMerged _ _ _ _ s = _ from rfl⟩
  | lwc2 =>
    cases ha
    simp only [exec, execLwc2]
    exact ⟨_, withCop2_allowed hc _⟩
  | sb | sh | sw | swc2 | swl | swr => cases ha; cases hl
  | _ => cases ha

/-! ### Stores that go elsewhere than the bus (R122, R140 to R142, R160) -/

/-- Settles O19: the enabled bytes are those `read_writeScratch` names, and `T_SCRATCHPAD` is 0. -/
theorem storesReachScratchpad : Obligations.StoresReachScratchpad := by
  intro i s a o ha hs hc ht
  obtain ⟨f, hw, hm, -, he⟩ := exec_store ha hs hc
  refine ⟨charge Config.tScratchpad (storeScratch o (storeMask i s) (storeWord i s) (readyToStore i s)), ?_, fun x => ?_, rfl⟩
  · rw [he, memStore, hw, dataTarget_readyToStore, ht, hm]; rfl
  · rw [charge_scratchpad, storeScratch_scratchpad, read_writeScratch, byteOf_eq_wordByte, readyToStore_scratchpad]

/-- Settles O20: the tags are replaced exactly when `icache_enable` goes from 1 to 0 (R142). -/
theorem storesReachCacheControl : Obligations.StoresReachCacheControl := by
  intro i s a ha hs hc ht hfull
  obtain ⟨f, hw, hm, -, he⟩ := exec_store ha hs hc
  refine ⟨charge Config.tCacheCtl (writeCacheControl (storeWord i s) (readyToStore i s)), ?_, by simp, ?_, fun l => ?_, by simp,
    ?_⟩
  · rw [he, memStore, hw, dataTarget_readyToStore, ht, hm, hfull]; rfl
  · simp only [charge_icache, writeCacheControl_icache, readyToStore_icache]
    split <;> rfl
  · simp only [charge_icache, writeCacheControl_icache, readyToStore_icache, readyToStore_cacheControl, icacheEnable,
      Bool.and_eq_true, Bool.not_eq_true']
    split
    · exact Bank.read_replicate _ l
    · rfl
  · rw [readyToStore_frame]; ext1 <;> simp

/-- Settles O21: one tag and one cached word are written, the word at index `4 * line + word` (R153). -/
theorem isolatedStoresInvalidate : Obligations.IsolatedStoresInvalidate := by
  intro i s a ha hs hc ht
  obtain ⟨f, hw, hm, -, he⟩ := exec_store ha hs hc
  refine ⟨charge Config.tIsolated (isolatedStore a.address (storeMask i s) (storeWord i s) (readyToStore i s)), ?_, fun l => ?_,
    fun n => ?_, by simp, by simp, ?_⟩
  · rw [he, memStore, hw, dataTarget_readyToStore, ht, hm]; rfl
  · have htag : tagAddress (physical a.address) ||| Config.invalidTag = _ := tag_eq a.address (m := 15) (by decide)
    simp only [charge_icache, isolatedStore_icache, readyToStore_icache, Bank.read_write, htag, cacheLine_eq, eq_comm]
  · simp only [charge_icache, isolatedStore_icache, readyToStore_icache, drawn, readyToStore_draws, Bank.read_write, cacheIndex_eq,
      eq_comm]
  · rw [readyToStore_frame]; ext1 <;> simp

/-! ### Refusals (R140, R162; 60_exceptions.md R447) -/

/-- A hardware breakpoint is armed exactly when one of DCIC[31:23] is set. -/
theorem breakpointsArmed_iff {s : State} : breakpointsArmed s = true ↔ s.cop0.dcic.toNat / 2 ^ 23 ≠ 0 := by
  have htop : (s.cop0.dcic.extractLsb' 23 9).toNat = s.cop0.dcic.toNat / 2 ^ 23 := by
    simp [BitVec.extractLsb', Nat.shiftRight_eq_div_pow]
    omega
  rw [breakpointsArmed, bne_iff_ne, ne_eq, ← BitVec.toNat_inj, htop]
  rfl

/-- Settles O26: a refused access refuses its instruction; a step asks for a refusal before it begins. -/
theorem refusedAccessesAndSteps : Obligations.RefusedAccessesAndSteps := by
  refine ⟨fun i s a ha hc => ?_, fun s => ⟨fun r hr => ?_, fun hr hd => ?_⟩⟩
  · cases hs : a.store with
    | false =>
      obtain ⟨k, he⟩ := exec_load ha hs hc
      refine ⟨fun ht => ?_, fun ht => ?_, by simp⟩
      · rw [he, memRead, ht]; rfl
      · rw [he, memRead, ht]; rfl
    | true =>
      obtain ⟨f, hw, hm, -, he⟩ := exec_store ha hs hc
      refine ⟨fun ht => ?_, fun ht => ?_, fun ht _ hpart => ?_⟩
      · rw [he, memStore, hw, dataTarget_readyToStore, ht]; rfl
      · rw [he, memStore, hw, dataTarget_readyToStore, ht]; rfl
      · rw [he, memStore, hw, dataTarget_readyToStore, ht, hm]
        simp only [if_neg hpart, onDone_refused]
  · rw [step, hr]
  · rw [step, hr]
    simp only [breakpointsArmed_iff.mpr hd, if_true]

/-! ### The reads of a fill (R155)

The words from `k` on are numbered by `List.range' k m`; `fillAnswer p k n` is what the bus answers to the read of word `n`. -/

theorem fillWords_eq (w : BitVec 2) : fillWords w = (List.range' w.toNat (4 - w.toNat)).map (BitVec.ofNat 2) := by
  revert w; decide

theorem invalidBelow_eq (w : BitVec 2) : invalidBelow w = BitVec.ofNat 32 (2 ^ w.toNat - 1) := by
  revert w; decide

/-- The address of word `k` of a line. -/
theorem fillAddress_eq (p : Word) {k : Nat} (hk : k < 4) :
    tagAddress p + 4#32 * (BitVec.ofNat 2 k).setWidth 32 = BitVec.ofNat 32 (p.toNat / 16 * 16 + 4 * k) := by
  apply BitVec.eq_of_toNat_eq
  rw [BitVec.toNat_add, BitVec.toNat_mul, tagAddress_toNat]
  simp
  omega

/-- One of the reads of words `k` to `k + m - 1` is answered with an error. -/
def fillFails (p k m : Nat) (s : State) : Bool := ((List.range' k m).map fun n => fillAnswer p k n s).any Option.isNone

/-- What the reads of words `k` to `k + m - 1` do: `m` calls in order, and `bus_error` if one fails. -/
structure FillRead (p k m : Nat) (s t : State) : Prop where
  bus : t.bus =
    { mem := s.bus.mem
      answers := s.bus.answers.drop m
      log := ((List.range m).reverse.map fun j =>
        .read .fetch (BitVec.ofNat 32 (p / 16 * 16 + 4 * (k + j))) .word (fillAnswer p k (k + j) s)) ++ s.bus.log }
  flags : t.flags = { s.flags with busError := s.flags.busError || fillFails p k m s }
  frame : t = { s with bus := t.bus, flags := t.flags }

/-- The read of the first word of a fill gives what `fillAnswer` says. -/
theorem busRead_fillAnswer (p : Word) {k : Nat} {s : State} (hk : k < 4) (hs : nextAnswer s ≠ .silent) :
    ∃ t, busRead .fetch (BitVec.ofNat 32 (p.toNat / 16 * 16 + 4 * k)) .word s = .next (fillAnswer p.toNat k k s, t) := by
  have haddr : (BitVec.ofNat 32 (p.toNat / 16 * 16 + 4 * k)).toNat = p.toNat / 16 * 16 + 4 * k := by
    rw [BitVec.toNat_ofNat]; omega
  have hans : s.bus.answers.getD (k - k) .ram = nextAnswer s := by
    rw [nextAnswer, Nat.sub_self]; cases s.bus.answers <;> rfl
  rw [busRead, fillAnswer, hans, haddr]
  cases h : nextAnswer s with
  | ram => exact ⟨_, rfl⟩
  | device d => exact ⟨_, rfl⟩
  | error => exact ⟨_, rfl⟩
  | silent => exact absurd h hs

/-- After the first read the answers to the later ones have moved up by one. -/
theorem fillAnswer_succ {p k n : Nat} {s t : State} (hm : t.bus.mem = s.bus.mem) (ha : t.bus.answers = s.bus.answers.tail)
    (hn : k < n) : fillAnswer p (k + 1) n t = fillAnswer p k n s := by
  have hans : s.bus.answers.tail.getD (n - (k + 1)) .ram = s.bus.answers.getD (n - k) .ram := by
    rw [show n - k = n - (k + 1) + 1 by omega]
    cases s.bus.answers <;> simp
  rw [fillAnswer, fillAnswer, hm, ha, hans]

/-- The reads of a fill, when the bus answers them all, give the answers in order. -/
theorem fillReads_answers (p : Word) {m k : Nat} {s : State} (hk : k + m ≤ 4)
    (hs : ∀ j < m, s.bus.answers.getD j .ram ≠ .silent) :
    ∃ t, fillReads (tagAddress p) ((List.range' k m).map (BitVec.ofNat 2)) s =
        .next ((List.range' k m).map fun n => (BitVec.ofNat 2 n, fillAnswer p.toNat k n s), t) ∧
      FillRead p.toNat k m s t := by
  induction m generalizing k s with
  | zero => exact ⟨s, rfl, ⟨by simp, by simp [fillFails], rfl⟩⟩
  | succ m ih =>
    have hfirst : nextAnswer s ≠ .silent := by
      have := hs 0 (by omega)
      rw [nextAnswer]; cases h : s.bus.answers <;> simp_all
    obtain ⟨s1, h1⟩ := busRead_fillAnswer p (by omega : k < 4) hfirst
    have d := busRead_done h1
    obtain ⟨t, ht, r⟩ := ih (k := k + 1) (s := s1) (by omega) (fun j hj => by
      have := hs (j + 1) (by omega)
      rw [d.answers]; cases h : s.bus.answers <;> simp_all)
    have later : ∀ n ∈ List.range' (k + 1) m, fillAnswer p.toNat (k + 1) n s1 = fillAnswer p.toNat k n s := fun n hn =>
      fillAnswer_succ d.mem d.answers (by simp at hn; omega)
    refine ⟨t, ?_, ?_, ?_, ?_⟩
    · have hmap := List.map_congr_left fun n hn => congrArg (Prod.mk (BitVec.ofNat 2 n)) (later n hn)
      simp only [List.range'_succ, List.map_cons, fillReads, fillAddress_eq p (by omega : k < 4), h1, ht, andThen_next, hmap]
    · rw [r.bus, d.mem, d.answers, d.log, List.range_succ_eq_map, List.reverse_cons, ← List.map_reverse]
      simp only [List.map_append, List.map_map, List.map_cons, List.map_nil, List.append_assoc, List.cons_append, List.nil_append,
        List.drop_tail, Nat.add_zero, Function.comp_def]
      refine congrArg (Bus.mk _ _) (congrArg (· ++ _) (List.map_congr_left fun j hj => ?_))
      have hj' : j < m := by simpa using hj
      rw [later _ (by simp; omega), Nat.add_assoc, Nat.add_comm 1 j]
    · have hfail : fillFails p.toNat k (m + 1) s = ((fillAnswer p.toNat k k s).isNone || fillFails p.toNat (k + 1) m s1) := by
        rw [fillFails, fillFails, List.map_congr_left later, List.range'_succ, List.map_cons, List.any_cons]
      rw [r.flags, d.flags, hfail]
      cases fillAnswer p.toNat k k s <;> simp
    · rw [r.frame, d.frame]

/-! ### What a fill stores (R155) -/

/-- The words of a fill go to the cache's data and nowhere else. -/
theorem storeFill_frame (l : BitVec 8) (rs : List (BitVec 2 × Option Word)) (s : State) :
    storeFill l rs s = { s with icache := { s.icache with data := (storeFill l rs s).icache.data } } := by
  induction rs generalizing s with
  | nil => rfl
  | cons r rs ih =>
    obtain ⟨k, o⟩ := r
    cases o with
    | none => exact ih s
    | some v => rw [storeFill, ih]; rfl

/-- A cached word after a fill: the words read, at their places in the line, and every other word as before. -/
theorem read_storeFill (l : BitVec 8) (o : Nat → Option Word) {m k : Nat} (hk : k + m ≤ 4) (s : State) (i : BitVec 10) :
    (storeFill l ((List.range' k m).map fun n => (BitVec.ofNat 2 n, o n)) s).icache.data.read i =
      if i.toNat / 4 = l.toNat ∧ k ≤ i.toNat % 4 ∧ i.toNat % 4 < k + m then (o (i.toNat % 4)).getD (s.icache.data.read i)
      else s.icache.data.read i := by
  induction m generalizing k s with
  | zero =>
    rw [if_neg (by omega)]; rfl
  | succ m ih =>
    have hplace : cacheIndex l (BitVec.ofNat 2 k) = i ↔ i.toNat / 4 = l.toNat ∧ i.toNat % 4 = k := by
      rw [← BitVec.toNat_inj, cacheIndex_toNat, BitVec.toNat_ofNat]
      omega
    rw [List.range'_succ, List.map_cons]
    cases hv : o k with
    | none =>
      rw [storeFill, ih (by omega)]
      by_cases h : i.toNat % 4 = k
      · rw [if_neg (by omega), h, hv, Option.getD_none, ite_self]
      · exact if_congr (by omega) rfl rfl
    | some v =>
      rw [storeFill, ih (by omega), setCacheWord_icache, Bank.read_write]
      by_cases h : i.toNat / 4 = l.toNat ∧ i.toNat % 4 = k
      · rw [if_neg (by omega), if_pos (hplace.mpr h), if_pos (by omega), h.2, hv, Option.getD_some]
      · rw [if_neg (hplace.not.mpr h)]
        exact if_congr (by omega) rfl rfl

/-- A fill that went well (R155): one tag, the words from `k` on, and nothing else of the state. -/
theorem setTag_storeFill {l : BitVec 8} {tag : Word} {o : Nat → Option Word} {k : Nat} {c t : State} (hk : k < 4)
    (ht : t = setTag l tag (storeFill l ((List.range' k (4 - k)).map fun n => (BitVec.ofNat 2 n, o n)) c)) :
    t = { c with icache := t.icache } ∧ t.icache.tags = c.icache.tags.write l tag ∧
    ∀ i : BitVec 10, t.icache.data.read i =
      if i.toNat / 4 = l.toNat ∧ k ≤ i.toNat % 4 then (o (i.toNat % 4)).getD (c.icache.data.read i)
      else c.icache.data.read i := by
  subst ht
  refine ⟨?_, ?_, fun i => ?_⟩
  · rw [storeFill_frame]; rfl
  · rw [setTag_icache, storeFill_tags]
  · have hend : k + (4 - k) = 4 := by omega
    simp only [setTag_icache, read_storeFill l o (Nat.le_of_eq hend), hend, Nat.mod_lt _ (by decide : 0 < 4), and_true]

/-- A fill from word `k` at physical `p`, when the bus answers all its reads: one of them fails and the line is invalid, or the
words are stored. -/
theorem fillLine_answers {v : Word} {s : State} {k p : Nat} (hk : v.toNat / 4 % 4 = k) (hp : v.toNat % 2 ^ 29 = p)
    (hs : ∀ j < 4 - k, s.bus.answers.getD j .ram ≠ .silent) :
    ∃ u, FillRead p k (4 - k) s u ∧
      (fillFails p k (4 - k) s = true → fillLine v (physical v) s = .next (.fetchFault .ibe v,
        setTag (cacheLine v) (BitVec.ofNat 32 (p / 16 * 16 + 15)) (charge (Config.tIcacheFill (4 - k) (physical v)) u))) ∧
      (fillFails p k (4 - k) s = false → ∃ t,
        fillLine v (physical v) s = .next (.word (t.icache.data.read (cacheIndex (cacheLine v) (cacheWord v))), t) ∧
        t = setTag (cacheLine v) (BitVec.ofNat 32 (p / 16 * 16 + (2 ^ k - 1)))
          (storeFill (cacheLine v) ((List.range' k (4 - k)).map fun n => (BitVec.ofNat 2 n, fillAnswer p k n s))
            (charge (Config.tIcacheFill (4 - k) (physical v)) u))) := by
  have hlt : k < 4 := hk ▸ Nat.mod_lt _ (by decide)
  obtain ⟨u, hu, r⟩ := fillReads_answers (physical v) (k := k) (m := 4 - k) (by omega) hs
  rw [physical_toNat, hp] at hu r
  have hbits : 2 ^ k - 1 < 16 := by interval_cases k <;> decide
  have hbad : tagAddress (physical v) ||| Config.invalidTag = BitVec.ofNat 32 (p / 16 * 16 + 15) := hp ▸ tag_eq v (by decide)
  have hgood : tagAddress (physical v) ||| BitVec.ofNat 32 (2 ^ k - 1) = BitVec.ofNat 32 (p / 16 * 16 + (2 ^ k - 1)) :=
    hp ▸ tag_eq v hbits
  have hany : (((List.range' k (4 - k)).map fun n => (BitVec.ofNat 2 n, fillAnswer p k n s)).any fun r => r.2.isNone) =
      fillFails p k (4 - k) s := by
    simp only [fillFails, List.any_map, Function.comp_def]
  simp only [fillLine, fillWords_eq, invalidBelow_eq, cacheWord_toNat, hk, hu, andThen_next, hany, hbad, hgood, List.length_map,
    List.length_range']
  exact ⟨u, r, fun h => if_pos h, fun h => ⟨_, if_neg (h ▸ Bool.false_ne_true), rfl⟩⟩

/-! ### Cached fetches (R153 to R157) -/

/-- A cached fetch that is a miss is a fill. -/
theorem fetch_of_miss {v : Word} {s : State} (hf : fetchable v s) (hc : cacheable v s) (hm : fetchClass v s = some .miss) :
    fetch v s = fillLine v (physical v) s := by
  obtain ⟨hfetch, hclass⟩ := fetch_of_cacheable hf hc
  have hno : ¬ cacheHit v (physical v) s = true := fun hh => by
    rw [hm, if_pos hh] at hclass
    cases hclass
  rw [hfetch, cachedFetch, if_neg hno]

theorem fillFails_iff {p k m : Nat} {s : State} :
    fillFails p k m s = true ↔ ∃ n, k ≤ n ∧ n < k + m ∧ fillAnswer p k n s = none := by
  simp [fillFails, and_assoc]

/-- A word answered to a read of a fill: the bus was not silent there. -/
theorem not_silent_of_fillAnswer {p k n : Nat} {s : State} {w : Word} (h : fillAnswer p k n s = some w) :
    s.bus.answers.getD (n - k) .ram ≠ .silent := by
  intro hsil
  rw [fillAnswer, hsil] at h
  cases h

theorem BusReplies.getD_ne_silent {s : State} (h : BusReplies s) (j : Nat) : s.bus.answers.getD j .ram ≠ .silent := by
  rw [List.getD_eq_getElem?_getD]
  cases hj : s.bus.answers[j]? with
  | none => simp
  | some a => exact h a (List.mem_of_getElem? hj)

/-- The reads of a fill leave the cache alone. -/
theorem FillRead.icache {p k m : Nat} {s u : State} (r : FillRead p k m s u) : u.icache = s.icache := by rw [r.frame]

/-- What every fill does besides the cache: its calls, its cost and at most `bus_error`. -/
def FillDone (p k : Nat) (s t : State) : Prop :=
  t.bus =
    { mem := s.bus.mem
      answers := s.bus.answers.drop (4 - k)
      log := ((List.range (4 - k)).reverse.map fun j =>
        .read .fetch (BitVec.ofNat 32 (p / 16 * 16 + 4 * (k + j))) .word (fillAnswer p k (k + j) s)) ++ s.bus.log } ∧
  t.timing.pendingTicks = s.timing.pendingTicks + Config.tIcacheFill (4 - k) (BitVec.ofNat 32 p) ∧
  t = { s with
    icache := t.icache, bus := t.bus, flags := { s.flags with busError := t.flags.busError }
    timing := { s.timing with pendingTicks := t.timing.pendingTicks } }

/-- The reads, the cost and whatever the fill then does to the cache. -/
theorem FillRead.done {p k : Nat} {s u t : State} (r : FillRead p k (4 - k) s u)
    (ht : t = { charge (Config.tIcacheFill (4 - k) (BitVec.ofNat 32 p)) u with icache := t.icache }) :
    FillDone p k s t ∧ t.flags = u.flags := by
  have htiming : u.timing = s.timing := by rw [r.frame]
  rw [ht]
  refine ⟨⟨r.bus, ?_, ?_⟩, rfl⟩
  · rw [charge_timing, htiming]
  · rw [r.frame, r.flags]; rfl

section
variable {v : Word} {s : State} {k p : Nat} (hk : v.toNat / 4 % 4 = k) (hp : v.toNat % 2 ^ 29 = p)
include hk hp

/-- A fill all of whose reads are answered with a word caches the words and gives the one asked for. -/
theorem fillLine_words {w : Nat → Word} (hw : ∀ n, k ≤ n → n < 4 → fillAnswer p k n s = some (w n)) :
    ∃ t, fillLine v (physical v) s = .next (.word (w k), t) ∧ FillDone p k s t ∧ t.flags = s.flags ∧
      t.icache.tags = s.icache.tags.write (cacheLine v) (BitVec.ofNat 32 (p / 16 * 16 + (2 ^ k - 1))) ∧
      ∀ i : BitVec 10, t.icache.data.read i =
        if i.toNat / 4 = (cacheLine v).toNat ∧ k ≤ i.toNat % 4 then w (i.toNat % 4) else s.icache.data.read i := by
  have hlt : k < 4 := hk ▸ Nat.mod_lt _ (by decide)
  obtain ⟨u, r, -, hgood⟩ := fillLine_answers hk hp fun j hj => by
    have := not_silent_of_fillAnswer (hw (k + j) (by omega) (by omega))
    rwa [Nat.add_sub_cancel_left] at this
  have hok : fillFails p k (4 - k) s = false := by
    rw [← Bool.not_eq_true, fillFails_iff]
    rintro ⟨n, hkn, hn, hnone⟩
    rw [hw n hkn (by omega)] at hnone
    cases hnone
  obtain ⟨t, hfill, ht⟩ := hgood hok
  obtain ⟨hframe, htags, hdata⟩ := setTag_storeFill hlt ht
  rw [physical_eq, hp] at hframe
  obtain ⟨hdone, hflags⟩ := r.done hframe
  have hread : ∀ i : BitVec 10, t.icache.data.read i =
      if i.toNat / 4 = (cacheLine v).toNat ∧ k ≤ i.toNat % 4 then w (i.toNat % 4) else s.icache.data.read i := by
    intro i
    rw [hdata, charge_icache, r.icache]
    split
    · next h => rw [hw _ h.2 (Nat.mod_lt _ (by decide)), Option.getD_some]
    · rfl
  have hasked : (cacheIndex (cacheLine v) (cacheWord v)).toNat = 4 * (cacheLine v).toNat + k := by
    rw [cacheIndex_toNat, cacheWord_toNat, hk]
  refine ⟨t, ?_, hdone, ?_, by rw [htags, charge_icache, r.icache], hread⟩
  · rw [hfill, hread, hasked, if_pos (by omega), show (4 * (cacheLine v).toNat + k) % 4 = k by omega]
  · rw [hflags, r.flags, hok, Bool.or_false]

/-- A fill one of whose reads is answered with an error leaves the line invalid and gives an IBE marker. -/
theorem fillLine_error (hb : BusReplies s) (hbad : ∃ n, k ≤ n ∧ n < 4 ∧ fillAnswer p k n s = none) :
    ∃ t, fillLine v (physical v) s = .next (.fetchFault .ibe v, t) ∧ FillDone p k s t ∧ t.flags.busError = true ∧
      t.icache = { s.icache with tags := s.icache.tags.write (cacheLine v) (BitVec.ofNat 32 (p / 16 * 16 + 15)) } := by
  obtain ⟨u, r, hfail, -⟩ := fillLine_answers hk hp fun j _ => hb.getD_ne_silent j
  obtain ⟨n, hkn, hn, hnone⟩ := hbad
  have hfails : fillFails p k (4 - k) s = true := fillFails_iff.mpr ⟨n, hkn, by omega, hnone⟩
  refine ⟨_, hfail hfails, ?_⟩
  rw [physical_eq, hp]
  obtain ⟨hdone, hflags⟩ := r.done (t := setTag (cacheLine v) (BitVec.ofNat 32 (p / 16 * 16 + 15)) _) rfl
  refine ⟨hdone, ?_, ?_⟩
  · rw [hflags, r.flags, hfails, Bool.or_true]
  · rw [setTag_icache, charge_icache, r.icache]

end

/-- Settles O60: a miss is a fill, and either all its reads give a word or one fails. -/
theorem cacheFillByAnswers : Obligations.CacheFillByAnswers := by
  intro v s hf hc hmiss p line k filled
  have hline : cacheLine v = line := cacheLine_eq v
  rw [fetch_of_miss hf hc hmiss, ← hline]
  constructor
  · intro w hw
    obtain ⟨t, hfill, hdone, hflags, htags, hdata⟩ := fillLine_words rfl rfl hw
    refine ⟨t, hfill, hdone, hflags, fun l => ?_, hdata⟩
    rw [htags, Bank.read_write]
    exact if_congr eq_comm rfl rfl
  · intro hb hbad
    obtain ⟨t, hfill, hdone, herror, hcache⟩ := fillLine_error rfl rfl hb hbad
    refine ⟨t, hfill, hdone, herror, by rw [hcache], fun l => ?_⟩
    rw [hcache, Bank.read_write]
    exact if_congr eq_comm rfl rfl

/-- Settles O46: a bus without answers left answers as RAM, so O60's fill is one from memory. -/
theorem cacheFillFromRam : Obligations.CacheFillFromRam := by
  intro v s hf hc hmiss hram p line k
  have hk : k < 4 := Nat.mod_lt _ (by decide)
  obtain ⟨t, hfetch, ⟨hbus, hticks, hframe⟩, hflags, htags, hdata⟩ :=
    (cacheFillByAnswers v s hf hc hmiss).1 (fun n => readBytes s.bus.mem (p / 16 * 16 + 4 * n) .word) fun n _ _ => by
      rw [fillAnswer, hram]; rfl
  have hasked : p / 16 * 16 + 4 * k = p := by
    have haligned : v.toNat % 4 = 0 := hf.1
    omega
  have hword : readBytes s.bus.mem (p / 16 * 16 + 4 * k) .word = readBytes s.bus.mem p .word := by rw [hasked]
  refine ⟨t, hfetch.trans (by rw [← hword]), htags, hdata, hticks, ?_, ?_, ?_⟩
  · simp only [hbus, List.length_append, List.length_map, List.length_reverse, List.length_range]
    exact Nat.add_comm _ _
  · rw [hbus]
  · rw [hframe, hflags]

/-! ### A fill, then a hit (R154, R155, R157) -/

/-- A tag made for an address hits for it, but for the words its invalid bits name (R154). -/
theorem tag_hits (p : Word) (w : BitVec 2) :
    tagAddress (tagAddress p ||| invalidBelow w) = tagAddress p ∧ (tagAddress p ||| invalidBelow w).getLsbD w.toNat = false := by
  have hbits : 2 ^ w.toNat - 1 < 16 := by
    have := w.isLt
    interval_cases w.toNat <;> decide
  constructor
  · rw [invalidBelow_eq, ← BitVec.toNat_inj, tagAddress_toNat, tagAddress_or_toNat p hbits, tagAddress_toNat]
    omega
  · have words : ∀ x : BitVec 2, x = 0#2 ∨ x = 1#2 ∨ x = 2#2 ∨ x = 3#2 := by decide
    rcases words w with rfl | rfl | rfl | rfl <;> simp [tagAddress, invalidBelow]

/-- A fill that gave a word left that word in the cache, valid, and cost more than a hit. -/
theorem fillLine_hits {v w : Word} {s t : State} (h : fillLine v (physical v) s = .next (.word w, t)) :
    cacheHit v (physical v) t = true ∧ t.icache.data.read (cacheIndex (cacheLine v) (cacheWord v)) = w ∧
    s.timing.pendingTicks + Config.tIcacheHit < t.timing.pendingTicks := by
  simp only [fillLine, andThen_eq_next] at h
  obtain ⟨⟨rs, s1⟩, h1, h2⟩ := h
  obtain ⟨-, -, htiming, -⟩ := fillReads_done h1
  dsimp only at h2
  split at h2
  · cases h2
  · cases h2
    obtain ⟨haddr, hvalid⟩ := tag_hits (physical v) (cacheWord v)
    refine ⟨?_, rfl, ?_⟩
    · simp [cacheHit, haddr, hvalid]
    · rw [setTag_timing, storeFill_frame]
      simp only [charge_timing, htiming, Config.tIcacheFill]
      omega

/-- A cached fetch that hits gives the cached word and takes its cost. -/
theorem fetch_of_hit {v : Word} {s : State} (hf : fetchable v s) (hc : cacheable v s) (hh : cacheHit v (physical v) s = true) :
    fetchClass v s = some .hit ∧ fetch v s =
      .next (.word (s.icache.data.read (cacheIndex (cacheLine v) (cacheWord v))), charge Config.tIcacheHit s) := by
  obtain ⟨hfetch, hclass⟩ := fetch_of_cacheable hf hc
  exact ⟨by rw [hclass, if_pos hh], by rw [hfetch, cachedFetch, if_pos hh]⟩

/-- Settles O45: after a fill or a hit the word is in the cache, and the fetch again is a hit. -/
theorem cacheFillThenHit : Obligations.CacheFillThenHit := by
  intro v w s t hf hc hfetch
  have hframe := (fetch_done hfetch).fetched.frame
  have hft : fetchable v t := by rw [hframe]; exact hf
  have hct : cacheable v t := by rw [hframe]; exact hc
  cases hh : cacheHit v (physical v) s with
  | true =>
    obtain ⟨hclass, hhit⟩ := fetch_of_hit hf hc hh
    rw [hhit] at hfetch
    cases hfetch
    obtain ⟨hclass', hagain⟩ := fetch_of_hit hft hct hh
    exact ⟨hclass', hagain, by simp [hclass], fun _ => rfl⟩
  | false =>
    obtain ⟨-, hclass⟩ := fetch_of_cacheable hf hc
    have hmiss : fetchClass v s = some .miss := by rw [hclass, hh, if_neg Bool.false_ne_true]
    rw [fetch_of_miss hf hc hmiss] at hfetch
    obtain ⟨hhit, hword, hcost⟩ := fillLine_hits hfetch
    obtain ⟨hclass', hagain⟩ := fetch_of_hit hft hct hhit
    rw [hword] at hagain
    exact ⟨hclass', hagain, fun _ => hcost, by simp [hmiss]⟩

end Sys2Proof.Machine

/-! The family of 30_encoding.md: the decoder undoes the encoder (O37, O38), REGIMM (O36), sample words (O39), and the words
outside the table (O35). -/

namespace Sys2Proof

/-! ### Fields, by arithmetic (R171 to R174) -/

theorem field_eq_ofNat (w : Word) (start len : Nat) : w.extractLsb' start len = BitVec.ofNat len (w.toNat / 2 ^ start) := by
  rw [BitVec.extractLsb', Nat.shiftRight_eq_div_pow]

theorem fieldOp_eq (w : Word) : fieldOp w = BitVec.ofNat 6 (w.toNat / 2 ^ 26) := field_eq_ofNat w 26 6

theorem fieldRs_eq (w : Word) : fieldRs w = BitVec.ofNat 5 (w.toNat / 2 ^ 21) := field_eq_ofNat w 21 5

theorem fieldCopNumber_eq (w : Word) : fieldCopNumber w = BitVec.ofNat 2 (w.toNat / 2 ^ 26) := field_eq_ofNat w 26 2

theorem fieldRs_toNat (w : Word) : (fieldRs w).toNat = w.toNat / 2 ^ 21 % 32 := by
  rw [fieldRs_eq, BitVec.toNat_ofNat]

theorem fieldRt_toNat (w : Word) : (fieldRt w).toNat = w.toNat / 2 ^ 16 % 32 := by
  rw [fieldRt, field_eq_ofNat, BitVec.toNat_ofNat]

theorem fieldFunct_toNat (w : Word) : (fieldFunct w).toNat = w.toNat % 64 := by
  simp [fieldFunct, BitVec.extractLsb'_toNat]

theorem fieldFunct_eq (w : Word) : fieldFunct w = BitVec.ofNat 6 (w.toNat % 64) := by
  rw [← fieldFunct_toNat, BitVec.ofNat_toNat, BitVec.setWidth_eq]

theorem fieldImm_eq (w : Word) : fieldImm w = BitVec.ofNat 16 w.toNat := by
  rw [fieldImm, field_eq_ofNat, Nat.pow_zero, Nat.div_one]

/-- The CO bit is bit 25. -/
theorem fieldCo_eq_one_iff (w : Word) : fieldCo w = 1#1 ↔ w.getLsbD 25 = true := by
  have hbit : (fieldCo w).getLsbD 0 = w.getLsbD 25 := by simp [fieldCo]
  have bits : ∀ b : BitVec 1, b = 1#1 ↔ b.getLsbD 0 = true := by decide
  rw [bits, hbit]

/-! ### The decoder, by primary opcode (R177) -/

theorem decodeWord_of_special {w : Word} (h : fieldOp w = 0x00#6) : decodeWord w = decodeSpecial w := by
  rw [decodeWord, h]; rfl

theorem decodeWord_of_regimm {w : Word} (h : fieldOp w = 0x01#6) : decodeWord w = .ok (decodeRegimm w) := by
  rw [decodeWord, h]; rfl

theorem decodeWord_of_cop0 {w : Word} (h : fieldOp w = 0x10#6) : decodeWord w = decodeCop0 w := by
  rw [decodeWord, h]; rfl

theorem decodeWord_of_cop2 {w : Word} (h : fieldOp w = 0x12#6) : decodeWord w = decodeCop2 w := by
  rw [decodeWord, h]; rfl

/-! ### The decoder undoes the encoder -/

/-- The decoder reads every operand of a well-formed instruction back from its word. -/
theorem decodeWord_encode {i : Instr} (h : i.wellFormed = true) : decodeWord (encode i) = .ok i := by
  cases i with
  | j | jal | beq | bne | blez | bgtz | addi | addiu | slti | sltiu | andi | ori | xori | lui
  | lb | lh | lwl | lw | lbu | lhu | lwr | sb | sh | swl | sw | swr => simp [encode, decodeWord]
  | lwc2 g | swc2 g => simp [encode, decodeWord, gteData_gteField g h]
  | bltz | bgez | bltzal | bgezal => simp [encode, decodeWord_of_regimm, decodeRegimm]
  | mfc0 | mtc0 | rfe => simp [encode, decodeWord_of_cop0, decodeCop0]
  | mfc2 _ g | mtc2 _ g => simp [encode, decodeWord_of_cop2, decodeCop2, gteData_gteField g h]
  | cfc2 _ g | ctc2 _ g => simp [encode, decodeWord_of_cop2, decodeCop2, gteControl_gteField g h]
  | cop2 => simp [encode, decodeWord_of_cop2, decodeCop2]
  | _ => simp [encode, decodeWord_of_special, decodeSpecial]

/-- The decoder on a word's bytes is the decoder on the word (R170). -/
theorem decode_bytesOfWord (w : Word) (rest : List Byte) :
    decode (bytesOfWord w ++ rest) = (decodeWord w).map fun i => (i, rest) := by
  simp only [bytesOfWord, List.cons_append, List.nil_append, decode, wordOfBytes_of_word]
  cases decodeWord w <;> rfl

/-- Settles O37: the bytes are those of the word, and the word decodes to its instruction. -/
theorem decodeEncodeRoundTrip : Obligations.DecodeEncodeRoundTrip := by
  intro i rest h
  rw [encodeBytes, decode_bytesOfWord, decodeWord_encode h, Except.map]

/-! ### What a word decodes to is well formed (R176) -/

@[simp] theorem gteData_isData : ∀ n : BitVec 5, (gteData n).isData = true := by decide

@[simp] theorem gteControl_isControl : ∀ n : BitVec 5, (gteControl n).isControl = true := by decide

theorem decodeSpecial_wellFormed {w : Word} {i : Instr} (h : decodeSpecial w = .ok i) : i.wellFormed = true := by
  unfold decodeSpecial at h
  split at h <;> cases h <;> rfl

theorem decodeRegimm_wellFormed (w : Word) : (decodeRegimm w).wellFormed = true := by
  unfold decodeRegimm
  split
  · rfl
  · rfl
  · split <;> rfl

theorem decodeCop0_wellFormed {w : Word} {i : Instr} (h : decodeCop0 w = .ok i) : i.wellFormed = true := by
  unfold decodeCop0 at h
  split at h <;> split at h <;> cases h <;> rfl

theorem decodeCop2_wellFormed {w : Word} {i : Instr} (h : decodeCop2 w = .ok i) : i.wellFormed = true := by
  unfold decodeCop2 at h
  split at h
  · cases h; rfl
  · split at h <;> cases h <;> simp [Instr.wellFormed]

theorem decodeWord_wellFormed {w : Word} {i : Instr} (h : decodeWord w = .ok i) : i.wellFormed = true := by
  unfold decodeWord at h
  split at h
  · exact decodeSpecial_wellFormed h
  · cases h; exact decodeRegimm_wellFormed w
  case h_17 => exact decodeCop0_wellFormed h
  case h_18 => exact decodeCop2_wellFormed h
  all_goals cases h <;> simp [Instr.wellFormed]

/-- Settles O38: what a word decodes to is well formed, so O37's round trip applies to it. -/
theorem decodedInstructionsWellFormed : Obligations.DecodedInstructionsWellFormed := fun _ _ h =>
  have hwf := decodeWord_wellFormed h
  ⟨hwf, decodeWord_encode hwf⟩

/-! ### REGIMM and sample words (R171 to R181) -/

/-- A REGIMM word links exactly when the upper four bits of `rt` are 0b1000; the lowest selects the condition (R179). -/
theorem decodeRegimm_eq (w : Word) : decodeRegimm w =
    if (fieldRt w).toNat / 2 = 8 then
      (if (fieldRt w).getLsbD 0 = true then .bgezal (fieldRs w) (fieldImm w) else .bltzal (fieldRs w) (fieldImm w))
    else if (fieldRt w).getLsbD 0 = true then .bgez (fieldRs w) (fieldImm w) else .bltz (fieldRs w) (fieldImm w) := by
  unfold decodeRegimm
  split
  · next hrt => simp [hrt]
  · next hrt => simp [hrt]
  · next hbltzal hbgezal =>
    have hplain : fieldRt w ≠ 0x10#5 ∧ fieldRt w ≠ 0x11#5 := ⟨hbltzal, hbgezal⟩
    have hlink : (fieldRt w).toNat / 2 ≠ 8 := by bv_omega
    rw [if_neg hlink]

/-- Settles O36: bits 20:17 are the upper four bits of `rt`, bit 16 its lowest. -/
theorem regimmSelectsBranch : Obligations.RegimmSelectsBranch := by
  intro w hop
  have hlink : (fieldRt w).toNat / 2 = w.toNat / 2 ^ 17 % 16 := by rw [fieldRt_toNat]; omega
  have hcond : (fieldRt w).getLsbD 0 = w.getLsbD 16 := by simp [fieldRt]
  rw [decodeWord_of_regimm (by rw [fieldOp_eq, hop]), decodeRegimm_eq, hlink, hcond, fieldRs_eq, fieldImm_eq]

/-- Settles O39, by running the decoder on each word. -/
theorem sampleWordsDecode : Obligations.SampleWordsDecode :=
  ⟨rfl, rfl, rfl, rfl, rfl, rfl, rfl, rfl, rfl, rfl, rfl, rfl, rfl, rfl⟩

/-! ### Words that decode to no instruction (R182, R184 to R187) -/

theorem decodeWord_reservedPrimary {w : Word}
    (h : w.toNat / 2 ^ 26 ∈ [0x14, 0x15, 0x16, 0x17, 0x18, 0x19, 0x1A, 0x1B, 0x1C, 0x1D, 0x1E, 0x1F, 0x27, 0x2C, 0x2D, 0x2F, 0x34,
      0x35, 0x36, 0x37, 0x3C, 0x3D, 0x3E, 0x3F]) : decodeWord w = .error .reservedPrimary := by
  rw [decodeWord, fieldOp_eq]
  generalize w.toNat / 2 ^ 26 = op at h
  fin_cases h <;> rfl

theorem decodeSpecial_unassigned {w : Word}
    (h : w.toNat % 64 ∈ [0x01, 0x05, 0x0A, 0x0B, 0x0E, 0x0F, 0x14, 0x15, 0x16, 0x17, 0x1C, 0x1D, 0x1E, 0x1F, 0x28, 0x29, 0x2C, 0x2D,
      0x2E, 0x2F, 0x30, 0x31, 0x32, 0x33, 0x34, 0x35, 0x36, 0x37, 0x38, 0x39, 0x3A, 0x3B, 0x3C, 0x3D, 0x3E, 0x3F]) :
    decodeSpecial w = .error .unassignedSpecial := by
  rw [decodeSpecial, fieldFunct_eq]
  generalize w.toNat % 64 = funct at h
  fin_cases h <;> rfl

theorem decodeCop0_unassigned {w : Word}
    (h : (w.getLsbD 25 = true ∧ w.toNat % 64 ≠ 0x10) ∨
      (w.getLsbD 25 = false ∧ w.toNat / 2 ^ 21 % 32 ≠ 0x00 ∧ w.toNat / 2 ^ 21 % 32 ≠ 0x04)) :
    decodeCop0 w = .error .unassignedCop0 := by
  simp only [← fieldFunct_toNat, ← fieldRs_toNat] at h
  simp only [decodeCop0, fieldCo_eq_one_iff]
  rcases h with ⟨hco, hfunct⟩ | ⟨hco, hmfc0, hmtc0⟩
  · rw [if_pos hco, if_neg]
    bv_omega
  · rw [if_neg (ne_true_of_eq_false hco)]
    split
    · next hrs => simp [hrs] at hmfc0
    · next hrs => simp [hrs] at hmtc0
    · rfl

theorem decodeCop2_unassigned {w : Word} (hco : w.getLsbD 25 = false) (hmfc2 : w.toNat / 2 ^ 21 % 32 ≠ 0x00)
    (hcfc2 : w.toNat / 2 ^ 21 % 32 ≠ 0x02) (hmtc2 : w.toNat / 2 ^ 21 % 32 ≠ 0x04) (hctc2 : w.toNat / 2 ^ 21 % 32 ≠ 0x06) :
    decodeCop2 w = .error .unassignedCop2 := by
  simp only [← fieldRs_toNat] at hmfc2 hcfc2 hmtc2 hctc2
  rw [decodeCop2, if_neg ((fieldCo_eq_one_iff w).not.mpr (ne_true_of_eq_false hco))]
  split
  · next hrs => simp [hrs] at hmfc2
  · next hrs => simp [hrs] at hcfc2
  · next hrs => simp [hrs] at hmtc2
  · next hrs => simp [hrs] at hctc2
  · rfl

theorem decodeWord_absentCoprocessor {w : Word}
    (h : w.toNat / 2 ^ 26 ∈ [0x11, 0x13, 0x30, 0x31, 0x33, 0x38, 0x39, 0x3B]) :
    decodeWord w = .error (.absentCoprocessor (BitVec.ofNat 2 (w.toNat / 2 ^ 26))) := by
  rw [← fieldCopNumber_eq, decodeWord, fieldOp_eq]
  generalize w.toNat / 2 ^ 26 = op at h
  fin_cases h <;> rfl

end Sys2Proof

namespace Sys2Proof.Machine

/-! ### What the core does with them (R190; 44_system.md R330, R355, R368) -/

/-- The usability check passes exactly where the coprocessor may be used (44_system.md R330). -/
theorem copUsable_iff {z : BitVec 2} {s : State} : copUsable z s = true ↔ copAllowed z s := by
  have numbers : ∀ z : BitVec 2, z = 0#2 ∨ z = 1#2 ∨ z = 2#2 ∨ z = 3#2 := by decide
  rcases numbers z with rfl | rfl | rfl | rfl <;>
    simp [copUsable, copAllowed, cop0Allowed, copEnabled, userMode]

/-- Where the coprocessor may not be used, CpU with its number is raised (44_system.md R330). -/
theorem withCop_raises {z : BitVec 2} {s : State} (k : State → Res) (hz : ¬ copAllowed z s) (hb : BusReplies s) :
    ∃ t, withCop z s k = .next t ∧ Raised 11 z s t := by
  rw [withCop_unusable (by rwa [← Bool.not_eq_true, copUsable_iff])]
  exact raiseWithCe_completes .cpu z hb

/-- A current word that decodes to no instruction is handled by why it does not. -/
theorem executeCurrent_of_reject {s : State} {w : Word} {r : Reject} (hw : s.pipe.currentInstruction = .word w)
    (hr : decodeWord w = .error r) : executeCurrent s = executeUnassigned r s := by
  simp only [executeCurrent, hw, hr]

/-- Settles O35: each clause's words are rejected for one reason, and `executeUnassigned` answers it. -/
theorem wordsOutsideTheTable : Obligations.WordsOutsideTheTable := by
  intro s w hw hb
  refine ⟨fun hop => ?_, fun hop hfunct => ?_, fun hop hword => ?_, fun hop hco h0 h2 h4 h6 => ?_, fun hop => ?_⟩
  · rw [executeCurrent_of_reject hw (decodeWord_reservedPrimary hop)]
    exact raiseException_completes .ri hb
  · have hreject := decodeSpecial_unassigned hfunct
    rw [← decodeWord_of_special (by rw [fieldOp_eq, hop])] at hreject
    rw [executeCurrent_of_reject hw hreject]
    exact raiseException_completes .ri hb
  · have hreject := decodeCop0_unassigned hword
    rw [← decodeWord_of_cop0 (by rw [fieldOp_eq, hop])] at hreject
    rw [executeCurrent_of_reject hw hreject, executeUnassigned]
    refine ⟨fun hz => ?_, fun hz => withCop_raises _ hz hb⟩
    rw [withCop_usable (copUsable_iff (z := 0#2).mpr hz)]
    exact raiseException_completes .ri hb
  · have hreject := decodeCop2_unassigned hco h0 h2 h4 h6
    rw [← decodeWord_of_cop2 (by rw [fieldOp_eq, hop])] at hreject
    rw [executeCurrent_of_reject hw hreject, executeUnassigned]
    exact ⟨fun hz => withCop_usable (copUsable_iff.mpr hz), fun hz => withCop_raises _ hz hb⟩
  · rw [executeCurrent_of_reject hw (decodeWord_absentCoprocessor hop), executeUnassigned]
    exact ⟨fun hz => withCop_usable (copUsable_iff.mpr hz), fun hz => withCop_raises _ hz hb⟩

end Sys2Proof.Machine

/-! The family of 40_alu.md: wrapping and trapping arithmetic (O1 to O3), logic (O4), comparisons (O5), LUI and the shifts (O6). -/

namespace Sys2Proof.Machine

/-! ### Instructions that write one register (40_alu.md R200) -/

/-- An instruction whose whole effect is one `WriteReg` has done what R507 says for that value, however it is written. -/
theorem exec_wrote {i : Instr} {rd : RegNum} {v v' : Word} {s : State} (hexec : exec i s = .next (writeReg rd v s))
    (hv : v = v') : ∃ t, exec i s = .next t ∧ WroteReg rd v' s t :=
  ⟨writeReg rd v s, hexec, hv ▸ writeReg_wrote rd v s⟩

/-- The same, for a value that is known by a property. -/
theorem exec_wrote_such_that {i : Instr} {rd : RegNum} {v : Word} {s : State} {P : Word → Prop}
    (hexec : exec i s = .next (writeReg rd v s)) (hv : P v) : ∃ t v, exec i s = .next t ∧ WroteReg rd v s t ∧ P v :=
  ⟨writeReg rd v s, v, hexec, writeReg_wrote rd v s, hv⟩

/-! ### Immediates and amounts, by arithmetic (30_encoding.md R175) -/

@[simp] theorem signExtImm_toInt (imm : BitVec 16) : (signExtImm imm).toInt = imm.toInt :=
  BitVec.toInt_signExtend_of_le (by decide)

/-- Read as unsigned, the sign-extended immediate is the signed one modulo 2^32. -/
theorem signExtImm_toNat (imm : BitVec 16) : ((signExtImm imm).toNat : Int) = imm.toInt % 2 ^ 32 := by
  have hnonneg : 0 ≤ imm.toInt % 2 ^ 32 := Int.emod_nonneg _ (by decide)
  rw [signExtImm, BitVec.signExtend, BitVec.toNat_ofInt]
  exact Int.toNat_of_nonneg hnonneg

@[simp] theorem zeroExtImm_getLsbD (imm : BitVec 16) (k : Nat) : (zeroExtImm imm).getLsbD k = imm.getLsbD k := by
  rw [zeroExtImm, BitVec.getLsbD_setWidth, Bool.and_eq_right_iff_imp, decide_eq_true_iff]
  exact fun hbit => (BitVec.lt_of_getLsbD hbit).trans (by decide)

theorem upperImm_eq (imm : BitVec 16) : upperImm imm = BitVec.ofNat 32 (imm.toNat * 2 ^ 16) := by
  have happend : (upperImm imm).toNat = imm.toNat <<< 16 ||| 0 := BitVec.toNat_append imm 0#16
  rw [← Nat.shiftLeft_eq, ← Nat.or_zero (_ <<< _), ← happend, BitVec.ofNat_toNat, BitVec.setWidth_eq]

theorem variableAmount_eq (rs : RegNum) (s : State) : variableAmount rs s = (readReg rs s).toNat % 32 := by
  simp [variableAmount, BitVec.extractLsb'_toNat]

/-! ### Sums and differences (R201 to R205, R212, R213) -/

theorem sub_eq_ofInt (a b : Word) : a - b = BitVec.ofInt 32 (a.toInt - b.toInt) := by
  rw [Int.sub_eq_add_neg, BitVec.ofInt_add, BitVec.ofInt_neg, BitVec.ofInt_toInt, BitVec.ofInt_toInt, BitVec.sub_eq_add_neg]

theorem add_signExtImm_eq_ofInt (a : Word) (imm : BitVec 16) : a + signExtImm imm = BitVec.ofInt 32 (a.toInt + imm.toInt) := by
  rw [BitVec.ofInt_add, BitVec.ofInt_toInt, signExtImm, BitVec.signExtend]

/-- The instructions trap exactly where the exact integer is no signed 32-bit value (R202). -/
theorem overflows_eq_false_iff (x : Int) : overflows x = false ↔ signedRange x := by
  simp only [overflows, signedRange, Bool.or_eq_false_iff, decide_eq_false_iff_not, not_lt]

theorem writeOrTrap_in_range {rd : RegNum} {x : Int} {s : State} (h : signedRange x) :
    writeOrTrap rd x s = .next (writeReg rd (BitVec.ofInt 32 x) s) := by
  rw [writeOrTrap, if_neg]
  rwa [Bool.not_eq_true, overflows_eq_false_iff]

theorem writeOrTrap_out_of_range {rd : RegNum} {x : Int} {s : State} (h : ¬ signedRange x) :
    writeOrTrap rd x s = raiseException .ov s := by
  rw [writeOrTrap, if_pos]
  rwa [← Bool.not_eq_false, overflows_eq_false_iff]

/-- ADDI traps on the immediate's own sum: sign extension keeps its value (R212). -/
theorem exec_addi (rt rs : RegNum) (imm : BitVec 16) (s : State) :
    exec (.addi rt rs imm) s = writeOrTrap rt ((readReg rs s).toInt + imm.toInt) s := by
  rw [← signExtImm_toInt]; rfl

/-- Settles O1: the operations on words are those on integers, cut to 32 bits. -/
theorem wrappingArithmetic : Obligations.WrappingArithmetic := fun _ _ _ _ _ =>
  ⟨exec_wrote rfl (BitVec.add_def _ _), exec_wrote rfl (sub_eq_ofInt _ _), exec_wrote rfl (add_signExtImm_eq_ofInt _ _)⟩

/-- Settles O2: in range, a trapping instruction is the one register write. -/
theorem trappingArithmeticResult : Obligations.TrappingArithmeticResult := fun _ _ _ _ _ =>
  ⟨fun h => exec_wrote (writeOrTrap_in_range h) rfl, fun h => exec_wrote (writeOrTrap_in_range h) rfl,
    fun h => exec_wrote ((exec_addi _ _ _ _).trans (writeOrTrap_in_range h)) rfl⟩

/-- An instruction that traps has entered the handler with Ov, whatever its destination (60_exceptions.md R420). -/
theorem exec_raises_ov {i : Instr} {rd : RegNum} {x : Int} {s : State} (hexec : exec i s = writeOrTrap rd x s)
    (hx : ¬ signedRange x) (hb : BusReplies s) : ∃ t, exec i s = .next t ∧ Raised 12 (reportedCop s) s t := by
  rw [hexec, writeOrTrap_out_of_range hx]
  exact raiseException_completes .ov hb

/-- Settles O3: out of range, a trapping instruction is exception entry from `s` itself. -/
theorem trappingArithmeticOverflow : Obligations.TrappingArithmeticOverflow := fun _ rd _ rt _ hb =>
  ⟨fun h => exec_raises_ov (rd := rd) rfl h hb, fun h => exec_raises_ov (rd := rd) rfl h hb,
    fun h => exec_raises_ov (rd := rt) (exec_addi _ _ _ _) h hb⟩

/-! ### Logic (R206 to R209, R216 to R218) -/

/-- Settles O4, bit by bit; a zero-extended immediate has the immediate's bits. -/
theorem bitwiseLogic : Obligations.BitwiseLogic := by
  intro s rd rs rt imm
  refine ⟨exec_wrote_such_that rfl fun k => ?and, exec_wrote_such_that rfl fun k => ?or, exec_wrote_such_that rfl fun k => ?xor,
    exec_wrote_such_that rfl fun k hk => ?nor, exec_wrote_such_that rfl fun k => ?andi, exec_wrote_such_that rfl fun k => ?ori,
    exec_wrote_such_that rfl fun k => ?xori⟩
  case and => exact BitVec.getLsbD_and
  case or => exact BitVec.getLsbD_or
  case xor => exact BitVec.getLsbD_xor
  case nor => simp [hk]
  case andi => rw [BitVec.getLsbD_and, zeroExtImm_getLsbD]
  case ori => rw [BitVec.getLsbD_or, zeroExtImm_getLsbD]
  case xori => rw [BitVec.getLsbD_xor, zeroExtImm_getLsbD]

/-! ### Comparisons (R210, R211, R214, R215) -/

theorem boolWord_decide (p : Prop) [Decidable p] : boolWord (decide p) = if p then 1#32 else 0#32 := by
  simp only [boolWord, decide_eq_true_iff]

theorem boolWord_lessSigned (a b : Word) : boolWord (lessSigned a b) = if a.toInt < b.toInt then 1#32 else 0#32 :=
  boolWord_decide _

theorem boolWord_lessUnsigned (a b : Word) : boolWord (lessUnsigned a b) = if a.toNat < b.toNat then 1#32 else 0#32 :=
  boolWord_decide _

/-- Settles O5: SLTIU compares with the sign-extended immediate read as unsigned. -/
theorem setOnLessThan : Obligations.SetOnLessThan := by
  intro s rd rs rt imm
  refine ⟨exec_wrote rfl (boolWord_lessSigned _ _), exec_wrote rfl (boolWord_lessUnsigned _ _), exec_wrote rfl ?slti,
    exec_wrote rfl ?sltiu⟩
  case slti => rw [boolWord_lessSigned, signExtImm_toInt]
  case sltiu => simp only [boolWord_lessUnsigned, ← signExtImm_toNat, Nat.cast_lt]

/-! ### Shifts (R219 to R225) -/

theorem shiftLeft_eq_ofNat (a : Word) (n : Nat) : a <<< n = BitVec.ofNat 32 (a.toNat * 2 ^ n) := by
  rw [← Nat.shiftLeft_eq]; rfl

theorem ushiftRight_eq_ofNat (a : Word) (n : Nat) : a >>> n = BitVec.ofNat 32 (a.toNat / 2 ^ n) := by
  rw [← Nat.shiftRight_eq_div_pow, ← BitVec.toNat_ushiftRight, BitVec.ofNat_toNat, BitVec.setWidth_eq]

theorem sshiftRight_eq_ofInt (a : Word) (n : Nat) : a.sshiftRight n = BitVec.ofInt 32 (a.toInt / 2 ^ n) := by
  rw [BitVec.sshiftRight, Int.shiftRight_eq_div_pow]; norm_cast

/-- Settles O6. The variable shifts are the others at the amount modulo 32, so each law is used twice. -/
theorem shiftsAndUpperImmediate : Obligations.ShiftsAndUpperImmediate := fun _ _ _ _ _ _ =>
  ⟨exec_wrote rfl (upperImm_eq _), exec_wrote rfl (shiftLeft_eq_ofNat _ _), exec_wrote rfl (ushiftRight_eq_ofNat _ _),
    exec_wrote rfl (sshiftRight_eq_ofInt _ _), exec_wrote rfl (variableAmount_eq _ _ ▸ shiftLeft_eq_ofNat _ _),
    exec_wrote rfl (variableAmount_eq _ _ ▸ ushiftRight_eq_ofNat _ _),
    exec_wrote rfl (variableAmount_eq _ _ ▸ sshiftRight_eq_ofInt _ _)⟩

end Sys2Proof.Machine

/-! The family of 41_muldiv.md: products (O7), signed and unsigned division (O8, O9), the HI and LO moves (O10). -/

namespace Sys2Proof.Machine

/-! ### The unit's result (R251) -/

@[simp] theorem finishMulDiv_hi (op : MulDivOp) (a b hi lo : Word) (s : State) : (finishMulDiv op a b hi lo s).hi = hi := rfl

@[simp] theorem finishMulDiv_lo (op : MulDivOp) (a b hi lo : Word) (s : State) : (finishMulDiv op a b hi lo s).lo = lo := rfl

/-- The unit writes HI and LO at its cost, whatever the result. -/
theorem finishMulDiv_unitWrote {op : MulDivOp} {rs rt : RegNum} {hi lo : Word} {s : State} :
    UnitWrote op rs rt s (finishMulDiv op (readReg rs s) (readReg rt s) hi lo s) := rfl

/-! ### Products (R252, R253) -/

/-- HI and LO of a product, put together again. -/
theorem productHalves_append (p : BitVec 64) : p.extractLsb' 32 32 ++ p.extractLsb' 0 32 = p :=
  (BitVec.extractLsb'_append_extractLsb'_eq_extractLsb' (by rfl)).trans BitVec.extractLsb'_eq_self

theorem productHalves_toInt (p : BitVec 64) :
    (p.extractLsb' 32 32).toInt * 2 ^ 32 + (p.extractLsb' 0 32).toNat = p.toInt := by
  conv_rhs => rw [← productHalves_append p, BitVec.toInt_append, if_neg (by decide), mul_comm]

theorem productHalves_toNat (p : BitVec 64) :
    (p.extractLsb' 32 32).toNat * 2 ^ 32 + (p.extractLsb' 0 32).toNat = p.toNat := by
  conv_rhs => rw [← productHalves_append p]
  rw [BitVec.toNat_append, ← Nat.shiftLeft_add_eq_or_of_lt (BitVec.isLt _), Nat.shiftLeft_eq]

/-- No signed product of two words leaves 64 bits: it is at most 2^62 in size. -/
theorem signedProduct_toInt (a b : Word) : (a.signExtend 64 * b.signExtend 64).toInt = a.toInt * b.toInt := by
  have hlow : -2 ^ 62 ≤ a.toInt * b.toInt := BitVec.le_toInt_mul_toInt
  have hhigh : a.toInt * b.toInt ≤ 2 ^ 62 := BitVec.toInt_mul_toInt_le
  rw [BitVec.toInt_mul, BitVec.toInt_signExtend_of_le (by decide), BitVec.toInt_signExtend_of_le (by decide)]
  exact Int.bmod_eq_of_le (by omega) (by omega)

/-- No unsigned product of two words leaves 64 bits. -/
theorem unsignedProduct_toNat (a b : Word) : (a.setWidth 64 * b.setWidth 64).toNat = a.toNat * b.toNat := by
  have hfits : a.toNat * b.toNat < 2 ^ 32 * 2 ^ 32 := Nat.mul_lt_mul'' a.isLt b.isLt
  have hwide (v : Word) : (v.setWidth 64).toNat = v.toNat := BitVec.toNat_setWidth_of_le (by decide)
  rw [BitVec.toNat_mul, hwide, hwide]
  exact Nat.mod_eq_of_lt hfits

/-- Settles O7: HI and LO are the halves of a 64-bit product that does not wrap. -/
theorem multiplyProducts : Obligations.MultiplyProducts := by
  intro s rs rt
  refine ⟨⟨_, rfl, finishMulDiv_unitWrote, ?mult⟩, ⟨_, rfl, finishMulDiv_unitWrote, ?multu⟩⟩
  case mult => exact (productHalves_toInt _).trans (signedProduct_toInt _ _)
  case multu => exact (productHalves_toNat _).trans (unsignedProduct_toNat _ _)

/-! ### Signed division (R254) -/

/-- The one quotient that is no signed word is written by its bit patterns in the model and by its integers in R254. -/
theorem quotientOverflows_iff (a b : Word) :
    (a = 0x80000000#32 ∧ b = 0xFFFFFFFF#32) ↔ (a.toInt = -2 ^ 31 ∧ b.toInt = -1) := by
  rw [← BitVec.toInt_inj, ← BitVec.toInt_inj]
  rfl

theorem signedQuotient_zero {a b : Word} (hb : b.toInt = 0) :
    signedQuotient a b = if 0 ≤ a.toInt then 0xFFFFFFFF#32 else 1#32 := if_pos hb

theorem signedRemainder_zero {a b : Word} (hb : b.toInt = 0) : signedRemainder a b = a := if_pos hb

section
variable {a b : Word} (ha : a.toInt = -2 ^ 31) (hb : b.toInt = -1)
include ha hb

theorem signedQuotient_overflow : signedQuotient a b = 0x80000000#32 := by
  obtain ⟨rfl, rfl⟩ := (quotientOverflows_iff a b).mpr ⟨ha, hb⟩
  rfl

theorem signedRemainder_overflow : signedRemainder a b = 0#32 := by
  obtain ⟨rfl, rfl⟩ := (quotientOverflows_iff a b).mpr ⟨ha, hb⟩
  rfl

end

section
variable {a b : Word} (hb : b.toInt ≠ 0) (hfits : ¬ (a.toInt = -2 ^ 31 ∧ b.toInt = -1))
include hb hfits

/-- Outside the corner cases LO is the exact quotient, rounded toward zero: `sdiv` wraps for -2^31 / -1 only. -/
theorem signedQuotient_toInt : (signedQuotient a b).toInt = a.toInt.tdiv b.toInt := by
  rw [← quotientOverflows_iff] at hfits
  have hsdiv : (a.sdiv b).toInt = a.toInt.tdiv b.toInt := BitVec.toInt_sdiv_of_ne_or_ne a b (not_and_or.mp hfits)
  rw [signedQuotient, if_neg hb, if_neg hfits, ← hsdiv, BitVec.ofInt_toInt]

/-- Outside the corner cases HI is the exact remainder. -/
theorem signedRemainder_toInt : (signedRemainder a b).toInt = a.toInt.tmod b.toInt := by
  rw [← quotientOverflows_iff] at hfits
  rw [signedRemainder, if_neg hb, if_neg hfits, ← BitVec.toInt_srem, BitVec.ofInt_toInt]

end

/-- A remainder of rounding toward zero is zero or has the dividend's sign. -/
theorem tmod_mul_dividend_nonneg (x y : Int) : 0 ≤ x.tmod y * x := by
  rcases le_total 0 x with hx | hx
  · exact mul_nonneg (Int.tmod_nonneg y hx) hx
  · have hneg : 0 ≤ (-x).tmod y := Int.tmod_nonneg y (neg_nonneg.mpr hx)
    rw [Int.neg_tmod, neg_nonneg] at hneg
    exact mul_nonneg_of_nonpos_of_nonpos hneg hx

theorem natAbs_tmod_lt_natAbs (x : Int) {y : Int} (hy : y ≠ 0) : (x.tmod y).natAbs < y.natAbs := by
  rw [Int.natAbs_tmod]
  exact Nat.mod_lt _ (Int.natAbs_pos.mpr hy)

/-- Settles O8: the two corner cases, and otherwise the integers' own division toward zero. -/
theorem signedDivision : Obligations.SignedDivision := by
  intro s rs rt
  refine ⟨_, rfl, finishMulDiv_unitWrote, fun hb => ⟨signedRemainder_zero hb, signedQuotient_zero hb⟩,
    fun ha hb => ⟨signedRemainder_overflow ha hb, signedQuotient_overflow ha hb⟩, fun hb hfits => ?_⟩
  rw [finishMulDiv_hi, finishMulDiv_lo, signedQuotient_toInt hb hfits, signedRemainder_toInt hb hfits]
  exact ⟨Int.tdiv_mul_add_tmod _ _, natAbs_tmod_lt_natAbs _ hb, tmod_mul_dividend_nonneg _ _⟩

/-! ### Unsigned division (R255) -/

theorem unsignedQuotient_zero {a b : Word} (hb : b.toNat = 0) : unsignedQuotient a b = 0xFFFFFFFF#32 := if_pos hb

theorem unsignedRemainder_zero {a b : Word} (hb : b.toNat = 0) : unsignedRemainder a b = a := if_pos hb

theorem unsignedQuotient_toNat {a b : Word} (hb : b.toNat ≠ 0) : (unsignedQuotient a b).toNat = a.toNat / b.toNat := by
  rw [unsignedQuotient, if_neg hb, ← BitVec.toNat_udiv, BitVec.ofNat_toNat, BitVec.setWidth_eq]

theorem unsignedRemainder_toNat {a b : Word} (hb : b.toNat ≠ 0) : (unsignedRemainder a b).toNat = a.toNat % b.toNat := by
  rw [unsignedRemainder, if_neg hb, ← BitVec.toNat_umod, BitVec.ofNat_toNat, BitVec.setWidth_eq]

/-- Settles O9: the divisor 0, and otherwise the naturals' own division. -/
theorem unsignedDivision : Obligations.UnsignedDivision := by
  intro s rs rt
  refine ⟨_, rfl, finishMulDiv_unitWrote, fun hb => ⟨unsignedRemainder_zero hb, unsignedQuotient_zero hb⟩,
    fun hb => ?_⟩
  rw [finishMulDiv_hi, finishMulDiv_lo, unsignedQuotient_toNat hb, unsignedRemainder_toNat hb]
  exact ⟨Nat.div_add_mod' _ _, Nat.mod_lt _ (Nat.pos_of_ne_zero hb)⟩

/-! ### Moves (R256 to R259) -/

/-- Settles O10: MFHI and MFLO are one register write; MTHI and MTLO are one field's update. -/
theorem hiLoMoves : Obligations.HiLoMoves := fun _ _ => ⟨exec_wrote rfl rfl, exec_wrote rfl rfl, rfl, rfl⟩

end Sys2Proof.Machine

/-! The family of 42_branch.md: the conditional branches (O11), those that link (O12), the jumps (O13). -/

namespace Sys2Proof.Machine

/-! ### Targets, by arithmetic (42_branch.md R271) -/

/-- The immediate, two bits up, is four times the signed offset modulo 2^32. -/
theorem signExtImm_shiftLeft_two (imm : BitVec 16) : signExtImm imm <<< 2 = BitVec.ofInt 32 (4 * imm.toInt) := by
  rw [BitVec.ofInt_mul, ← BitVec.twoPow_mul_eq_shiftLeft]
  rfl

theorem relativeTarget_eq (imm : BitVec 16) (s : State) : relativeTarget imm s = relativeAddress imm s := by
  rw [relativeTarget, relativeAddress, BitVec.ofInt_add, BitVec.ofInt_natCast, BitVec.ofNat_toNat, BitVec.setWidth_eq,
    signExtImm_shiftLeft_two]

/-- A jump's index in bytes fits the 28 bits the region leaves free. -/
theorem index_shiftLeft_two_toNat (index : BitVec 26) : (index.setWidth 32 <<< 2).toNat = 4 * index.toNat := by
  simp only [BitVec.toNat_shiftLeft, BitVec.toNat_setWidth, Nat.shiftLeft_eq]
  omega

/-- The region's bits lie above the index's, so joining the two is their sum. -/
theorem regionTarget_eq (index : BitVec 26) (s : State) : regionTarget index s = regionAddress index s := by
  have hregion : (s.pipe.pc &&& 0xF0000000#32).toNat = s.pipe.pc.toNat / 2 ^ 28 * 2 ^ 28 := toNat_and_highMask _ 28
  have hlow : 4 * index.toNat < 2 ^ 28 := by omega
  have hjoined : (regionTarget index s).toNat = s.pipe.pc.toNat / 2 ^ 28 * 2 ^ 28 + 4 * index.toNat := by
    rw [regionTarget, BitVec.toNat_or, hregion, index_shiftLeft_two_toNat, Nat.mul_comm (_ / _)]
    exact (Nat.two_pow_add_eq_or_of_lt hlow _).symm
  rw [regionAddress, ← hjoined, BitVec.ofNat_toNat, BitVec.setWidth_eq]

/-! ### Conditions (R279, R281) -/

theorem not_isNotPositive (a : Word) : (!isNotPositive a) = decide (0 < a.toInt) := by
  simp only [isNotPositive, ← decide_not, not_le]

theorem not_isNegative (a : Word) : (!isNegative a) = decide (0 ≤ a.toInt) := by
  simp only [isNegative, ← decide_not, not_lt]

/-! ### What a branch or jump does (R270) -/

section
variable {i : Instr} {taken taken' : Bool} {target target' : Word} {s : State}

/-- An instruction whose whole effect is the end of a branch has branched, however its condition and target are written. -/
theorem exec_branched (hexec : exec i s = .next (branchIf taken target s)) (htaken : taken = taken')
    (htarget : target = target') : ∃ t, exec i s = .next t ∧ Branched taken' target' s t :=
  ⟨branchIf taken target s, hexec, htaken ▸ htarget ▸ branchIf_branched taken target s⟩

/-- One that links does so before, taken or not; condition and target are values of the state before the link. -/
theorem exec_linked_branched {r : RegNum} (hexec : exec i s = .next (branchIf taken target (writeReg r (linkValue s) s)))
    (htaken : taken = taken') (htarget : target = target') :
    ∃ u t, exec i s = .next t ∧ WroteReg r s.pipe.npc s u ∧ Branched taken' target' u t :=
  ⟨writeReg r (linkValue s) s, _, hexec, writeReg_wrote r _ s, htaken ▸ htarget ▸ branchIf_branched taken target _⟩

end

/-- Settles O11: each is the end of a branch on its condition, which BGTZ and BGEZ write as a negation. -/
theorem conditionalBranches : Obligations.ConditionalBranches := fun _ _ _ _ =>
  ⟨exec_branched rfl rfl (relativeTarget_eq _ _), exec_branched rfl rfl (relativeTarget_eq _ _),
    exec_branched rfl rfl (relativeTarget_eq _ _), exec_branched rfl (not_isNotPositive _) (relativeTarget_eq _ _),
    exec_branched rfl rfl (relativeTarget_eq _ _), exec_branched rfl (not_isNegative _) (relativeTarget_eq _ _)⟩

/-- Settles O12: the state between is the one after the link alone. -/
theorem linkingBranches : Obligations.LinkingBranches := fun _ _ _ =>
  ⟨exec_linked_branched rfl rfl (relativeTarget_eq _ _), exec_linked_branched rfl (not_isNegative _) (relativeTarget_eq _ _)⟩

/-- Settles O13: a jump is a branch always taken. -/
theorem jumpTargetsAndLinks : Obligations.JumpTargetsAndLinks := fun _ _ _ _ =>
  ⟨exec_branched rfl rfl (regionTarget_eq _ _), exec_linked_branched rfl rfl (regionTarget_eq _ _),
    exec_branched rfl rfl rfl, exec_linked_branched rfl rfl rfl⟩

end Sys2Proof.Machine

/-! The family of 43_loadstore.md: what loads stage (O14, O15) and cost (O16), stores on the bus (O17, O18), accesses that raise
(O24, O25). -/

namespace Sys2Proof.Machine

/-! ### Extended and truncated values (43_loadstore.md R303 to R308; 20_memory.md R131) -/

theorem signExtByte_eq (v : Word) : signExtByte v = BitVec.ofInt 32 (BitVec.ofNat 8 v.toNat).toInt := rfl

theorem signExtHalf_eq (v : Word) : signExtHalf v = BitVec.ofInt 32 (BitVec.ofNat 16 v.toNat).toInt := rfl

theorem zeroExtByte_eq (v : Word) : zeroExtByte v = BitVec.ofNat 32 (v.toNat % 2 ^ 8) := by
  apply BitVec.eq_of_toNat_eq
  simp [zeroExtByte]

theorem zeroExtHalf_eq (v : Word) : zeroExtHalf v = BitVec.ofNat 32 (v.toNat % 2 ^ 16) := by
  apply BitVec.eq_of_toNat_eq
  simp [zeroExtHalf]

theorem truncTo_eq (n : Width) (v : Word) : truncTo n v = BitVec.ofNat 32 (v.toNat % 256 ^ n.bytes) := by
  cases n with
  | byte => exact zeroExtByte_eq v
  | half => exact zeroExtHalf_eq v
  | word =>
    have hlt : v.toNat % 256 ^ Width.word.bytes = v.toNat := Nat.mod_eq_of_lt v.isLt
    rw [hlt, BitVec.ofNat_toNat, BitVec.setWidth_eq, truncTo]

/-! ### Loads that go well (R300, R302) -/

/-- An instruction that stages what a read gives has done so with the value read (R300, R508). The staged value may look at the
state after the read, as LWL's and LWR's does, if it is the same for every state the read may leave. -/
theorem exec_loaded {i : Instr} {vaddr : Word} {n : Width} {rt : RegNum} {val : Word → State → Word} {s : State} {v v' : Word}
    (hexec : exec i s = onDone (memRead vaddr n s) fun w u => .next (writeRegDelayed rt (val w u) u))
    (hr : readableValue vaddr n s = some v)
    (hv : ∀ u : State, u = { s with bus := u.bus, timing := u.timing, draws := u.draws } → val v u = v') :
    ∃ t, exec i s = .next t ∧ Loaded rt v' s t := by
  obtain ⟨u, hread⟩ := memRead_of_readable hr
  obtain ⟨-, hmem, htiming, hframe⟩ := memRead_done hread
  refine ⟨writeRegDelayed rt (val v u) u, by rw [hexec, hread]; rfl, ?_⟩
  rw [hv u hframe]
  exact writeRegDelayed_loaded rt v' s u hframe hmem (by rw [htiming])

/-- Settles O14: each load stages its extension of the value read. -/
theorem loadsStageExtendedValue : Obligations.LoadsStageExtendedValue := fun _ _ _ _ v =>
  ⟨fun h => ⟨exec_loaded (val := fun w _ => signExtByte w) rfl h fun _ _ => signExtByte_eq v,
      exec_loaded (val := fun w _ => zeroExtByte w) rfl h fun _ _ => zeroExtByte_eq v⟩,
    fun h => ⟨exec_loaded (val := fun w _ => signExtHalf w) rfl h fun _ _ => signExtHalf_eq v,
      exec_loaded (val := fun w _ => zeroExtHalf w) rfl h fun _ _ => zeroExtHalf_eq v⟩,
    fun h => exec_loaded (val := fun w _ => w) rfl h fun _ _ => rfl⟩

/-! ### The merges of LWL and LWR (R309, R310; 70_reset_and_hazards.md R510) -/

theorem readRegPending_toNat (rt : RegNum) (s : State) : (readRegPending rt s).toNat = mergeBase rt s := by
  unfold readRegPending mergeBase
  split <;> rfl

/-- What is pending for a register, and what it holds, a read leaves alone. -/
theorem readRegPending_congr {s u : State} (hr : u.regs = s.regs) (hd : u.delay = s.delay) (rt : RegNum) :
    readRegPending rt u = readRegPending rt s := by
  simp only [readRegPending, hd, readReg_congr hr]

/-- LWL keeps the low `24 - 8k` bits and puts the word's low `8k + 8` bits above them (R309). -/
theorem mergeLeft_eq {k : Nat} (hk : k < 4) (old w : Word) :
    mergeLeft k old w = BitVec.ofNat 32 (old.toNat % 2 ^ (24 - 8 * k) + w.toNat % 2 ^ (8 * k + 8) * 2 ^ (24 - 8 * k)) := by
  have hmask : (0x00FFFFFF#32 >>> (8 * k)).toNat = 2 ^ (24 - 8 * k) - 1 := by interval_cases k <;> rfl
  have hsplit : 2 ^ 32 = 2 ^ (8 * k + 8) * 2 ^ (24 - 8 * k) := by rw [← Nat.pow_add]; congr 1; omega
  have hkept : old.toNat % 2 ^ (24 - 8 * k) < 2 ^ (24 - 8 * k) := Nat.mod_lt _ (Nat.two_pow_pos _)
  have hjoined : (mergeLeft k old w).toNat =
      old.toNat % 2 ^ (24 - 8 * k) + w.toNat % 2 ^ (8 * k + 8) * 2 ^ (24 - 8 * k) := by
    rw [mergeLeft, BitVec.toNat_or, BitVec.toNat_and, hmask, Nat.and_two_pow_sub_one_eq_mod, BitVec.toNat_shiftLeft,
      Nat.shiftLeft_eq, hsplit, Nat.mul_mod_mul_right, Nat.or_comm, Nat.mul_comm _ (2 ^ (24 - 8 * k)),
      ← Nat.two_pow_add_eq_or_of_lt hkept, Nat.add_comm]
  rw [← hjoined, BitVec.ofNat_toNat, BitVec.setWidth_eq]

/-- LWR keeps the high `8k` bits and puts the word's high `32 - 8k` bits below them (R310). -/
theorem mergeRight_eq {k : Nat} (hk : k < 4) (old w : Word) :
    mergeRight k old w = BitVec.ofNat 32 (old.toNat / 2 ^ (32 - 8 * k) * 2 ^ (32 - 8 * k) + w.toNat / 2 ^ (8 * k)) := by
  have hmask : 0xFFFFFF00#32 <<< (24 - 8 * k) = BitVec.allOnes 32 <<< (32 - 8 * k) := by interval_cases k <;> rfl
  have hsplit : 2 ^ 32 = 2 ^ (8 * k) * 2 ^ (32 - 8 * k) := by rw [← Nat.pow_add]; congr 1; omega
  have htaken : w.toNat / 2 ^ (8 * k) < 2 ^ (32 - 8 * k) := Nat.div_lt_of_lt_mul (hsplit ▸ w.isLt)
  have hjoined : (mergeRight k old w).toNat =
      old.toNat / 2 ^ (32 - 8 * k) * 2 ^ (32 - 8 * k) + w.toNat / 2 ^ (8 * k) := by
    rw [mergeRight, BitVec.toNat_or, hmask, toNat_and_highMask, BitVec.toNat_ushiftRight, Nat.shiftRight_eq_div_pow,
      Nat.mul_comm (_ / _), ← Nat.two_pow_add_eq_or_of_lt htaken]
  rw [← hjoined, BitVec.ofNat_toNat, BitVec.setWidth_eq]

/-- Settles O15: the merges, by arithmetic, into the value pending before the read. -/
theorem unalignedLoadMerge : Obligations.UnalignedLoadMerge := by
  intro s rt base off w hr k
  have hk : k < 4 := Nat.mod_lt _ (by decide)
  have hbyte : byteInWord (effectiveAddress base off s) = k := byteInWord_eq _
  have hold : ∀ u : State, u = { s with bus := u.bus, timing := u.timing, draws := u.draws } →
      readRegPending rt u = readRegPending rt s := fun u hu => readRegPending_congr (by rw [hu]) (by rw [hu]) rt
  rw [← readRegPending_toNat, ← mergeLeft_eq hk, ← mergeRight_eq hk, ← hbyte]
  exact ⟨exec_loaded (val := fun w u => mergeLeft _ (readRegPending rt u) w) rfl hr fun u hu => by rw [hold u hu],
    exec_loaded (val := fun w u => mergeRight _ (readRegPending rt u) w) rfl hr fun u hu => by rw [hold u hu]⟩

/-! ### What a load costs and calls (R302; 20_memory.md R104, R161) -/

/-- A read that is done has made its one bus call where it goes to the bus, and drawn where the cache is isolated. -/
theorem memRead_done_calls {vaddr : Word} {n : Width} {s t : State} {v : Word} (h : memRead vaddr n s = .next (.done v, t)) :
    t.bus =
      (match dataTarget vaddr n s with
      | .bus p => { mem := s.bus.mem, answers := s.bus.answers.tail, log := .read .data p n (some v) :: s.bus.log }
      | _ => s.bus) ∧
    t.draws = if dataTarget vaddr n s = .isolatedCache then s.draws + 1 else s.draws := by
  unfold memRead at h
  cases ht : dataTarget vaddr n s with
  | addressError | unmapped | cacheControlPart | swappedIsolation => simp [ht] at h
  | cacheControl | isolatedCache | scratchpad => simp only [ht] at h; cases h; exact ⟨rfl, rfl⟩
  | bus p =>
    simp only [ht, andThen_eq_next] at h
    obtain ⟨⟨r, u⟩, hread, hdone⟩ := h
    have d := busRead_done hread
    cases r with
    | none => cases hdone
    | some w =>
      cases hdone
      refine ⟨?_, ?_⟩
      · have hfields : u.bus = ⟨u.bus.mem, u.bus.answers, u.bus.log⟩ := rfl
        rw [charge_bus, hfields, d.mem, d.answers, d.log]
      · rw [charge_draws, d.frame]; rfl

/-- What a load instruction does with the value read takes no ticks, no bus call and no draw. -/
theorem exec_load_keeps {i : Instr} {s : State} {a : Access} (ha : dataAccess i s = some a) (hl : a.store = false)
    (hc : copAllows i s) :
    ∃ k : Word → State → State, exec i s = onDone (memRead a.address a.width s) (fun v u => .next (k v u)) ∧
      ∀ v u, (k v u).timing = u.timing ∧ (k v u).bus = u.bus ∧ (k v u).draws = u.draws := by
  have staged : ∀ {rt : RegNum} {val : Word → State → Word} (v : Word) (u : State),
      (writeRegDelayed rt (val v u) u).timing = u.timing ∧ (writeRegDelayed rt (val v u) u).bus = u.bus ∧
      (writeRegDelayed rt (val v u) u).draws = u.draws := by simp
  cases i with
  | lb | lbu | lh | lhu | lw => cases ha; exact ⟨_, show loadInto _ _ _ _ _ s = _ from rfl, staged⟩
  | lwl | lwr => cases ha; exact ⟨_, show loadMerged _ _ _ _ s = _ from rfl, staged⟩
  | lwc2 gr =>
    cases ha
    refine ⟨gteSet gr, ?_, fun _ _ => ⟨rfl, rfl, rfl⟩⟩
    simp only [exec, execLwc2]
    exact withCop2_allowed hc _
  | sb | sh | sw | swc2 | swl | swr => cases ha; cases hl
  | _ => cases ha

/-- Settles O16: the read has its cost and its calls, and what follows it adds none. -/
theorem loadCostAndBusCall : Obligations.LoadCostAndBusCall := by
  intro i s a v ha hl hc hr
  obtain ⟨k, he, hkeeps⟩ := exec_load_keeps ha hl hc
  obtain ⟨u, hread⟩ := memRead_of_readable hr
  obtain ⟨-, -, htiming, -⟩ := memRead_done hread
  obtain ⟨hbus, hdraws⟩ := memRead_done_calls hread
  obtain ⟨ktiming, kbus, kdraws⟩ := hkeeps v u
  exact ⟨k v u, by rw [he, hread]; rfl, ktiming.trans htiming, kbus.trans hbus, kdraws.trans hdraws⟩

/-! ### Stores the bus takes (R302, R312 to R316; 20_memory.md R104, R131, R132) -/

/-- The bus call of a store form. -/
def StoreForm.event (f : StoreForm) (p v : Word) (ok : Bool) : BusEvent :=
  match f with
  | .whole n => .write p n (truncTo n v) ok
  | .masked mask4 => .writeMasked p mask4 v ok

/-- The cost kind tells the form, so a store instruction's call is its form's. -/
theorem event_eq_storeEvent {i : Instr} {s : State} {f : StoreForm} (hmask : f.mask = storeMask i s) (hkind : f.kind = storeKind i)
    (p : Word) (ok : Bool) : f.event p (storeWord i s) ok = storeEvent i p f.width s ok := by
  unfold storeKind at hkind
  cases f with
  | whole n =>
    rw [StoreForm.event, truncTo_eq]
    unfold storeEvent
    split at hkind
    · cases hkind
    · cases hkind
    · rfl
  | masked m =>
    have hm : m = storeMask i s := hmask
    rw [StoreForm.event, hm]
    split at hkind
    · rfl
    · rfl
    · cases hkind

/-- The word a store form puts on the bus. -/
def StoreForm.datum (f : StoreForm) (v : Word) : Word :=
  match f with
  | .whole n => truncTo n v
  | .masked _ => v

/-- Cutting a word to a width keeps the bits below it. -/
theorem truncTo_getLsbD {n : Width} {m : Nat} (v : Word) (h : m < 8 * n.bytes) : (truncTo n v).getLsbD m = v.getLsbD m := by
  cases n with
  | byte => simp only [Width.bytes] at h; simp [truncTo, h, show m < 32 by omega]
  | half => simp only [Width.bytes] at h; simp [truncTo, h, show m < 32 by omega]
  | word => rfl

/-- A store form puts the bytes it enables on the bus unchanged (R131). -/
theorem byteOf_datum {f : StoreForm} {v : Word} {k : Nat} (h : f.mask.getLsbD k = true) : byteOf (f.datum v) k = byteOf v k := by
  have hk : k < f.width.bytes := storeForm_mask h
  cases f with
  | masked => rfl
  | whole n =>
    apply BitVec.eq_of_getLsbD_eq
    intro j hj
    have hbit : 8 * k + j < 8 * n.bytes := by simp only [StoreForm.width] at hk; omega
    simp only [byteOf, BitVec.getLsbD_extractLsb', StoreForm.datum, truncTo_getLsbD v hbit]

theorem busStore_ram {f : StoreForm} {p v : Word} {s : State} (h : nextAnswer s = .ram) :
    busStore f p v s =
      .next (true, recordCall (writeMaskedBytes s.bus.mem p.toNat f.mask (f.datum v)) (f.event p v true) s) := by
  cases f <;> simp only [busStore, busWrite, busWriteMasked, h] <;> rfl

theorem busStore_device {f : StoreForm} {p v d : Word} {s : State} (h : nextAnswer s = .device d) :
    busStore f p v s = .next (true, recordCall s.bus.mem (f.event p v true) s) := by
  cases f <;> simp only [busStore, busWrite, busWriteMasked, h] <;> rfl

theorem busStore_error {f : StoreForm} {p v : Word} {s : State} (h : nextAnswer s = .error) :
    busStore f p v s = .next (false, setBusError (recordCall s.bus.mem (f.event p v false) s)) := by
  cases f <;> simp only [busStore, busWrite, busWriteMasked, h] <;> rfl

/-- A store that goes to the bus is its call and the charge, and raises DBE if the call failed (R302). -/
theorem memStore_bus {f : StoreForm} {vaddr p v : Word} {s u : State} {ok : Bool} (ht : dataTarget vaddr f.width s = .bus p)
    (hb : busStore f p v s = .next (ok, u)) :
    memStore f vaddr v s = .next (if ok then .done () else .raised .dbe, charge (busCost f.kind p f.width u) u) := by
  rw [memStore, ht]
  simp only [hb, andThen_next]
  cases ok <;> rfl

/-- A store the bus takes has written the enabled bytes to RAM, or nothing to a device, and its call is recorded. -/
theorem busStore_taken {f : StoreForm} {p v : Word} {s : State} (h : nextAnswer s = .ram ∨ ∃ d, nextAnswer s = .device d)
    (hwf : s.bus.mem.wf = true) (hp : p.toNat + f.width.bytes ≤ 2 ^ 29) :
    ∃ m, busStore f p v s = .next (true, recordCall m (f.event p v true) s) ∧ ∀ x, readByte m x =
      if nextAnswer s = .ram ∧ p.toNat ≤ x ∧ x < p.toNat + 4 ∧ f.mask.getLsbD (x - p.toNat) = true
      then wordByte v (x - p.toNat) else readByte s.bus.mem x := by
  rcases h with hram | ⟨d, hdev⟩
  · refine ⟨_, busStore_ram hram, fun x => ?_⟩
    have hin : ∀ i, i < 4 → f.mask.getLsbD i = true → p.toNat + i < 2 ^ 29 := fun i _ hi => by
      have hwidth := storeForm_mask hi
      omega
    simp only [readByte_writeMaskedBytes _ _ _ _ _ hwf hin, hram, true_and]
    split
    · next h =>
      obtain ⟨-, -, hen⟩ := h
      rw [byteOf_datum hen, byteOf_eq_wordByte]
    · rfl
  · refine ⟨_, busStore_device hdev, fun x => ?_⟩
    rw [if_neg (by simp [hdev])]

/-- A store is made with `pending_ticks` at some value and all else as before (44_system.md R358). -/
theorem readyToStore_eq (i : Instr) (s : State) :
    ∃ n, readyToStore i s = { s with timing := { s.timing with pendingTicks := n } } := ⟨_, readyToStore_frame i s⟩

/-- Settles O17: the call is made after SWC2's wait, which changes ticks only. -/
theorem storesReachRam : Obligations.StoresReachRam := by
  intro i s a p ha hs hc ht hans hwf
  obtain ⟨f, hw, hm, hkind, he⟩ := exec_store ha hs hc
  obtain ⟨n, hready⟩ := readyToStore_eq i s
  rw [← hw] at ht
  obtain ⟨m, hstore, hbytes⟩ := busStore_taken (f := f) (p := p) (v := storeWord i s) (s := readyToStore i s)
    (by rw [hready]; exact hans) (by rw [hready]; exact hwf) (bus_in_range ht).2
  have hmem := memStore_bus (f := f) (v := storeWord i s) ((dataTarget_readyToStore i s _ _).trans ht) hstore
  rw [hm, hready] at hbytes
  refine ⟨_, by rw [he, hmem]; rfl, hbytes, ?_, ?_, ?_, ?_⟩
  · rw [hready]; rfl
  · rw [event_eq_storeEvent hm hkind, hw, hready]; rfl
  · rw [hkind, hw, hready]; rfl
  · rw [hready]; rfl

/-! ### The bytes of SWL and SWR (R315, R316) -/

theorem storeLeftMask_getLsbD : ∀ k < 4, ∀ n < 4, (storeLeftMask k).getLsbD n = decide (0 ≤ n ∧ n < k + 1) := by decide

theorem storeRightMask_getLsbD : ∀ k < 4, ∀ n < 4, (storeRightMask k).getLsbD n = decide (k ≤ n ∧ n < 4) := by decide

/-- A store to RAM whose mask enables the bytes from `lo` to below `hi` writes those and keeps every other. -/
theorem exec_store_range {i : Instr} {s : State} {a : Access} {p : Word} {lo hi : Nat} (ha : dataAccess i s = some a)
    (hs : a.store = true) (hc : copAllows i s) (ht : dataTarget a.address a.width s = .bus p) (hram : nextAnswer s = .ram)
    (hwf : s.bus.mem.wf = true) (hmask : ∀ n < 4, (storeMask i s).getLsbD n = decide (lo ≤ n ∧ n < hi)) (hhi : hi ≤ 4) :
    ∃ t, exec i s = .next t ∧
      (∀ n, lo ≤ n → n < hi → readByte t.bus.mem (p.toNat + n) = wordByte (storeWord i s) n) ∧
      ∀ x, (x < p.toNat + lo ∨ p.toNat + hi ≤ x) → readByte t.bus.mem x = readByte s.bus.mem x := by
  obtain ⟨t, hexec, hbytes, -⟩ := storesReachRam i s a p ha hs hc ht (.inl hram) hwf
  refine ⟨t, hexec, fun n hlo hn => ?_, fun x hx => ?_⟩
  · have hen : (storeMask i s).getLsbD n = true := by
      rw [hmask n (by omega)]
      exact decide_eq_true ⟨hlo, hn⟩
    rw [hbytes, Nat.add_sub_cancel_left, if_pos ⟨hram, by omega, by omega, hen⟩]
  · rw [hbytes, if_neg]
    rintro ⟨-, hge, hlt, hen⟩
    rw [hmask _ (by omega), decide_eq_true_iff] at hen
    omega

/-- A word shifted right by whole bytes has its bytes moved down. -/
theorem wordByte_ushiftRight (v : Word) (j n : Nat) : wordByte (v >>> (8 * j)) n = wordByte v (j + n) := by
  simp only [← byteOf_eq_wordByte]
  apply BitVec.eq_of_getLsbD_eq
  intro b hb
  simp [byteOf, hb, Nat.mul_add, Nat.add_assoc]

/-- A word shifted left by whole bytes has its bytes moved up. -/
theorem wordByte_shiftLeft (v : Word) {j n : Nat} (hj : j ≤ n) (hn : n < 4) : wordByte (v <<< (8 * j)) n = wordByte v (n - j) := by
  simp only [← byteOf_eq_wordByte]
  apply BitVec.eq_of_getLsbD_eq
  intro b hb
  have hin : 8 * n + b < 32 := by omega
  have hup : ¬ 8 * n + b < 8 * j := by omega
  have hpos : 8 * n + b - 8 * j = 8 * (n - j) + b := by omega
  simp only [byteOf, BitVec.getLsbD_extractLsb', BitVec.getLsbD_shiftLeft, hin, hup, hpos, hb, decide_true, decide_false,
    Bool.not_false, Bool.true_and]

/-- Settles O18: SWL enables the bytes up to `k` of the register shifted down, SWR those from `k` on of it shifted up. -/
theorem unalignedStoreBytes : Obligations.UnalignedStoreBytes := by
  intro s rt base off p ht hram hwf k
  have hk : k < 4 := Nat.mod_lt _ (by decide)
  constructor
  · have hword : storeWord (.swl rt base off) s = readReg rt s >>> (8 * (3 - k)) := by
      rw [Nat.mul_sub]; rfl
    obtain ⟨t, hexec, hin, hout⟩ := exec_store_range (i := .swl rt base off) rfl rfl trivial ht hram hwf
      (storeLeftMask_eq rt base off s ▸ storeLeftMask_getLsbD k hk) hk
    refine ⟨t, hexec, fun n hn => ?_, fun x hx => hout x (by omega)⟩
    rw [hin n (Nat.zero_le n) (by omega), hword, wordByte_ushiftRight]
  · have hword : storeWord (.swr rt base off) s = readReg rt s <<< (8 * k) := rfl
    obtain ⟨t, hexec, hin, hout⟩ := exec_store_range (i := .swr rt base off) rfl rfl trivial ht hram hwf
      (storeRightMask_eq rt base off s ▸ storeRightMask_getLsbD k hk) le_rfl
    refine ⟨t, hexec, fun n hn hn4 => ?_, hout⟩
    rw [hin n hn hn4, hword, wordByte_shiftLeft _ hn hn4]

/-! ### Accesses that raise (R301; 20_memory.md R102, R103, R105, R112) -/

/-- Only SWC2 waits for the GTE before its access (44_system.md R358). -/
theorem readyToStore_load {i : Instr} {s : State} {a : Access} (ha : dataAccess i s = some a) (hl : a.store = false) :
    readyToStore i s = s := by
  cases i with
  | swc2 => cases ha; cases hl
  | _ => rfl

/-- An instruction that ends in `raise c` has entered the handler, whatever made it raise (60_exceptions.md R420). -/
theorem exec_raised {i : Instr} {c : ExcCode} {s u : State} (hexec : exec i s = raiseException c u) (hb : BusReplies u) :
    ∃ t, exec i s = .next t ∧ Raised (excCodeBits c).toNat (reportedCop u) u t := by
  rw [hexec]
  exact raiseException_completes c hb

/-- Settles O24: the check comes before the access, so the exception is raised with BadVaddr written and nothing else done. -/
theorem dataAddressErrors : Obligations.DataAddressErrors := by
  intro i s a ha hc hb ht
  cases hs : a.store with
  | false =>
    obtain ⟨k, he⟩ := exec_load ha hs hc
    rw [readyToStore_load ha hs]
    exact exec_raised (c := .adel) (u := setBadVaddr a.address s) (by rw [he, memRead, ht]; rfl) hb
  | true =>
    obtain ⟨f, hw, -, -, he⟩ := exec_store ha hs hc
    obtain ⟨n, hready⟩ := readyToStore_eq i s
    have hexec : exec i s = raiseException .ades (setBadVaddr a.address (readyToStore i s)) := by
      rw [he, memStore, hw, dataTarget_readyToStore, ht]; rfl
    rw [hready] at hexec ⊢
    exact exec_raised hexec hb

/-- Settles O25: an unmapped address makes no call; a failed call has its cost and sets `bus_error` (60_exceptions.md R402). -/
theorem dataBusErrors : Obligations.DataBusErrors := by
  intro i s a ha hc hb
  cases hs : a.store with
  | false =>
    obtain ⟨k, he⟩ := exec_load ha hs hc
    rw [readyToStore_load ha hs]
    refine ⟨fun ht => ?_, fun p ht herr => ?_⟩
    · exact exec_raised (c := .dbe) (by rw [he, memRead, ht]; rfl) hb
    · have hexec : exec i s = raiseException .dbe (charge (busCost .read p a.width s)
          (setBusError (recordCall s.bus.mem (.read .data p a.width none) s))) := by
        rw [he, memRead, ht]
        simp only [busRead, herr]
        rfl
      exact exec_raised hexec (hb.of_suffix 1 List.drop_one.symm)
  | true =>
    obtain ⟨f, hw, hm, hkind, he⟩ := exec_store ha hs hc
    obtain ⟨n, hready⟩ := readyToStore_eq i s
    refine ⟨fun ht => ?_, fun p ht herr => ?_⟩
    · have hexec : exec i s = raiseException .dbe (readyToStore i s) := by
        rw [he, memStore, hw, dataTarget_readyToStore, ht]; rfl
      rw [hready] at hexec ⊢
      exact exec_raised hexec hb
    · have hstore : busStore f p (storeWord i s) (readyToStore i s) = _ := busStore_error (by rw [hready]; exact herr)
      rw [← hw] at ht
      have hexec : exec i s = raiseException .dbe (charge (busCost f.kind p f.width (readyToStore i s))
          (setBusError (recordCall s.bus.mem (f.event p (storeWord i s) false) (readyToStore i s)))) := by
        rw [he, memStore_bus ((dataTarget_readyToStore i s _ _).trans ht) hstore, hready]; rfl
      rw [event_eq_storeEvent hm hkind, hkind, hw, hready] at hexec
      rw [hready]
      exact exec_raised hexec (hb.of_suffix 1 List.drop_one.symm)

end Sys2Proof.Machine

/-! The family of 44_system.md: traps (O27), the COP0 moves and RFE (O28 to O30), unusable coprocessors (O31), transfers to and
from the GTE (O32, O34), and the confinement of user code (O54). -/

namespace Sys2Proof.Machine

/-! ### Traps and unusable coprocessors (44_system.md R330 to R332) -/

/-- Settles O27: each is `raise` and nothing else. -/
theorem syscallAndBreakTrap : Obligations.SyscallAndBreakTrap := fun _ _ hb =>
  ⟨raiseException_completes .sys hb, raiseException_completes .bp hb⟩

/-- A coprocessor instruction is the usability check and what follows it (R330). -/
theorem exec_eq_withCop {i : Instr} {z : BitVec 2} (s : State) (hz : coprocessorOf i = some z) :
    ∃ k, exec i s = withCop z s k := by
  cases i with
  | mfc0 | mtc0 | rfe | mfc2 | cfc2 | mtc2 | ctc2 | cop2 | lwc2 | swc2 =>
    cases hz
    simp only [exec, execMfc0, execMtc0, execRfe, execMfc2, execCfc2, execMtc2, execCtc2, moveFromGte, moveToGte, execCop2,
      execLwc2, execSwc2]
    exact ⟨_, rfl⟩
  | _ => cases hz

/-- Settles O31: the check comes first, so the exception is entered from the state before. -/
theorem coprocessorUnusable : Obligations.CoprocessorUnusable := by
  intro i z s hi hz hb
  obtain ⟨k, he⟩ := exec_eq_withCop s hi
  rw [he]
  exact withCop_raises k hz hb

/-! ### MFC0 (R333, R336) -/

/-- A COP0 instruction that is allowed passes the usability check (R330). -/
theorem withCop0_allowed {s : State} (h : cop0Allowed s) (k : State → Res) : withCop 0#2 s k = k s :=
  withCop_usable (copUsable_iff (z := 0#2).mpr h)

/-- A register that holds a value, or PRID, is staged at no cost and without a draw. -/
theorem exec_mfc0_value {s : State} {rt rd : RegNum} {v : Word} (h : cop0Allowed s) (hr : readCop0 rd s = .value v) :
    ∃ t, exec (.mfc0 rt rd) s = .next t ∧ Loaded rt v s t ∧ t.bus = s.bus ∧ t.timing = s.timing ∧ t.draws = s.draws :=
  ⟨writeRegDelayed rt v s, by rw [exec, execMfc0, withCop0_allowed h, hr],
    writeRegDelayed_loaded rt v s s rfl rfl rfl, by simp, by simp, by simp⟩

/-- An unimplemented register is staged as the next draw. -/
theorem exec_mfc0_draw {s : State} {rt rd : RegNum} (h : cop0Allowed s) (hr : readCop0 rd s = .draw) :
    ∃ t, exec (.mfc0 rt rd) s = .next t ∧ Loaded rt (Config.freeWord s.draws) s t ∧ t.bus = s.bus ∧ t.timing = s.timing ∧
      t.draws = s.draws + 1 :=
  ⟨writeRegDelayed rt (drawn s) (countDraw s), by rw [exec, execMfc0, withCop0_allowed h, hr],
    writeRegDelayed_loaded rt (drawn s) s (countDraw s) rfl rfl rfl, by simp, by simp, by simp⟩

/-- The numbers 16 to 31 are reserved. -/
theorem readCop0_reserved {rd : RegNum} (s : State) (h : 16 ≤ rd.toNat) : readCop0 rd s = .reserved := by
  have hbit : rd.getLsbD 4 = true := (BitVec.msb_eq_decide rd).trans (decide_eq_true h)
  unfold readCop0
  split
  case h_12 => exact if_pos hbit
  all_goals exact absurd h (by decide)

/-- The numbers below 16: the unimplemented ones, and those that hold a value. -/
theorem cop0_numbers : ∀ rd : RegNum, rd.toNat < 16 →
    (rd = 0#5 ∨ rd = 1#5 ∨ rd = 2#5 ∨ rd = 4#5 ∨ rd = 10#5) ∨
    (rd = 3#5 ∨ rd = 5#5 ∨ rd = 6#5 ∨ rd = 7#5 ∨ rd = 8#5 ∨ rd = 9#5 ∨ rd = 11#5 ∨ rd = 12#5 ∨ rd = 13#5 ∨ rd = 14#5 ∨
      rd = 15#5) := by decide

/-- Settles O28: by what `readCop0` finds under the number. -/
theorem moveFromCop0 : Obligations.MoveFromCop0 := by
  intro s rt rd hz
  refine ⟨fun hlow => ?_, fun hhigh hb => ?_⟩
  · rcases cop0_numbers rd hlow with hdraw | hvalue
    · rcases hdraw with rfl | rfl | rfl | rfl | rfl <;> exact exec_mfc0_draw hz rfl
    · rcases hvalue with rfl | rfl | rfl | rfl | rfl | rfl | rfl | rfl | rfl | rfl | rfl <;> exact exec_mfc0_value hz rfl
  · rw [exec, execMfc0, withCop0_allowed hz, readCop0_reserved s hhigh]
    exact raiseException_completes .ri hb

/-! ### MTC0 and RFE (R334, R335, R337) -/

/-- Settles O29: the statement and `writeCop0` are the same table over the 32 numbers. -/
theorem moveToCop0 : Obligations.MoveToCop0 := by
  intro s rt rd hz
  rw [exec, execMtc0, withCop0_allowed hz]
  obtain ⟨⟨n, hn⟩⟩ := rd
  interval_cases n <;> rfl

/-- The mode stack after a pop (R335): the oldest pair stays where it is. -/
theorem popModeStack_fields (sr : Word) :
    (popModeStack sr).extractLsb' 0 4 = sr.extractLsb' 2 4 ∧ (popModeStack sr).extractLsb' 4 28 = sr.extractLsb' 4 28 := by
  constructor
  · apply BitVec.eq_of_getLsbD_eq
    intro k hk
    interval_cases k <;> simp [popModeStack]
  · apply BitVec.eq_of_getLsbD_eq
    intro k hk
    interval_cases k <;> simp [popModeStack]

/-- Settles O30: RFE is the pop of the mode stack. -/
theorem returnFromException : Obligations.ReturnFromException := by
  intro s hz
  obtain ⟨hmodes, hrest⟩ := popModeStack_fields s.cop0.sr
  exact ⟨restoreFromException s, by rw [exec, execRfe, withCop0_allowed hz], hmodes, hrest, rfl⟩

/-! ### Transfers to and from the GTE (R351 to R354, R357) -/

/-- MFC2 and CFC2 stage the GTE register in the state after the wait, which takes ticks only (R544). -/
theorem moveFromGte_loaded {s : State} (h : s.cop0.sr.getLsbD 30 = true) (rt : RegNum) (gr : GteReg) :
    ∃ t, moveFromGte rt gr s = .next t ∧ Loaded rt (Config.gteRead s.gte gr) s t ∧ t.bus = s.bus ∧ t.draws = s.draws ∧
      t.timing.pendingTicks = max s.timing.pendingTicks s.timing.gteCompletionTick :=
  ⟨writeRegDelayed rt (Config.gteRead s.gte gr) (gteStall s), withCop2_allowed h _,
    writeRegDelayed_loaded rt _ s (gteStall s) rfl rfl rfl, by simp, by simp, by simp⟩

/-- MTC2 and CTC2 write the GTE register and nothing else: they do not wait (R544). -/
theorem moveToGte_eq {s : State} (h : s.cop0.sr.getLsbD 30 = true) (rt : RegNum) (gr : GteReg) :
    moveToGte rt gr s = .next { s with gte := Config.gteWrite s.gte gr (readReg rt s) } :=
  withCop2_allowed h _

/-- Settles O32: MFC2 and CFC2 are one operation, MTC2 and CTC2 another; only the register's number tells them apart. -/
theorem gteTransfers : Obligations.GteTransfers := by
  intro s rt gr h
  refine ⟨fun i hi => ?_, moveToGte_eq h rt gr, moveToGte_eq h rt gr⟩
  rcases hi with rfl | rfl
  · exact moveFromGte_loaded h rt gr
  · exact moveFromGte_loaded h rt gr

/-- Settles O34: the read takes ticks, bus calls and draws, and its value goes to the GTE. -/
theorem loadWordToGte : Obligations.LoadWordToGte := by
  intro s gr base off v h hv
  obtain ⟨u, hread⟩ := memRead_of_readable hv
  obtain ⟨-, hmem, htiming, hframe⟩ := memRead_done hread
  have hgte : u.gte = s.gte := by rw [hframe]
  refine ⟨gteSet gr v u, ?_, by simp [hgte], hmem, ?_⟩
  · rw [exec, execLwc2, withCop2_allowed h, hread, onDone_done]
  · rw [hframe]
    ext1 <;> simp [htiming]

/-! ### User code without CU0 (60_exceptions.md R420, R440, R441; 44_system.md R369) -/

/-- In user mode no access goes to the cache-control register: its address is forbidden (20_memory.md R103). -/
theorem dataTarget_ne_cacheControl {s : State} (hu : s.cop0.sr.getLsbD 1 = true) (v : Word) (n : Width) :
    dataTarget v n s ≠ .cacheControl := by
  intro ht
  have hok : ¬ (v.toNat % n.bytes ≠ 0 ∨ modeForbids v s = true) := by
    rw [← dataTarget_addressError_iff, ht]
    simp
  obtain ⟨ha, hm⟩ := not_or.mp hok
  have hlow : v.toNat < 0x80000000 := Nat.not_le.mp fun hhigh => hm (modeForbids_iff.mpr ⟨hu, hhigh⟩)
  rw [dataTarget_of_allowed (not_not.mp ha) (Bool.not_eq_true _ ▸ hm)] at ht
  by_cases hseg : v.toNat < 0x20000000
  · rw [if_pos hseg, unlessIsolated, cachedSegmentTarget] at ht
    split_ifs at ht
  · rw [if_neg hseg, if_pos hlow] at ht
    cases ht

/-- A store that is done in user mode keeps the cache-control register. -/
theorem memStore_keeps_cacheControl {f : StoreForm} {a v : Word} {s t : State} (hu : s.cop0.sr.getLsbD 1 = true)
    (h : memStore f a v s = .next (.done (), t)) : t.cacheControl = s.cacheControl := by
  rcases memStore_done h with ⟨off, -, rfl⟩ | ⟨ht, -, -⟩ | ⟨-, rfl⟩ | ⟨p, s1, -, hb, rfl⟩
  · simp
  · exact absurd ht (dataTarget_ne_cacheControl hu a f.width)
  · simp
  · rw [charge_cacheControl, (busStore_done hb).frame]

theorem dataAccess_of_isStore {i : Instr} (s : State) (h : isStore i = true) :
    ∃ a, dataAccess i s = some a ∧ a.store = true := by
  cases i with
  | sb | sh | sw | swl | swr | swc2 => exact ⟨_, rfl, rfl⟩
  | _ => cases h

/-- A coprocessor instruction that raises nothing was allowed (R330). -/
theorem copAllowed_of_not_raised {i : Instr} {z : BitVec 2} {s t : State} (hi : coprocessorOf i = some z)
    (h : exec i s = .next t) (hf : t.flags.exceptionRaised = false) : copAllowed z s := by
  obtain ⟨k, he⟩ := exec_eq_withCop s hi
  rw [he] at h
  rcases withCop_eq_next h with ⟨hz, -⟩ | ⟨-, hr⟩
  · exact copUsable_iff.mp hz
  · have := (raiseWithCe_raised hr).raised
    simp [hf] at this

theorem copAllows_of_not_raised {i : Instr} {s t : State} (h : exec i s = .next t) (hf : t.flags.exceptionRaised = false) :
    copAllows i s := by
  cases i with
  | lwc2 | swc2 => exact copAllowed_of_not_raised (z := 2#2) rfl h hf
  | _ => trivial

/-- An instruction that raises nothing in user mode keeps the cache-control register: only a store could write it. -/
theorem exec_keeps_cacheControl {i : Instr} {s t : State} (hu : s.cop0.sr.getLsbD 1 = true) (h : exec i s = .next t)
    (hf : t.flags.exceptionRaised = false) : t.cacheControl = s.cacheControl := by
  cases hs : isStore i with
  | false =>
    obtain ⟨-, -, hctl, -⟩ := (quiet_of_not_raised h hf).noStore hs
    exact hctl
  | true =>
    obtain ⟨a, ha, hstore⟩ := dataAccess_of_isStore s hs
    obtain ⟨f, -, -, -, he⟩ := exec_store ha hstore (copAllows_of_not_raised h hf)
    rw [he] at h
    rcases onDone_eq_next.mp h with ⟨⟨⟩, u, hm, hk⟩ | ⟨c, u, -, hr⟩
    · cases hk
      have hready : (readyToStore i s).cop0 = s.cop0 := by rw [readyToStore_frame]
      rw [memStore_keeps_cacheControl (by rw [hready]; exact hu) hm, readyToStore_cacheControl]
    · have := (raiseException_raised hr).raised
      simp [hf] at this

/-- What user code without CU0 may have done from `s` to `t`: nothing to COP0 and the cache-control register, or entered an
exception, with control at the vector in kernel mode with interrupts off. -/
def Confined (s t : State) : Prop :=
  t.cacheControl = s.cacheControl ∧
    ((t.flags.exceptionRaised = false ∧ t.cop0 = s.cop0) ∨
      (t.flags.exceptionRaised = true ∧ t.pipe.pc = vectorOf s ∧ t.cop0.sr.getLsbD 1 = false ∧ t.cop0.sr.getLsbD 0 = false ∧
        t.cop0.sr.getLsbD 3 = true ∧ t.cop0.sr.getLsbD 28 = false))

/-- `Confined` looks at COP0 and the cache-control register before, and at those, `exception_raised` and `pc` after. -/
theorem Confined.congr {s s' t t' : State} (h : Confined s t) (hcop : s.cop0 = s'.cop0) (hctl : s.cacheControl = s'.cacheControl)
    (hcop' : t'.cop0 = t.cop0) (hctl' : t'.cacheControl = t.cacheControl) (hflags : t'.flags = t.flags)
    (hpipe : t'.pipe = t.pipe) : Confined s' t' := by
  simpa only [Confined, vectorOf, hcop, hctl, hcop', hctl', hflags, hpipe] using h

/-- Exception entry pushes the mode stack: kernel mode and interrupts off, the old KUc in KUp, CU0 as before (60_exceptions.md
R420). -/
theorem Entered.sr_bits {code : Nat} {a : Word} {bd bt : Bool} {ce : BitVec 2} {dest : Word} {s t : State}
    (e : Entered code a bd bt ce dest s t) : t.cop0.sr.getLsbD 0 = false ∧ t.cop0.sr.getLsbD 1 = false ∧
      t.cop0.sr.getLsbD 3 = s.cop0.sr.getLsbD 1 ∧ t.cop0.sr.getLsbD 28 = s.cop0.sr.getLsbD 28 := by
  have hstack : ∀ k < 6, t.cop0.sr.getLsbD k =
      if k < 2 then (0#2).getLsbD k else (s.cop0.sr.extractLsb' 0 4).getLsbD (k - 2) := fun k hk => by
    rw [← BitVec.getLsbD_append, ← e.modeStack, BitVec.getLsbD_extractLsb', Nat.zero_add, decide_eq_true hk, Bool.true_and]
  refine ⟨hstack 0 (by decide), hstack 1 (by decide), ?_, getLsbD_eq_of_field_eq e.srRest (by decide) (by decide)⟩
  exact (hstack 3 (by decide)).trans (BitVec.getLsbD_extractLsb' ..)

/-- An exception of user code leads to the vector. -/
theorem Confined.raised {code : Nat} {ce : BitVec 2} {s u t : State} (b : BeforeRaise s u) (r : Raised code ce u t)
    (hu : s.cop0.sr.getLsbD 1 = true) (hcu : s.cop0.sr.getLsbD 28 = false) : Confined s t := by
  have hsr : u.cop0.sr = s.cop0.sr := by rw [b.frame]
  have hctl : t.cacheControl = s.cacheControl := by rw [r.frame, b.frame]
  have hvector : vectorOf u = vectorOf s := by rw [vectorOf, hsr, vectorOf]
  obtain ⟨hie, hku, hkup, hcu0⟩ := r.sr_bits
  obtain ⟨hpc, -, -⟩ := r.pc
  exact ⟨hctl, .inr ⟨r.raised, hpc.trans hvector, hku, hie, by rw [hkup, hsr, hu], by rw [hcu0, hsr, hcu]⟩⟩

/-- MTC0 and RFE are not usable in user mode without CU0, so an instruction that completes keeps COP0 (R330). -/
theorem Quiet.user_cop0 {i : Instr} {s t : State} (q : Quiet i s t) (hu : s.cop0.sr.getLsbD 1 = true)
    (hcu : s.cop0.sr.getLsbD 28 = false) : t.cop0 = s.cop0 := by
  have hunusable : ¬ copUsable 0#2 s = true := by
    rw [copUsable_iff]
    rintro (hkernel | hcu0)
    · exact absurd (hu.symm.trans hkernel) (by decide)
    · exact absurd (hcu.symm.trans hcu0) (by decide)
  rcases q.cop0 with h | ⟨-, -, -, hz, -⟩ | ⟨-, hz, -⟩
  · exact h
  · exact absurd hz hunusable
  · exact absurd hz hunusable

/-- The execution of the current slot is confined. -/
theorem executeCurrent_confined {s t : State} (h : executeCurrent s = .next t) (hf : s.flags.exceptionRaised = false)
    (hu : s.cop0.sr.getLsbD 1 = true) (hcu : s.cop0.sr.getLsbD 28 = false) : Confined s t := by
  rcases executeCurrent_cases h with ⟨code, ce, u, b, hr⟩ | ⟨w, i, -, -, hexec, q⟩
  · exact .raised b (raiseWithCe_raised hr) hu hcu
  · have hf' : t.flags.exceptionRaised = false := by rw [q.flags, hf]
    exact ⟨exec_keeps_cacheControl hu hexec hf', .inl ⟨hf', q.user_cop0 hu hcu⟩⟩

/-- Settles O54: without an interrupt the step begins with the slots' advance and a fetch, which leave COP0 and the cache-control
register as they are, and ends with the load-delay update. -/
theorem userModeConfined : Obligations.UserModeConfined := by
  intro s t h hquiet hu hcu
  obtain ⟨-, u, e, hbegin, hexec, rfl⟩ := step_eq_next.mp h
  obtain ⟨s1, h1, b⟩ := begun hbegin
  rw [interruptPoint_quiet hquiet] at h1
  cases h1
  have hcop : u.cop0 = s.cop0 := by rw [b.frame]
  have hctl : u.cacheControl = s.cacheControl := by rw [b.frame]
  have hconf : Confined u e := executeCurrent_confined hexec b.notRaised (by rw [hcop]; exact hu) (by rw [hcop]; exact hcu)
  exact hconf.congr hcop hctl (by simp) (by simp) (by simp) (by simp)

end Sys2Proof.Machine

/-! The family of 60_exceptions.md: interrupts (O41), the way into user mode (O55), breakpoints (O59), the external interrupt lines
(O57), capture and restore (O58). -/

namespace Sys2Proof.Machine

/-! ### When an interrupt is due or put off (60_exceptions.md R414, R416) -/

/-- A bit vector is not 0 exactly when one of its bits is set. -/
theorem ne_zero_iff_exists_bit {n : Nat} {x : BitVec n} : x ≠ 0#n ↔ ∃ k, x.getLsbD k = true := by
  simp only [ne_eq, BitVec.zero_iff_eq_false, not_forall, Bool.not_eq_false]

/-- Pending: IEc is set, and a line of CAUSE that SR does not mask (R414). -/
theorem interruptPending_iff {s : State} : interruptPending s = true ↔ s.cop0.sr.getLsbD 0 = true ∧
    ∃ k, k < 8 ∧ s.cop0.cause.getLsbD (8 + k) = true ∧ s.cop0.sr.getLsbD (8 + k) = true := by
  simp only [interruptPending, interruptsEnabled, Bool.and_eq_true, bne_iff_ne, ne_zero_iff_exists_bit, BitVec.getLsbD_and,
    BitVec.getLsbD_extractLsb', decide_eq_true_iff, ← and_and_left]

theorem fieldOp_toNat (w : Word) : (fieldOp w).toNat = w.toNat / 2 ^ 26 := by
  rw [fieldOp_eq, BitVec.toNat_ofNat]
  exact Nat.mod_eq_of_lt (Nat.div_lt_of_lt_mul w.isLt)

/-- Put off: the next slot holds a GTE command (R416). -/
theorem interruptDeferred_iff {x : Slot} : interruptDeferred x = true ↔
    ∃ w, x = .word w ∧ w.toNat / 2 ^ 26 = 0x12 ∧ w.getLsbD 25 = true := by
  cases x with
  | fetchFault c a => simp [interruptDeferred, Config.intDeferCop2, isGteCommand]
  | word w =>
    have hop : fieldOp w = 0x12#6 ↔ w.toNat / 2 ^ 26 = 0x12 := by
      rw [← fieldOp_toNat, ← BitVec.toNat_inj, BitVec.toNat_ofNat]
    simp [interruptDeferred, Config.intDeferCop2, isGteCommand, hop]

/-! ### The entry, and what the same step runs (60_exceptions.md R415; 70_reset_and_hazards.md R501) -/

theorem andThen_assoc {α β γ : Type} (m : Host.Outcome α Fault Refusal) (f : α → Host.Outcome β Fault Refusal)
    (g : β → Host.Outcome γ Fault Refusal) : andThen (andThen m f) g = andThen m fun a => andThen (f a) g := by
  cases m with
  | next a => rfl
  | fault r => rfl
  | refused r => rfl

/-- A machine that may step runs its four parts in order: the interrupt point, the fetch of the following word, the current slot,
the load-delay update. -/
theorem step_of_mayStep {s : State} (h : MayStep s) :
    step s = andThen (interruptPoint s) fun u => andThen (prefetch (shiftSlots (charge Config.tBase u))) fun v =>
      andThen (executeCurrent v) fun e => .next (updateLoadDelay e) := by
  obtain ⟨hrefused, harmed⟩ := h
  rw [step, hrefused]
  simp only [harmed, endStep, beginStep, andThen_assoc]
  rfl

/-- An interrupt that is due and not put off is taken. -/
theorem interruptPoint_due {s : State} (h : ¬ NoInterruptDue s) : interruptPoint s = takeInterrupt s := by
  obtain ⟨hpending, hdeferred⟩ := not_or.mp h
  rw [interruptPoint, if_pos]
  rw [Bool.and_eq_true, Bool.not_eq_true']
  exact ⟨Bool.eq_true_of_not_eq_false hpending, Bool.eq_false_of_not_eq_true hdeferred⟩

/-- The entry of an interrupt is done when the bus answers: the interrupted instruction is the one in the next slot (R415). -/
theorem takeInterrupt_completes {s : State} (h : BusReplies s) : ∃ u, takeInterrupt s = .next u ∧
    Entered 0 s.pipe.pc s.pipe.nextInstructionIsBranchDelaySlot s.pipe.branchWasTaken (slotCopNumber s.pipe.nextInstruction)
      s.pipe.npc s u := by
  obtain ⟨u, hu⟩ := enterException_completes .int s.pipe.pc s.pipe.nextInstructionIsBranchDelaySlot s.pipe.branchWasTaken
    (slotCopNumber s.pipe.nextInstruction) s.pipe.npc h
  exact ⟨u, hu, enterException_entered hu⟩

/-- Settles O41: the interrupt point of the step is exception entry, and the rest of the step goes on from the state after it. -/
theorem interruptEntry : Obligations.InterruptEntry := by
  intro s
  refine ⟨interruptPending_iff, interruptDeferred_iff, fun hmay hdue hb => ?_⟩
  obtain ⟨u, hu, hentered⟩ := takeInterrupt_completes hb
  refine ⟨u, hentered, ?_⟩
  rw [step_of_mayStep hmay, interruptPoint_due hdue, hu]
  rfl

/-! ### The way into user mode (60_exceptions.md R440) -/

/-- An interrupt is entered in kernel mode, so the interrupt point leads from kernel mode to kernel mode. -/
theorem interruptPoint_kernel {s u : State} (h : interruptPoint s = .next u) (hk : s.cop0.sr.getLsbD 1 = false) :
    u.cop0.sr.getLsbD 1 = false := by
  rcases interruptPoint_eq_next h with ⟨-, rfl⟩ | ⟨-, -, ht⟩
  · exact hk
  · obtain ⟨-, hku, -⟩ := (enterException_entered ht).sr_bits
    exact hku

/-- Of the COP0 writes only the one to register 12 reaches SR (44_system.md R337). -/
theorem writeCop0_keeps_sr {n : RegNum} (hn : n ≠ 12#5) (v : Word) (s : State) : (writeCop0 n v s).cop0.sr = s.cop0.sr := by
  unfold writeCop0
  split
  case h_6 => exact absurd rfl hn
  all_goals rfl

/-- A quiet instruction that changes SR is RFE or MTC0 to SR. -/
theorem Quiet.sr_writer {i : Instr} {s t : State} (q : Quiet i s t) (h : t.cop0.sr ≠ s.cop0.sr) :
    i = .rfe ∨ ∃ rt, i = .mtc0 rt 12#5 := by
  rcases q.cop0 with hc | ⟨rt, rd, hi, -, hc⟩ | ⟨hi, -, -⟩
  · exact absurd (by rw [hc]) h
  · by_cases hrd : rd = 12#5
    · exact .inr ⟨rt, hrd ▸ hi⟩
    · exact absurd (by rw [hc, writeCop0_keeps_sr hrd]) h
  · exact .inl hi

/-- A quiet instruction stays the current one. -/
theorem Quiet.currentInstruction {i : Instr} {s t : State} (q : Quiet i s t) :
    t.pipe.currentInstruction = s.pipe.currentInstruction := by
  cases hb : isBranch i with
  | false => rw [q.straight hb]
  | true => rw [q.branch hb]

/-- The current slot leads from kernel mode to user mode only where it holds RFE or MTC0 to SR. -/
theorem executeCurrent_enters_user {s t : State} (h : executeCurrent s = .next t) (hk : s.cop0.sr.getLsbD 1 = false)
    (hu : t.cop0.sr.getLsbD 1 = true) : ∃ w, t.pipe.currentInstruction = .word w ∧
      (decodeWord w = .ok .rfe ∨ ∃ rt, decodeWord w = .ok (.mtc0 rt 12#5)) := by
  rcases executeCurrent_cases h with ⟨code, ce, v, -, hr⟩ | ⟨w, i, hw, hi, -, q⟩
  · obtain ⟨-, hku, -⟩ := (raiseWithCe_raised hr).sr_bits
    exact absurd (hku.symm.trans hu) Bool.false_ne_true
  · have hsr : t.cop0.sr ≠ s.cop0.sr := fun heq =>
      absurd (hk.symm.trans (heq ▸ hu)) Bool.false_ne_true
    refine ⟨w, q.currentInstruction.trans hw, ?_⟩
    rw [hi]
    rcases q.sr_writer hsr with rfl | ⟨rt, rfl⟩
    · exact .inl rfl
    · exact .inr ⟨rt, rfl⟩

/-- Settles O55: up to the execution of the current slot the step stays in kernel mode, and the load-delay update after it leaves
SR alone. -/
theorem userModeEntry : Obligations.UserModeEntry := by
  intro s t h hk hu
  obtain ⟨-, u, e, hbegin, hexec, rfl⟩ := step_eq_next.mp h
  obtain ⟨s1, h1, b⟩ := begun hbegin
  have hcop : u.cop0 = s1.cop0 := by rw [b.frame]
  rw [updateLoadDelay_cop0] at hu
  rw [updateLoadDelay_pipe]
  exact executeCurrent_enters_user hexec (hcop ▸ interruptPoint_kernel h1 hk) hu

/-! ### Breakpoints (60_exceptions.md R451) -/

theorem breakpointHit_iff {a : Word} {e : Breakpoint} : breakpointHit a e = true ↔ e.enabled = true ∧ e.address = a := by
  rw [breakpointHit, Bool.and_eq_true, decide_eq_true_iff]

/-- The entry stays in the table after a hit: no `auto_clear`, and no callback that answers false. -/
def StaysAfterHit (d : Breakpoint) : Prop :=
  d.autoClear = false ∧ (d.callback = none ∨ ∃ bs, d.callback = some bs ∧ bs.headD true = true)

/-- The entry with one more hit counted and one answer of its callback used. -/
def counted (d : Breakpoint) : Breakpoint := { d with hitCount := d.hitCount + 1, callback := d.callback.map List.tail }

theorem afterHit_eq_some {d e : Breakpoint} : afterHit d = some e ↔ StaysAfterHit d ∧ e = counted d := by
  rw [afterHit, StaysAfterHit, eq_comm (a := e), counted]
  cases d.callback with
  | none => cases d.autoClear <;> simp
  | some bs => cases d.autoClear <;> cases bs.headD true <;> simp

/-- What is in the table after a visit: the entries that were not hit, and those that were and stay, counted. -/
theorem mem_visitTable {a : Word} {t : List Breakpoint} {e : Breakpoint} : e ∈ visitTable a t ↔
    (e ∈ t ∧ ¬ (e.enabled = true ∧ e.address = a)) ∨
    ∃ d ∈ t, (d.enabled = true ∧ d.address = a) ∧ StaysAfterHit d ∧ e = counted d := by
  rw [visitTable, List.mem_filterMap]
  constructor
  · rintro ⟨d, hd, he⟩
    split at he
    · next hhit => exact .inr ⟨d, hd, breakpointHit_iff.mp hhit, afterHit_eq_some.mp he⟩
    · next hmiss =>
      cases he
      exact .inl ⟨hd, breakpointHit_iff.not.mp hmiss⟩
  · rintro (⟨he, hmiss⟩ | ⟨d, hd, hhit, hstays⟩)
    · exact ⟨e, he, if_neg (breakpointHit_iff.not.mpr hmiss)⟩
    · exact ⟨d, hd, (if_pos (breakpointHit_iff.mpr hhit)).trans (afterHit_eq_some.mpr hstays)⟩

/-- An entry that is left by a visit has the sequence number it had. -/
theorem visit_keeps_sequence {a : Word} {d e : Breakpoint} (h : (if breakpointHit a d then afterHit d else some d) = some e) :
    e.sequence = d.sequence := by
  split at h
  · obtain ⟨-, rfl⟩ := afterHit_eq_some.mp h
    rfl
  · cases h
    rfl

/-- A visit keeps the entries' order. -/
theorem visitTable_sublist (a : Word) (t : List Breakpoint) :
    ((visitTable a t).map (·.sequence)).Sublist (t.map (·.sequence)) := by
  induction t with
  | nil => exact .slnil
  | cons d ds ih =>
    rw [visitTable, List.filterMap_cons]
    split
    · exact ih.cons d.sequence
    · next e he =>
      rw [List.map_cons, List.map_cons, visit_keeps_sequence he]
      exact ih.cons_cons d.sequence

/-- A visit stops exactly at a hit without a callback. -/
theorem visitStops_iff {a : Word} {t : List Breakpoint} : visitStops a t = true ↔
    ∃ e ∈ t, e.enabled = true ∧ e.address = a ∧ e.callback = none := by
  simp only [visitStops, List.any_eq_true, Bool.and_eq_true, breakpointHit_iff, Option.isNone_iff_eq_none, and_assoc]

/-- A resumed address is let pass, once. -/
theorem breakpointCheck_resumed {h : HostState} (hr : h.resumeSkip = some h.machine.pipe.pc) :
    breakpointCheck h = (false, { h with resumeSkip := none }) := if_pos hr

/-- Any other check is a visit; one that stops notes the address for the resumption. -/
theorem breakpointCheck_visit {h : HostState} (hr : h.resumeSkip ≠ some h.machine.pipe.pc) :
    breakpointCheck h = (visitStops h.machine.pipe.pc h.breakpoints,
      { h with
        breakpoints := visitTable h.machine.pipe.pc h.breakpoints
        resumeSkip := if visitStops h.machine.pipe.pc h.breakpoints = true then some h.machine.pipe.pc else h.resumeSkip }) := by
  rw [breakpointCheck, if_neg hr]
  cases visitStops h.machine.pipe.pc h.breakpoints with
  | true => rfl
  | false => rfl

/-- Settles O59: the check lets a resumed address pass, or is one visit of the table. -/
theorem breakpointVisit : Obligations.BreakpointVisit := by
  intro h
  by_cases hr : h.resumeSkip = some h.machine.pipe.pc
  · rw [breakpointCheck_resumed hr]
    exact ⟨rfl, fun _ => ⟨rfl, rfl, rfl⟩, fun hne => absurd hr hne⟩
  · rw [breakpointCheck_visit hr]
    refine ⟨rfl, fun heq => absurd heq hr, fun _ => ⟨visitStops_iff, rfl, visitTable_sublist _ _, ?kept, ?counted, ?only⟩⟩
    case kept => exact fun e he hmiss => mem_visitTable.mpr (.inl ⟨he, hmiss⟩)
    case counted =>
      exact fun e he hen ha hauto hcall => mem_visitTable.mpr (.inr ⟨e, he, ⟨hen, ha⟩, ⟨hauto, hcall⟩, rfl⟩)
    case only =>
      intro e he
      refine (mem_visitTable.mp he).imp_right ?_
      rintro ⟨d, hd, ⟨hen, ha⟩, ⟨hauto, hcall⟩, heq⟩
      exact ⟨d, hd, hen, ha, hauto, hcall, heq⟩

/-! ### The external interrupt lines (60_exceptions.md R412) -/

/-- A line's word has the one bit of CAUSE set. -/
theorem lineBit_getLsbD {b k : Nat} (hk : k < 32) : (lineBit b).getLsbD k = decide (k = 8 + b) := by
  rw [lineBit, BitVec.getLsbD_shiftLeft, BitVec.getLsbD_one, Bool.eq_iff_iff]
  simp [hk]
  omega

theorem setExternalInterrupt_of_lt {b : Nat} (h : b < 8) (s : State) :
    setExternalInterrupt b s = setCause (s.cop0.cause ||| lineBit b) s := if_pos h

theorem clearExternalInterrupt_of_lt {b : Nat} (h : b < 8) (s : State) :
    clearExternalInterrupt b s = setCause (s.cop0.cause &&& ~~~lineBit b) s := if_pos h

theorem setExternalInterrupt_of_le {b : Nat} (h : 8 ≤ b) (s : State) : setExternalInterrupt b s = s := if_neg h.not_gt

theorem clearExternalInterrupt_of_le {b : Nat} (h : 8 ≤ b) (s : State) : clearExternalInterrupt b s = s := if_neg h.not_gt

/-- Settles O57: inside 0..7 CAUSE is replaced, by itself with the line's bit set or cleared; outside nothing is done. -/
theorem externalInterruptLines : Obligations.ExternalInterruptLines := by
  intro s b
  refine ⟨fun hb => ⟨setExternalInterrupt_of_le hb s, clearExternalInterrupt_of_le hb s⟩, fun hb k hk => ⟨?_, ?_⟩, ?_⟩
  · rw [setExternalInterrupt_of_lt hb, setCause_cop0, BitVec.getLsbD_or, lineBit_getLsbD hk]
    by_cases hline : k = 8 + b <;> simp [hline]
  · rw [clearExternalInterrupt_of_lt hb, setCause_cop0, BitVec.getLsbD_and, BitVec.getLsbD_not, lineBit_getLsbD hk]
    by_cases hline : k = 8 + b <;> simp [hline, hk]
  · rcases lt_or_ge b 8 with hb | hb
    · rw [setExternalInterrupt_of_lt hb, clearExternalInterrupt_of_lt hb]
      exact ⟨rfl, rfl⟩
    · rw [setExternalInterrupt_of_le hb, clearExternalInterrupt_of_le hb]
      exact ⟨rfl, rfl⟩

/-! ### Capture and restore (60_exceptions.md R456; 10_state.md R54) -/

/-- A capture that is restored gives its state back, but for what is not captured: the refusal, the bus and the draws. -/
theorem restore_capture (s t : State) : restore (capture s) t = { s with refused := t.refused, bus := t.bus, draws := t.draws } :=
  rfl

/-- A container of the expected version and shape is restored. -/
theorem restoreContainer_accepts (version : Nat) (c : Snapshot) (t : State) :
    restoreContainer version { version := version, content := some c } t = (true, restore c t) := if_pos rfl

/-- A container of another version is not. -/
theorem restoreContainer_wrong_version {version other : Nat} (h : other ≠ version) (c : Snapshot) (t : State) :
    restoreContainer version { version := other, content := some c } t = (false, t) := if_neg h

/-- Settles O58: the one container that is accepted is restored, and its fields are those captured. -/
theorem captureRestore : Obligations.CaptureRestore := by
  intro s t version other
  refine ⟨?_, fun hother => restoreContainer_wrong_version hother (capture s) t, rfl⟩
  rw [restoreContainer_accepts, restore_capture]

end Sys2Proof.Machine

/-! The family of 70_reset_and_hazards.md: the step (O40), the load delay (O47), the branch delay (O48), the next slot (O53), time
(O56, O33), reset (O50, O51). -/

namespace Sys2Proof.Machine

/-! ### The parts of a step (70_reset_and_hazards.md R501 to R503) -/

/-- A step with no interrupt due begins with the advance of the slots, executes the current one and ends with the load-delay
update. -/
theorem step_parts {s t : State} (h : step s = .next t) (hq : NoInterruptDue s) :
    ∃ u e, beginStep s = .next u ∧ Begun s u ∧ executeCurrent u = .next e ∧ t = updateLoadDelay e := by
  obtain ⟨-, u, e, hu, he, rfl⟩ := step_eq_next.mp h
  obtain ⟨s1, h1, b⟩ := begun hu
  rw [interruptPoint_quiet hq] at h1
  cases h1
  exact ⟨u, e, hu, b, he, rfl⟩

/-- A current slot that raises no exception holds an instruction, and it completes quietly. -/
theorem executeCurrent_quiet {u e : State} (h : executeCurrent u = .next e) (hf : e.flags.exceptionRaised = false) :
    ∃ w i, u.pipe.currentInstruction = .word w ∧ decodeWord w = .ok i ∧ exec i u = .next e ∧ Quiet i u e := by
  rcases executeCurrent_cases h with ⟨_, _, _, -, hr⟩ | hq
  · exact absurd ((raiseWithCe_raised hr).raised.symm.trans hf) (by decide)
  · exact hq

/-- Such a slot changes nothing of the pipeline but `npc` and the branch flags. -/
theorem executeCurrent_pipe {u e : State} (h : executeCurrent u = .next e) (hf : e.flags.exceptionRaised = false) :
    e.pipe =
      { u.pipe with
        npc := e.pipe.npc
        branchWasTaken := e.pipe.branchWasTaken
        nextInstructionIsBranchDelaySlot := e.pipe.nextInstructionIsBranchDelaySlot } := by
  obtain ⟨_, i, -, -, -, q⟩ := executeCurrent_quiet h hf
  cases hb : isBranch i with
  | false => rw [q.straight hb]
  | true => rw [q.branch hb]

/-- A current slot that holds an instruction executes it. -/
theorem executeCurrent_of_decoded {u : State} {w : Word} {i : Instr} (hw : u.pipe.currentInstruction = .word w)
    (hi : decodeWord w = .ok i) : executeCurrent u = exec i u := by
  simp only [executeCurrent, hw, hi]

/-- A quiet step executes the instruction the next slot held. -/
theorem step_executes {s t : State} {w : Word} {i : Instr} (h : step s = .next t) (hq : NoInterruptDue s)
    (hf : t.flags.exceptionRaised = false) (hw : s.pipe.nextInstruction = .word w) (hi : decodeWord w = .ok i) :
    ∃ u e, beginStep s = .next u ∧ Begun s u ∧ exec i u = .next e ∧ Quiet i u e ∧ t = updateLoadDelay e := by
  obtain ⟨u, e, hu, b, he, rfl⟩ := step_parts h hq
  have hcurrent : u.pipe.currentInstruction = .word w := by rw [b.pipe, ← hw]
  rw [executeCurrent_of_decoded hcurrent hi] at he
  exact ⟨u, e, hu, b, he, quiet_of_not_raised he (by simpa using hf), rfl⟩

/-- What the bytes of a word decode to, the word decodes to (30_encoding.md R170). -/
theorem decodeWord_of_decode {w : Word} {i : Instr} {rest : List Byte}
    (h : decode (bytesOfWord w ++ rest) = .ok (i, rest)) : decodeWord w = .ok i := by
  rw [decode_bytesOfWord] at h
  cases hd : decodeWord w with
  | error r => simp [hd, Except.map] at h
  | ok j => simpa [hd, Except.map] using h

/-- Settles O40: the interrupt point does nothing, the fetch leaves the pipeline alone, and the word's bytes decode as the word. -/
theorem stepRunsDecodedInstruction : Obligations.StepRunsDecodedInstruction := by
  intro s w i rest x f hmay hq hw hi hf
  have hpipe : f.pipe = (shiftSlots (charge Config.tBase s)).pipe := by rw [(fetch_done hf).fetched.frame]; rfl
  have hprefetch : prefetch (shiftSlots (charge Config.tBase s)) = .next (advance x f) := prefetch_eq_next.mpr ⟨x, f, hf, rfl⟩
  have hcurrent : (advance x f).pipe.currentInstruction = .word w := by simp [advance, hpipe, hw]
  rw [step_of_mayStep hmay, interruptPoint_quiet hq, andThen_next, hprefetch, andThen_next,
    executeCurrent_of_decoded hcurrent (decodeWord_of_decode hi)]
  simp [advance, hpipe, hw]

/-- Settles O53: the next slot and its address are those the fetch left, and the instruction changes neither. -/
theorem nextSlotFetchedBeforeExecute : Obligations.NextSlotFetchedBeforeExecute := by
  intro s u e hbegin hexec hf
  obtain ⟨s1, x, f, h1, hfetch, rfl⟩ := beginStep_eq_next.mp hbegin
  have hpipe := executeCurrent_pipe hexec hf
  exact ⟨by rw [hpipe], by rw [hpipe], s1, f, h1, hfetch⟩

/-! ### The load delay (R506 to R512) -/

/-- An instruction with a load-delayed destination writes no register at once (R513). -/
theorem immediateDest_of_delayedDest {i : Instr} {r : RegNum} (h : delayedDest i = some r) : immediateDest i = none := by
  cases i with
  | lb | lbu | lh | lhu | lw | lwl | lwr | mfc0 | mfc2 | cfc2 => rfl
  | _ => simp [delayedDest] at h

/-- A load pending before an instruction is pending after it, unless the instruction writes the register, at once or with the load
delay (R507, R508). -/
theorem Quiet.pending {i : Instr} {s t : State} {r : RegNum} (q : Quiet i s t) (hr : s.delay.reg = some r) (h0 : r ≠ 0#5) :
    (t.delay.reg = if immediateDest i = some r ∨ delayedDest i = some r then none else some r) ∧
    t.delay.value = s.delay.value := by
  cases hd : delayedDest i with
  | some k =>
    rw [q.delayStaged k hd, immediateDest_of_delayedDest hd]
    by_cases hk : r = k
    · simp [← hk, h0, hr]
    · by_cases hk0 : k = 0#5 <;> simp [hk0, hr, hk, Ne.symm hk, Ne.symm h0]
  | none =>
    cases hi : immediateDest i with
    | some k =>
      rw [q.delayWritten k hi]
      by_cases hk : r = k
      · simp [← hk, hr]
      · simp [hr, hk, Ne.symm hk]
    | none => rw [q.delayKept hi hd]; simp [hr]

/-- The load-delay update after an instruction commits the load that was pending before it, unless the instruction wrote the
register or staged a load to it (R507 to R509). -/
theorem Quiet.readReg_committed {i : Instr} {s t : State} {r : RegNum} (q : Quiet i s t) (hr : s.delay.reg = some r)
    (h0 : r ≠ 0#5) : readReg r (updateLoadDelay t) =
      if immediateDest i = some r then readReg r t
      else if delayedDest i = some r then readReg r s else s.delay.value := by
  obtain ⟨hreg, hvalue⟩ := q.pending hr h0
  rw [readReg_updateLoadDelay, hreg, hvalue]
  by_cases himm : immediateDest i = some r
  · simp [himm]
  · by_cases hdel : delayedDest i = some r
    · simp [himm, hdel, q.regs r himm]
    · simp [himm, hdel, h0]

/-- Settles O47: the start of a step moves neither the registers nor the pending load, so the instruction finds the load still
pending, and the update after it commits the load. -/
theorem loadDelayLaw : Obligations.LoadDelayLaw := by
  intro s t r w i h hq hf hw hi hr h0
  obtain ⟨u, e, hu, b, he, q, rfl⟩ := step_executes h hq hf hw hi
  have hregs : ∀ k, readReg k u = readReg k s := readReg_congr (by rw [b.frame])
  have hdelay : u.delay = s.delay := by rw [b.frame]
  refine ⟨u, e, hu, he, hregs, ?_⟩
  rw [q.readReg_committed (hdelay ▸ hr) h0, hregs, hdelay]

/-! ### The branch delay (R520 to R523) -/

/-- Every branch or jump ends in `branchIf`, after a link or none. -/
theorem exec_branch {i : Instr} {s t : State} (hb : isBranch i = true) (h : exec i s = .next t) :
    ∃ taken target u, u.pipe = s.pipe ∧ t = branchIf taken target u := by
  cases i with
  | j | jr | beq | bne | blez | bgtz | bltz | bgez => cases h; exact ⟨_, _, s, rfl, rfl⟩
  | jal | jalr | bltzal | bgezal => cases h; exact ⟨_, _, _, writeReg_pipe _ _ s, rfl⟩
  | _ => simp [isBranch] at hb

/-- A branch that is not taken leaves `npc` alone. -/
theorem exec_branch_not_taken {i : Instr} {s t : State} (hb : isBranch i = true) (h : exec i s = .next t)
    (ht : t.pipe.branchWasTaken = false) : t.pipe.npc = s.pipe.npc := by
  obtain ⟨taken, target, u, hu, rfl⟩ := exec_branch hb h
  have b := branchIf_branched taken target u
  cases taken with
  | false => rw [← hu]; exact (b.npcNotTaken rfl).1
  | true => exact absurd ((b.npcTaken rfl).2.symm.trans ht) (by decide)

/-- A quiet step executes what was in the next slot, with its address and its branch flags, and goes on at `npc`. -/
theorem step_pipe {s t : State} (h : step s = .next t) (hq : NoInterruptDue s) (hf : t.flags.exceptionRaised = false) :
    t.pipe.currentInstruction = s.pipe.nextInstruction ∧ t.pipe.currentInstructionPc = s.pipe.pc ∧
    t.pipe.currentInBranchDelaySlot = s.pipe.nextInstructionIsBranchDelaySlot ∧
    t.pipe.currentBranchWasTaken = s.pipe.branchWasTaken ∧ t.pipe.pc = s.pipe.npc := by
  obtain ⟨u, e, -, b, he, rfl⟩ := step_parts h hq
  rw [updateLoadDelay_pipe, executeCurrent_pipe he (by simpa using hf), b.pipe]
  exact ⟨rfl, rfl, rfl, rfl, rfl⟩

/-- Settles O48: the first step leaves the delay slot in the next slot, marked as one; the second executes it and goes on at the
`npc` the branch set. -/
theorem branchDelayLaw : Obligations.BranchDelayLaw := by
  intro s t v w i hs hqs hft hw hi hb ht hqt hfv
  obtain ⟨-, -, -, -, hpc⟩ := step_pipe hs hqs hft
  obtain ⟨hcurrent, hcurrentPc, hinSlot, hwasTaken, hnext⟩ := step_pipe ht hqt hfv
  obtain ⟨u, e, -, b, he, q, rfl⟩ := step_executes hs hqs hft hw hi
  have hslot : e.pipe.nextInstructionIsBranchDelaySlot = true := by rw [q.branch hb]
  have hnpc : u.pipe.npc = s.pipe.npc + 4#32 := by rw [b.pipe]
  simp only [updateLoadDelay_pipe] at *
  exact ⟨hpc, hslot, fun hnt => (exec_branch_not_taken hb he hnt).trans hnpc, hcurrent, hcurrentPc.trans hpc,
    hinSlot.trans hslot, hwasTaken, hnext⟩

/-! ### Time (R540 to R544) -/

/-- From `s` to `t` at least `n` ticks are charged, and `downcount` is left to the host (R540). -/
structure TicksPass (n : Nat) (s t : State) : Prop where
  ticks : s.timing.pendingTicks + n ≤ t.timing.pendingTicks
  downcount : t.timing.downcount = s.timing.downcount

theorem TicksPass.trans {m n : Nat} {s t u : State} (h : TicksPass m s t) (k : TicksPass n t u) : TicksPass (m + n) s u :=
  ⟨by have := h.ticks; have := k.ticks; omega, k.downcount.trans h.downcount⟩

theorem TicksPass.of_entered {code : Nat} {a : Word} {bd bt : Bool} {ce : BitVec 2} {dest : Word} {s t : State}
    (h : Entered code a bd bt ce dest s t) : TicksPass 0 s t :=
  ⟨Nat.le_of_succ_le h.ticks, by rw [h.timing]⟩

theorem TicksPass.of_beforeRaise {s u : State} (h : BeforeRaise s u) : TicksPass 0 s u := ⟨h.ticks, by rw [h.timing]⟩

theorem TicksPass.of_begun {s u : State} (h : Begun s u) : TicksPass Config.tBase s u := ⟨h.ticks, by rw [h.timing]⟩

theorem TicksPass.interruptPoint {s t : State} (h : interruptPoint s = .next t) : TicksPass 0 s t := by
  rcases interruptPoint_eq_next h with ⟨-, rfl⟩ | ⟨-, -, hint⟩
  · exact ⟨Nat.le_refl _, rfl⟩
  · exact .of_entered (enterException_entered hint)

theorem TicksPass.executeCurrent {s t : State} (h : executeCurrent s = .next t) : TicksPass 0 s t := by
  rcases executeCurrent_cases h with ⟨_, _, _, hb, hr⟩ | ⟨_, _, -, -, -, q⟩
  · exact (of_beforeRaise hb).trans (of_entered (raiseWithCe_raised hr))
  · exact ⟨q.ticks, q.downcount⟩

/-- Settles O56: only the start of a step must charge, every other part may. -/
theorem tickLaws : Obligations.TickLaws := by
  constructor
  · intro s t h
    obtain ⟨-, u, e, hu, he, rfl⟩ := step_eq_next.mp h
    obtain ⟨s1, h1, b⟩ := begun hu
    obtain ⟨hticks, hdown⟩ := ((TicksPass.interruptPoint h1).trans (.of_begun b)).trans (.executeCurrent he)
    rw [updateLoadDelay_timing]
    exact ⟨by simpa [Config.tBase] using hticks, hdown⟩
  · intro s
    have hsaturates : s.timing.gteCompletionTick - s.timing.pendingTicks =
        if s.timing.pendingTicks < s.timing.gteCompletionTick then s.timing.gteCompletionTick - s.timing.pendingTicks
        else 0 := by
      split_ifs <;> omega
    rw [← hsaturates]
    rfl

/-- Settles O33: the command is issued in the state after the wait. -/
theorem gteCommandIssue : Obligations.GteCommandIssue := by
  intro s cmd h
  rw [exec, execCop2, withCop2_allowed h]
  rfl

/-! ### Reset (R530, R531) -/

/-- Every cache line is invalid at reset. -/
theorem reset_tags (l : BitVec 8) : State.reset.icache.tags.read l = Config.invalidTag := Bank.read_replicate _ l

/-- Settles O50: nothing is written, pending or cached at reset, and the next slot holds a word from the reset vector. -/
theorem resetMeetsInvariant : Obligations.ResetMeetsInvariant where
  memory := rfl
  srBits := by decide
  causeBits := by decide
  dcicBits := by decide
  pendingReg := nofun
  stagedReg := rfl
  takenSlot := nofun
  wordAligned _ _ := by decide
  markerAddress := nofun
  cacheOff _ l := by rw [reset_tags]; decide
  tagsPhysical l := by rw [reset_tags]; decide

/-- A state that differs from the reset state only in what `Reset()` leaves to the bus and the host: the bus, the GTE, the draws,
`downcount`, and what the prefetch returned. -/
structure LikeReset (x : State) : Prop where
  frame : x =
    { State.reset with
      pipe := { State.reset.pipe with nextInstruction := x.pipe.nextInstruction }
      flags := { State.reset.flags with busError := x.flags.busError }
      timing := x.timing, gte := x.gte, bus := x.bus, draws := x.draws }
  ticks : x.timing.pendingTicks = Config.tFetchUncached 0x1FC00000#32 + 1
  completion : x.timing.gteCompletionTick = 0

/-- The reset vector lies in KSEG1 and can be fetched from in the kernel mode of reset: its fetch bypasses the cache. -/
theorem resetVector_uncached {s : State} (h : s.cop0 = State.reset.cop0) :
    fetchable Config.resetVector s ∧ ¬ cacheable Config.resetVector s := by
  have hkernel : s.cop0.sr.getLsbD 1 = false := by rw [h]; decide
  exact ⟨⟨by decide, .inr ⟨by decide, by decide, hkernel⟩⟩, fun hc => absurd hc.1 (by decide)⟩

/-- The prefetch at the reset vector: one uncached read, which gives the word the bus answers or an IBE marker (R530). -/
theorem machineReset_answered {s : State} (hb : BusReplies s) : ∃ t, machineReset s = .next t ∧ LikeReset t ∧
    t.pipe.nextInstruction = (match resetWord s with
      | some w => .word w
      | none => .fetchFault .ibe 0xBFC00000#32) ∧
    t.bus = { mem := s.bus.mem, answers := s.bus.answers.tail, log := .read .fetch 0x1FC00000#32 .word (resetWord s) :: s.bus.log } ∧
    t.flags.busError = (resetWord s).isNone := by
  obtain ⟨hfetchable, huncached⟩ := resetVector_uncached (s := resetFields s) rfl
  obtain ⟨-, hram, hdevice, herror⟩ := uncachedFetchReadsBus Config.resetVector (resetFields s) hfetchable huncached
  have hticks := congrArg (· + Config.tFlush) (Nat.zero_add (Config.tFetchUncached 0x1FC00000#32))
  unfold resetWord
  cases ha : nextAnswer s with
  | ram => exact ⟨_, refill_eq_next.mpr ⟨_, _, hram ha, rfl⟩, ⟨rfl, hticks, rfl⟩, rfl, rfl, rfl⟩
  | device d => exact ⟨_, refill_eq_next.mpr ⟨_, _, hdevice d ha, rfl⟩, ⟨rfl, hticks, rfl⟩, rfl, rfl, rfl⟩
  | error => exact ⟨_, refill_eq_next.mpr ⟨_, _, herror ha, rfl⟩, ⟨rfl, hticks, rfl⟩, rfl, rfl, rfl⟩
  | silent => exact absurd ha hb.next_ne_silent

/-- Settles O51: what `Reset()` sets is as in the reset state, whose fields can be read off. -/
theorem resetValues : Obligations.ResetValues := by
  intro s hb
  obtain ⟨t, ht, hlike, hnext, hbus, herror⟩ := machineReset_answered hb
  refine ⟨t, ht, hnext, hbus, herror, rfl, rfl, fun x hx => ?_⟩
  obtain ⟨hframe, hticks, hcompletion⟩ : LikeReset x := by
    rcases hx with rfl | rfl
    · exact hlike
    · exact ⟨rfl, rfl, rfl⟩
  have hcop : x.cop0 = State.reset.cop0 := by rw [hframe]
  have htags : x.icache.tags = State.reset.icache.tags := by rw [hframe]
  have hpipe : x.pipe = { State.reset.pipe with nextInstruction := x.pipe.nextInstruction } := by rw [hframe]
  have hdelay : x.delay = State.reset.delay := by rw [hframe]
  have hcontrol : x.cacheControl = 0#32 := by rw [hframe]; rfl
  have hraised : x.flags.exceptionRaised = false := by rw [hframe]; rfl
  have hrefused : x.refused = none := by rw [hframe]; rfl
  obtain ⟨hfetchable, huncached⟩ := resetVector_uncached hcop
  rw [hcop, hpipe]
  exact ⟨rfl, rfl, rfl, rfl, rfl, rfl, rfl, rfl, hdelay, rfl, rfl, rfl, hcontrol, fun l => htags ▸ reset_tags l, hticks,
    hcompletion, hraised, hrefused, (fetch_of_not_cacheable hfetchable huncached).2⟩

end Sys2Proof.Machine
